-- ==== Sys2Proof/Word.lean ====
section
/-!
DEFINITION. The bit-vector types of the block (spec 00_scope.md R5, R6). Bit 0 is the least significant bit of each;
every value is unsigned.
-/

namespace Sys2Proof

/-- A register value: `PORT_BITS` = 8 bits (R5, R11). Also the raw `pin` operand of a command (R54). -/
abbrev Byte := BitVec 8

/-- A register address: `ADDR_BITS` = 16 bits (R5, the spec's decision D2). -/
abbrev Addr := BitVec 16

/-- A cycle or millisecond count and a loop hold: `CNT_BITS` = 32 bits (R5, the spec's decision D3). -/
abbrev Count := BitVec 32

/-- A command index: `PC_BITS` = 32 bits (R5, R19). -/
abbrev Pc := BitVec 32

/-- A command word: 64 bits (R51). -/
abbrev CmdWord := BitVec 64

/-- A legal pin index: `NPINS` = 8 (R5, R15). -/
abbrev Pin := Fin 8

end Sys2Proof
end

