-- ==== Sys2Proof/Syntax.lean ====
section
/-!
DEFINITION. The command set (spec 30_encoding.md R50, R59, R60): one constructor per row of opcode_table.json,
operands in the source's argument order. A `pin` operand keeps its 8 encoded bits: the values 8 to 255 are
spelled and refused on execution (R54, R70).
-/

namespace Sys2Proof

/-- The nine commands. -/
inductive Instr where
  /-- `construct daddr, oaddr, iaddr` (R73). -/
  | construct (daddr oaddr iaddr : Addr)
  /-- `set_pin_mode pin, is_output` (R74). -/
  | setPinMode (pin : Byte) (isOutput : Bool)
  /-- `set_pin_state pin, is_high` (R75). -/
  | setPinState (pin : Byte) (isHigh : Bool)
  /-- `read_pin pin` (R76). -/
  | readPin (pin : Byte)
  /-- `delay count` (R86). -/
  | delay (count : Count)
  /-- `delay_ms count` (R90). -/
  | delayMs (count : Count)
  /-- `toggle pin` (R95). -/
  | toggle (pin : Byte)
  /-- `jump target` (R111). -/
  | jump (target : Pc)
  /-- `halt` (R112). -/
  | halt
deriving DecidableEq, Repr

end Sys2Proof
end

