-- ==== Sys2Proof/Decode.lean ====
section
/-!
DEFINITION. Decoding and encoding of command words (spec 30_encoding.md R51 to R62, R65) and their byte order
(20_memory.md R36, decision D15: least significant byte first).
-/

namespace Sys2Proof

/-! ## Fields (R52 to R59) -/

/-- `op = w[63:56]` (R52). -/
def opField (w : CmdWord) : Byte := w.extractLsb' 56 8
/-- `daddr = w[47:32]` of format C (R53). -/
def daddrField (w : CmdWord) : Addr := w.extractLsb' 32 16
/-- `oaddr = w[31:16]` of format C (R53). -/
def oaddrField (w : CmdWord) : Addr := w.extractLsb' 16 16
/-- `iaddr = w[15:0]` of format C (R53). -/
def iaddrField (w : CmdWord) : Addr := w.extractLsb' 0 16
/-- `pin = w[15:8]` of formats P and R (R54, R55). -/
def pinField (w : CmdWord) : Byte := w.extractLsb' 8 8
/-- `val = w[0]` of format P (R54). -/
def valField (w : CmdWord) : Bool := w.getLsbD 0
/-- `count = w[31:0]` of format N, `target = w[31:0]` of format J (R56, R57). -/
def countField (w : CmdWord) : Count := w.extractLsb' 0 32

/-! ## The opcode map (R60) -/

/-- One row of the opcode map: a word `w` spells the row's command exactly when `w &&& mask = bits`. -/
structure Row where
  /-- The opcode `w[63:56]`. -/
  op : Byte
  /-- The row's `match` value. -/
  bits : CmdWord
  /-- The row's `mask`: the opcode and every must-be-zero bit. -/
  mask : CmdWord
  /-- The command with the fields of the row's format (R59). -/
  read : CmdWord → Instr

/-- The complete opcode map, R60, in the table's order. -/
def rows : List Row := [
  ⟨0x01#8, 0x0100000000000000#64, 0xFFFF000000000000#64,
    fun w => .construct (daddrField w) (oaddrField w) (iaddrField w)⟩,
  ⟨0x02#8, 0x0200000000000000#64, 0xFFFFFFFFFFFF00FE#64, fun w => .setPinMode (pinField w) (valField w)⟩,
  ⟨0x03#8, 0x0300000000000000#64, 0xFFFFFFFFFFFF00FE#64, fun w => .setPinState (pinField w) (valField w)⟩,
  ⟨0x04#8, 0x0400000000000000#64, 0xFFFFFFFFFFFF00FF#64, fun w => .readPin (pinField w)⟩,
  ⟨0x05#8, 0x0500000000000000#64, 0xFFFFFFFF00000000#64, fun w => .delay (countField w)⟩,
  ⟨0x06#8, 0x0600000000000000#64, 0xFFFFFFFF00000000#64, fun w => .delayMs (countField w)⟩,
  ⟨0x07#8, 0x0700000000000000#64, 0xFFFFFFFFFFFF00FF#64, fun w => .toggle (pinField w)⟩,
  ⟨0x08#8, 0x0800000000000000#64, 0xFFFFFFFF00000000#64, fun w => .jump (countField w)⟩,
  ⟨0x09#8, 0x0900000000000000#64, 0xFFFFFFFFFFFFFFFF#64, fun _ => .halt⟩]

/-! ## Decoding (R61, R65) -/

/-- Why a word spells no command: the two clauses of R61. -/
inductive Invalid where
  /-- R61 (a): the opcode is 0x00 or above 0x09. -/
  | undefinedOpcode
  /-- R61 (b): a must-be-zero bit of the row's format is set. -/
  | mustBeZeroBitSet
deriving DecidableEq, Repr

/-- The verdict of the decoder: a command, or `invalid` with the clause of R61. -/
inductive Verdict where
  | command (i : Instr)
  | invalid (why : Invalid)
deriving DecidableEq, Repr

/-- The total decoding function of R65. -/
def decode (w : CmdWord) : Verdict :=
  match rows.find? (fun r => r.op == opField w) with
  | none => .invalid .undefinedOpcode
  | some r => if w &&& r.mask = r.bits then .command (r.read w) else .invalid .mustBeZeroBitSet

/-! ## Encoding (R53 to R58, R65) -/

/-- The word of a command: its opcode and operands in their fields, zeros elsewhere (R65). -/
def encode : Instr → CmdWord
  | .construct d o i => 0x01#8 ++ 0#8 ++ d ++ o ++ i
  | .setPinMode p v => 0x02#8 ++ 0#40 ++ p ++ 0#7 ++ BitVec.ofBool v
  | .setPinState p v => 0x03#8 ++ 0#40 ++ p ++ 0#7 ++ BitVec.ofBool v
  | .readPin p => 0x04#8 ++ 0#40 ++ p ++ 0#8
  | .delay n => 0x05#8 ++ 0#24 ++ n
  | .delayMs n => 0x06#8 ++ 0#24 ++ n
  | .toggle p => 0x07#8 ++ 0#40 ++ p ++ 0#8
  | .jump t => 0x08#8 ++ 0#24 ++ t
  | .halt => 0x09#8 ++ 0#56

/-! ## Byte streams (R36) -/

/-- The eight bytes of a word, least significant first (R36). -/
def wordBytes (w : CmdWord) : List Byte :=
  [w.extractLsb' 0 8, w.extractLsb' 8 8, w.extractLsb' 16 8, w.extractLsb' 24 8,
   w.extractLsb' 32 8, w.extractLsb' 40 8, w.extractLsb' 48 8, w.extractLsb' 56 8]

/-- The word that eight bytes spell, least significant first (R36). -/
def wordOfBytes (b0 b1 b2 b3 b4 b5 b6 b7 : Byte) : CmdWord :=
  b7 ++ b6 ++ b5 ++ b4 ++ b3 ++ b2 ++ b1 ++ b0

/-- Decode the first command of a byte stream; `none` where fewer than the eight bytes of a word are left (R51). -/
def decodeBytes : List Byte → Option (Verdict × List Byte)
  | b0 :: b1 :: b2 :: b3 :: b4 :: b5 :: b6 :: b7 :: rest =>
    some (decode (wordOfBytes b0 b1 b2 b3 b4 b5 b6 b7), rest)
  | _ => none

/-- The program a byte stream stores (R36); `none` where the stream is not a whole number of words. -/
def programOfBytes : List Byte → Option (List CmdWord)
  | [] => some []
  | b0 :: b1 :: b2 :: b3 :: b4 :: b5 :: b6 :: b7 :: rest =>
    (programOfBytes rest).map (wordOfBytes b0 b1 b2 b3 b4 b5 b6 b7 :: ·)
  | _ => none

/-- The byte stream of a program (R36). -/
def programBytes (ws : List CmdWord) : List Byte := ws.flatMap wordBytes

/-- The host's reading of an opcode-table word: its low `nbits` bits, zeros above, laid out as bytes (R36) and
given to the decoder. -/
def decodeTableWord (nbits w : Nat) : Option Instr :=
  match decodeBytes (wordBytes (BitVec.ofNat 64 (w % 2 ^ nbits))) with
  | some (.command i, []) => some i
  | _ => none

end Sys2Proof
end

