-- ==== Sys2Proof/Config.lean ====
section
/-!
DEFINITION. What a launch fixes for a whole run (spec 00_scope.md R5, 10_state.md R27) and the free values the
environment supplies (R23, R95, R110). The launch parameters are plain data carried by the state, so a statement
about every state speaks of every launch.
-/

namespace Sys2Proof

/-- Which integration drives the block (R5 `BINDING`). -/
inductive Binding where
  /-- The Register Port and the counted delay. -/
  | port
  /-- The capability-typed pin and millisecond delay. -/
  | capability
deriving DecidableEq, Repr

/-- A line or logical level (R17, R20). -/
inductive Level where
  | low
  | high
deriving DecidableEq, Repr

/-- The addresses from `lo` to `hi`, both included: one record of the set `VALID_ADDR` (R5, R31). -/
structure AddrRange where
  lo : Addr
  hi : Addr
deriving DecidableEq, Repr

/-- One pair of the toggle loop's configuration `LOOP_SEQ` (R99): whether the level is inverted, and the hold. -/
structure LoopStep where
  transition : Bool
  hold : Count
deriving DecidableEq, Repr

/-- `LOOP_SEQ`, "a non-empty finite list of pairs" (R99): the first pair and those after it. -/
structure LoopSeq where
  first : LoopStep
  rest : List LoopStep
deriving DecidableEq, Repr

/-- The pairs of `LOOP_SEQ`, in order. -/
def LoopSeq.steps (seq : LoopSeq) : List LoopStep := seq.first :: seq.rest

/-- The launch parameters of R5 and R27; no step changes them. -/
structure Launch where
  /-- `BINDING`. -/
  binding : Binding
  /-- `LOOPBACK`: reads of `IN` are held to the driven level on output pins (R23). -/
  loopback : Bool
  /-- `ENV_FAULTS`: the environment may halt the block before a command (R110, R123). -/
  envFaults : Bool
  /-- `VALID_ADDR` as a list of ranges (R31, R37). -/
  validAddr : List AddrRange
  /-- `RESET_DIR` (R25). -/
  resetDir : Byte
  /-- `RESET_OUT` (R25). -/
  resetOut : Byte
  /-- `LOOP_PIN` (R99). -/
  loopPin : Pin
  /-- `LOOP_SEQ` (R99). -/
  loopSeq : LoopSeq
  /-- `LEVEL0` (R5, R20). -/
  level0 : Level
deriving DecidableEq, Repr

/-- Free value: the environment's unscripted answer number `n` to a read of `IN` (R23). DESIGN CHOICE of form,
notes/assumptions/7; safe: no body, so nothing can be proved of the value. -/
opaque Config.inputByte : Nat → Byte

/-- Free value: the collaborator's unscripted toggle result number `n` (R95, U7). DESIGN CHOICE of form,
notes/assumptions/8; safe. -/
opaque Config.toggleResult : Nat → Bool

/-- Free value: whether the environment reports an unrecoverable fault at draw number `n` (R110, R123).
DESIGN CHOICE of form, notes/assumptions/9; safe. -/
opaque Config.envFault : Nat → Bool

/-- The launch that `State.reset` stands for. `binding`, `loopback` and `envFaults` are the values R5 gives
("port unless stated", "false on hardware", false); the rest are open in the spec and named here: DESIGN CHOICE,
notes/assumptions/2, 4 and 5; unsafe for a statement that rests on them. -/
def Config.resetLaunch : Launch where
  binding := .port
  loopback := false
  envFaults := false
  validAddr := [⟨0x0000#16, 0xFFFF#16⟩]
  resetDir := 0x00#8
  resetOut := 0x00#8
  loopPin := 0
  loopSeq := { first := ⟨true, 0#32⟩, rest := [⟨true, 0#32⟩] }
  level0 := .high

end Sys2Proof
end

