-- ==== Sys2Proof/Machine/State.lean ====
section
/-!
DEFINITION. The state of the block (spec 10_state.md R10 to R27), the reasons a step can stop (60_exceptions.md R124,
20_memory.md R32), and the start state (R25, 70_reset_and_hazards.md R140, R141).
-/

namespace Sys2Proof.Machine

/-- The three hardware registers, by name (R11). -/
inductive Reg where
  /-- `DIR`, the direction register. -/
  | dir
  /-- `OUT`, the output-state register. -/
  | out
  /-- `IN`, the input-state register. -/
  | inp
deriving DecidableEq, Repr

/-- Why the block is halted (R21, R120). The unused codes 6 and 7 are not represented, as R120 allows. -/
inductive Cause where
  /-- Code 0, `NONE`: the block is running. -/
  | noCause
  /-- Code 1: a `halt` command (R112). -/
  | softwareHalt
  /-- Code 2: the collaborator's toggle failed (R121). -/
  | toggleFailed
  /-- Code 3: the fetched word spells no command (R122). -/
  | illegalCommand
  /-- Code 4: a fetch at `pc >= PROG_LEN` (R122). -/
  | fetchOutOfRange
  /-- Code 5: the environment reported an unrecoverable fault (R123). -/
  | envFault
deriving DecidableEq, Repr

/-- One event of the ghost trace (R24). -/
inductive Event where
  /-- `Rd(reg, addr, v)`: one hardware read. -/
  | rd (reg : Reg) (addr : Addr) (v : Byte)
  /-- `Wr(reg, addr, v)`: one hardware write. -/
  | wr (reg : Reg) (addr : Addr) (v : Byte)
  /-- `Delay(n)`: one completed busy-wait. -/
  | delay (n : Count)
  /-- `DelayMs(n)`: one completed block by the capability provider. -/
  | delayMs (n : Count)
  /-- `CapToggle(p, ok)`: one toggle invocation on the capability pin. -/
  | capToggle (p : Pin) (ok : Bool)
  /-- `Halt(cause)`: the block halted. -/
  | halt (cause : Cause)
deriving DecidableEq, Repr

/-- `RES`, the result register: the mark "unwritten" or a bit (R18). -/
inductive Res where
  | unwritten
  | written (b : Bool)
deriving DecidableEq, Repr

/-- One entry of `LVL`: {unset, LOW, HIGH} (R20). -/
inductive Remembered where
  | unset
  | commanded (l : Level)
deriving DecidableEq, Repr

/-- `BIND`, the Port binding (R10). -/
structure Bind where
  /-- `BOUND`. -/
  bound : Bool
  /-- `DIR_ADDR`. -/
  dirAddr : Addr
  /-- `OUT_ADDR`. -/
  outAddr : Addr
  /-- `IN_ADDR`. -/
  inAddr : Addr
deriving DecidableEq, Repr

/-- The environment's answers (the model's own fields, notes/assumptions/7 to 9): the answers it is still to give,
next first, to reads of `IN` (R23), to capability toggles (R95) and to the fault question (R110). When a queue is
empty the answer is the free value of Config at `draws`, which every such draw advances. -/
structure Env where
  inputs : List Byte
  toggles : List Bool
  faults : List Bool
  draws : Nat
deriving DecidableEq, Repr

/-- The whole state. `IN` and `PAD` are not stored (R14, R17); `CNT` lives only inside one `delay` (R22). -/
structure State where
  /-- The launch parameters (R5, R27). -/
  cfg : Launch
  /-- `PROG`; `PROG_LEN` is its length (R30, R44). -/
  prog : List CmdWord
  /-- The environment's answers (R23, R136). -/
  env : Env
  /-- `BIND` (R10). -/
  bind : Bind
  /-- `DIR` (R12). -/
  dir : Byte
  /-- `OUT` (R13). -/
  out : Byte
  /-- `RES` (R18). -/
  res : Res
  /-- `pc` (R19). -/
  pc : Pc
  /-- `LVL[0]` to `LVL[7]` (R20). -/
  lvl : Vector Remembered 8
  /-- `HALTED` (R21). -/
  halted : Bool
  /-- `CAUSE` (R21). -/
  cause : Cause
  /-- `TRACE`, oldest event first (R24). -/
  trace : List Event
deriving DecidableEq, Repr

/-- Where the model stops with a fault. The spec's own faults are not here: they are taken, as next states with
`HALTED = 1` (R129). -/
inductive Fault where
  /-- Raised by `memRead` and `memWrite` at an address that is none of the three bound ones, or before the Port is
  constructed: R32 and R33 leave these accesses undefined. No command performs one (R39). Safe: the model stops. -/
  | unboundAccess
deriving DecidableEq, Repr

/-- The contract violations of R124, for which the spec gives no meaning. All are safe: the model stops. -/
inductive Refusal where
  /-- Raised by no arm of the present model: the name for a command without a meaning. Safe. -/
  | notModelled (mnemonic : String)
  /-- Raised by `set_pin_mode`, `set_pin_state`, `read_pin`, `toggle` when `pin > 7` (R70). Safe. -/
  | pinOutOfRange
  /-- Raised by the Port commands and `toggle` (port) when `BOUND = 0` (R72). Safe. -/
  | portNotConstructed
  /-- Raised by `construct` when `BOUND = 1` (R73). Safe. -/
  | secondConstruct
  /-- Raised by `construct` when an address is not in `VALID_ADDR` (R73). Safe. -/
  | invalidAddress
  /-- Raised by `construct` when two of the addresses are equal (R73). Safe. -/
  | overlappingAddresses
  /-- Raised by a command that does not belong to the integration in force (R124). Safe. -/
  | wrongBinding
  /-- Raised by `toggle` when `LVL[pin]` is unset (R95). Safe. -/
  | toggleBeforeDrive
  /-- Raised by `memWrite` at `IN_ADDR`; unreachable from any command (R33). Safe. -/
  | writeToInputRegister
deriving DecidableEq, Repr

/-- `LVL` at launch (R20, R25): all unset, but `LVL[LOOP_PIN] = LEVEL0` under the capability binding. -/
def launchLevels (cfg : Launch) : Vector Remembered 8 :=
  match cfg.binding with
  | .port => Vector.replicate 8 .unset
  | .capability => (Vector.replicate 8 .unset).set cfg.loopPin.val (.commanded cfg.level0) cfg.loopPin.isLt

/-- The start state of a launch (R25, R140, R141), for any parameters, program and environment. The address fields
of an unbound Port hold 0x0000 (the spec: no value until `construct`): DESIGN CHOICE, notes/assumptions/6; unsafe only
for a statement that reads them while `BOUND = 0`. -/
def State.launch (cfg : Launch) (prog : List CmdWord) (env : Env) : State where
  cfg := cfg
  prog := prog
  env := env
  bind := { bound := false, dirAddr := 0#16, outAddr := 0#16, inAddr := 0#16 }
  dir := cfg.resetDir
  out := cfg.resetOut
  res := .unwritten
  pc := 0#32
  lvl := launchLevels cfg
  halted := false
  cause := .noCause
  trace := []

/-- The environment that has scripted nothing: every answer is a free value of Config. -/
def Env.free : Env := { inputs := [], toggles := [], faults := [], draws := 0 }

/-- The machine right after reset: the launch of `Config.resetLaunch` with no program loaded (R140,
notes/assumptions/16). -/
def State.reset : State := State.launch Config.resetLaunch [] Env.free

end Sys2Proof.Machine
end

