-- ==== Sys2Proof/Machine/Flags.lean ====
section
/-!
DEFINITION. The status of the block: the remembered levels `LVL` (spec 10_state.md R20) and the cause codes (R21,
60_exceptions.md R120). The block has no condition codes (40_port_ops.md R78).
-/

namespace Sys2Proof.Machine

/-- HIGH for 1, LOW for 0 (R75). -/
def levelOfBit (b : Bool) : Level := if b then .high else .low

/-- 1 for HIGH, 0 for LOW (R95). -/
def bitOfLevel : Level → Bool
  | .low => false
  | .high => true

/-- `NOT` of a level (R7): HIGH and LOW swap. -/
def invert : Level → Level
  | .low => .high
  | .high => .low

/-- `LVL[p]` (R20). -/
def levelOf (s : State) (p : Pin) : Remembered := s.lvl.get p

/-- `LVL[p] <- l` (R20). -/
def writeLevel (p : Pin) (l : Level) (s : State) : State :=
  { s with lvl := s.lvl.set p.val (.commanded l) p.isLt }

/-- The 3-bit code `CAUSE` holds (R120). -/
def causeCode : Cause → BitVec 3
  | .noCause => 0#3
  | .softwareHalt => 1#3
  | .toggleFailed => 2#3
  | .illegalCommand => 3#3
  | .fetchOutOfRange => 4#3
  | .envFault => 5#3

end Sys2Proof.Machine
end

