-- ==== Sys2Proof/Machine/Operands.lean ====
section
/-!
DEFINITION. Operand forms (spec 40_port_ops.md R70, R71, R73, R78): the pin index and its singleton mask, the
one-bit update of a register value, the address conditions of `construct`, and the pad levels (10_state.md R17).
-/

namespace Sys2Proof.Machine

/-- The pin a `pin` operand names: `none` above 7, where `mask(pin)` has no value (R70). -/
def pinOf (b : Byte) : Option Pin :=
  if h : b.toNat < 8 then some ⟨b.toNat, h⟩ else none

/-- `mask(pin) = 1 << pin`, the singleton mask (R15, R70). -/
def mask (p : Pin) : Byte := 1#8 <<< p.val

/-- The new value of the read-modify-write (R71): OR with the singleton mask, or AND with its complement. -/
def withBit (old : Byte) (p : Pin) (set : Bool) : Byte :=
  if set then old ||| mask p else old &&& ~~~ (mask p)

/-- `(v & mask(pin)) != 0` (R76). -/
def testBit (v : Byte) (p : Pin) : Bool := v &&& mask p != 0#8

/-- Membership of an address in a set given by ranges. -/
def inRanges (rs : List AddrRange) (a : Addr) : Bool :=
  rs.any fun r => decide (r.lo ≤ a) && decide (a ≤ r.hi)

/-- `a ∈ VALID_ADDR` (R31, R37). -/
def validAddress (cfg : Launch) (a : Addr) : Bool := inRanges cfg.validAddr a

/-- The three addresses are pairwise distinct, which for one-byte registers is "non-overlapping" (R31). -/
def distinctAddrs (d o i : Addr) : Bool := d != o && d != i && o != i

/-- The line levels (R17): an output pin shows its bit of `out`, an input pin what the outside world puts there. -/
def padByte (dir out outside : Byte) : Byte := (out &&& dir) ||| (outside &&& ~~~ dir)

end Sys2Proof.Machine
end

