-- ==== Sys2Proof/Machine/Ops.lean ====
section
/-!
DEFINITION. The named operations over the state: sequencing of outcomes, the trace, the environment's draws, the access
primitives `MemRead` and `MemWrite` (spec 20_memory.md R32, R33), the read-modify-write (40_port_ops.md R71), the
Port precondition (R72), the fault entry (60_exceptions.md R129), and the fetch (43_control.md R110).
-/

namespace Sys2Proof.Machine

/-- The outcome of an operation that computes a value of type `α`. -/
abbrev Result (α : Type) := Host.Outcome α Fault Refusal

/-- Go on with `k` where `x` answered a value; stop as `x` stopped otherwise. -/
def andThen {α β : Type} (x : Result α) (k : α → Result β) : Result β :=
  match x with
  | .next a => k a
  | .fault r => .fault r
  | .refused r => .refused r

/-- `require c else refuse(reason)` (R7), then `k`. -/
def require {α : Type} (c : Bool) (reason : Refusal) (k : Result α) : Result α :=
  if c then k else .refused reason

/-! ## Register and trace updates -/

/-- `emit(e)` (R7, R24): the trace is only ever appended to. -/
def emit (e : Event) (s : State) : State := { s with trace := s.trace ++ [e] }

/-- `pc <- target` (R7). -/
def setPc (target : Pc) (s : State) : State := { s with pc := target }

/-- `pc <- pc + 1` (R7, R19). -/
def advance (s : State) : State := setPc (s.pc + 1#32) s

/-- `DIR <- v` (R12). -/
def writeDir (v : Byte) (s : State) : State := { s with dir := v }

/-- `OUT <- v` (R13). -/
def writeOut (v : Byte) (s : State) : State := { s with out := v }

/-- `RES <- b` (R18). -/
def writeRes (b : Bool) (s : State) : State := { s with res := .written b }

/-- `DIR_ADDR <- d ; OUT_ADDR <- o ; IN_ADDR <- i ; BOUND <- 1` (R73). -/
def bindPort (d o i : Addr) (s : State) : State :=
  { s with bind := { bound := true, dirAddr := d, outAddr := o, inAddr := i } }

/-- The environment after a draw. -/
def setEnv (e : Env) (s : State) : State := { s with env := e }

/-! ## Taking a fault (R129) -/

/-- `raise Fault(cause)`: record the halt, set `CAUSE` and `HALTED`, keep everything else; control goes nowhere.
There is no return from it (R131). -/
def raiseFault (c : Cause) (s : State) : State :=
  { emit (.halt c) s with cause := c, halted := true }

/-! ## The environment's draws (R7 `draw`) -/

/-- The environment's next raw byte for a read of `IN`: the next scripted answer, else a free value (R23). -/
def drawInput (s : State) : Byte × State :=
  match s.env.inputs with
  | v :: rest => (v, setEnv { s.env with inputs := rest } s)
  | [] => (Config.inputByte s.env.draws, setEnv { s.env with draws := s.env.draws + 1 } s)

/-- The collaborator's next toggle result (R95 `draw(bool)`). -/
def drawToggle (s : State) : Bool × State :=
  match s.env.toggles with
  | b :: rest => (b, setEnv { s.env with toggles := rest } s)
  | [] => (Config.toggleResult s.env.draws, setEnv { s.env with draws := s.env.draws + 1 } s)

/-- Whether the environment now reports an unrecoverable fault (R110 `draw(bool)`). -/
def drawFault (s : State) : Bool × State :=
  match s.env.faults with
  | b :: rest => (b, setEnv { s.env with faults := rest } s)
  | [] => (Config.envFault s.env.draws, setEnv { s.env with draws := s.env.draws + 1 } s)

/-- The byte `IN` shows when the environment's raw answer is `raw` (R23): the raw byte, but under `LOOPBACK` the
bits of output pins are those of `OUT`, with no latency (decision D5, notes/assumptions/10). -/
def inputShown (s : State) (raw : Byte) : Byte :=
  if s.cfg.loopback then padByte s.dir s.out raw else raw

/-- `PAD[p]` (R17), given the levels `outside` that the outside world puts on the lines it drives. -/
def pad (s : State) (outside : Byte) (p : Pin) : Level :=
  levelOfBit (testBit (padByte s.dir s.out outside) p)

/-! ## Hardware accesses (R32, R33) -/

/-- `MemRead(addr, 1)`: one 8-bit hardware read and its `Rd` event (R32). -/
def memRead (a : Addr) (s : State) : Result (Byte × State) :=
  if !s.bind.bound then .fault .unboundAccess
  else if a = s.bind.dirAddr then .next (s.dir, emit (.rd .dir a s.dir) s)
  else if a = s.bind.outAddr then .next (s.out, emit (.rd .out a s.out) s)
  else if a = s.bind.inAddr then
    let v := inputShown s (drawInput s).1
    .next (v, emit (.rd .inp a v) (drawInput s).2)
  else .fault .unboundAccess

/-- `MemWrite(addr, 1, v)`: one 8-bit hardware write and its `Wr` event (R33). -/
def memWrite (a : Addr) (v : Byte) (s : State) : Result State :=
  if !s.bind.bound then .fault .unboundAccess
  else if a = s.bind.dirAddr then .next (emit (.wr .dir a v) (writeDir v s))
  else if a = s.bind.outAddr then .next (emit (.wr .out a v) (writeOut v s))
  else if a = s.bind.inAddr then .refused .writeToInputRegister
  else .fault .unboundAccess

/-- The stored byte at an address of the register space, seen without an access: `DIR` and `OUT` at their bound
addresses; nothing else is stored (R14, R30). It is no command's operation; statements use it. -/
def storedByte (s : State) (a : Addr) : Option Byte :=
  if !s.bind.bound then none
  else if a = s.bind.dirAddr then some s.dir
  else if a = s.bind.outAddr then some s.out
  else none

/-- `rmw(addr, pin, set)`: exactly one read, then exactly one write (R71). -/
def rmw (a : Addr) (p : Pin) (set : Bool) (s : State) : Result State :=
  andThen (memRead a s) fun r => memWrite a (withBit r.1 p set) r.2

/-! ## Preconditions -/

/-- `require BINDING = b else refuse(WrongBinding)`. -/
def requireBinding {α : Type} (b : Binding) (s : State) (k : Result α) : Result α :=
  require (s.cfg.binding == b) .wrongBinding k

/-- `require BOUND = 1 else refuse(PortNotConstructed)` (R72). -/
def requireBound {α : Type} (s : State) (k : Result α) : Result α :=
  require s.bind.bound .portNotConstructed k

/-- `require pin <= 7 else refuse(PinOutOfRange)`, then go on with the pin (R70). -/
def requirePin {α : Type} (pin : Byte) (k : Pin → Result α) : Result α :=
  match pinOf pin with
  | none => .refused .pinOutOfRange
  | some p => k p

/-- The shared precondition of the Port commands, in its order: binding, bound, pin range (R72). -/
def requirePort {α : Type} (pin : Byte) (s : State) (k : Pin → Result α) : Result α :=
  requireBinding .port s (requireBound s (requirePin pin k))

/-- `require LVL[pin] != unset else refuse(ToggleBeforeDrive)`, then go on with the level (R95). -/
def requireLevel {α : Type} (p : Pin) (s : State) (k : Level → Result α) : Result α :=
  match levelOf s p with
  | .unset => .refused .toggleBeforeDrive
  | .commanded l => k l

/-! ## Fetch (R110) -/

/-- What the sequencer finds at a command boundary. -/
inductive Fetched where
  /-- `HALTED = 1`: there is no step. -/
  | idle
  /-- A fault is raised in this state before any command executes. -/
  | trap (c : Cause) (s : State)
  /-- The command at `pc` executes from this state. -/
  | command (i : Instr) (s : State)

/-- Fetch and decode at `pc` (R110, third line on): a fault past the end of the program or at an illegal word. -/
def fetchAt (s : State) : Fetched :=
  match s.prog[s.pc.toNat]? with
  | none => .trap .fetchOutOfRange s
  | some w =>
    match decode w with
    | .invalid _ => .trap .illegalCommand s
    | .command i => .command i s

/-- The tests of R110 in their order (R128): halted, environment fault, then the fetch. -/
def fetch (s : State) : Fetched :=
  if s.halted then .idle
  else if s.cfg.envFaults then
    if (drawFault s).1 then .trap .envFault (drawFault s).2 else fetchAt (drawFault s).2
  else fetchAt s

/-! ## Loading a program word from outside (notes/assumptions/16, 17) -/

/-- `ws` with `w` at index `n`, illegal all-zero words (R61) filling any gap before it. -/
def putWord (ws : List CmdWord) (n : Nat) (w : CmdWord) : List CmdWord :=
  if n < ws.length then ws.set n w else ws ++ List.replicate (n - ws.length) 0#64 ++ [w]

/-- The environment raises no fault at the next command boundary. -/
def withNoFault (s : State) : State :=
  if s.cfg.envFaults then setEnv { s.env with faults := false :: s.env.faults } s else s

end Sys2Proof.Machine
end

