-- ==== Sys2Proof/Machine/Control.lean ====
section
/-!
DEFINITION. The sequencing commands (spec 43_control.md R111, R112).
-/

namespace Sys2Proof.Machine

/-- `jump target` (R111): an absolute command index, under both bindings; an out-of-range target faults at the next
step. -/
def execJump (target : Pc) (s : State) : Result State := .next (setPc target s)

/-- `halt` (R112): the fault entry with cause `SOFTWARE_HALT`; `pc` stays at the command. -/
def execHalt (s : State) : Result State := .next (raiseFault .softwareHalt s)

end Sys2Proof.Machine
end

