-- ==== Sys2Proof/Machine/Delay.lean ====
section
/-!
DEFINITION. The delay commands (spec 41_delay.md R86, R90). `CNT` is local to the counted loop and dead when `delay`
returns (10_state.md R22, 90_conflicts.md C5).
-/

namespace Sys2Proof.Machine

/-- The loop of R86 from `CNT = cnt`, cut off after `fuel` iterations: the iterations made and the final `CNT`.
`while CNT < count: CNT <- CNT + 1` (R92). -/
def countedLoop (count : Count) : (fuel : Nat) → (cnt : Count) → Nat × Count
  | 0, cnt => (0, cnt)
  | fuel + 1, cnt =>
    if cnt < count then
      ((countedLoop count fuel (cnt + 1#32)).1 + 1, (countedLoop count fuel (cnt + 1#32)).2)
    else (0, cnt)

/-- `iterations(count) = count` (R88), the closed form of `countedLoop count _ 0` that the one-step reading of `delay`
uses (R86: "A model may take the whole command as one step"). -/
def iterations (count : Count) : Count := count

/-- `delay count` (R86): `count` counted iterations, then the event; needs no constructed Port. -/
def execDelay (count : Count) (s : State) : Result State :=
  requireBinding .port s <| .next (advance (emit (.delay (iterations count)) s))

/-- `delay_ms count` (R90): one block of the provider, which always returns (decision D20, notes/assumptions/21). -/
def execDelayMs (count : Count) (s : State) : Result State :=
  requireBinding .capability s <| .next (advance (emit (.delayMs count) s))

end Sys2Proof.Machine
end

