-- ==== Sys2Proof/Machine/Port.lean ====
section
/-!
DEFINITION. The four Register Port commands (spec 40_port_ops.md R73 to R76).
-/

namespace Sys2Proof.Machine

/-- `construct daddr, oaddr, iaddr` (R73): the four conditions in their order, then the binding; no access, no event. -/
def execConstruct (d o i : Addr) (s : State) : Result State :=
  requireBinding .port s <|
    require (!s.bind.bound) .secondConstruct <|
      require (validAddress s.cfg d && validAddress s.cfg o && validAddress s.cfg i) .invalidAddress <|
        require (distinctAddrs d o i) .overlappingAddresses <|
          .next (advance (bindPort d o i s))

/-- `set_pin_mode pin, is_output` (R74): a read-modify-write of `DIR`. -/
def execSetPinMode (pin : Byte) (isOutput : Bool) (s : State) : Result State :=
  requirePort pin s fun p =>
    andThen (rmw s.bind.dirAddr p isOutput s) fun t => .next (advance t)

/-- `set_pin_state pin, is_high` (R75): a read-modify-write of `OUT`, whatever the pin's direction; the commanded
level is remembered. -/
def execSetPinState (pin : Byte) (isHigh : Bool) (s : State) : Result State :=
  requirePort pin s fun p =>
    andThen (rmw s.bind.outAddr p isHigh s) fun t => .next (advance (writeLevel p (levelOfBit isHigh) t))

/-- `read_pin pin` (R76): one read of `IN`, its bit into `RES`. -/
def execReadPin (pin : Byte) (s : State) : Result State :=
  requirePort pin s fun p =>
    andThen (memRead s.bind.inAddr s) fun r => .next (advance (writeRes (testBit r.1 p) r.2))

end Sys2Proof.Machine
end

