-- ==== Sys2Proof/Machine/Toggle.lean ====
section
/-!
DEFINITION. The toggle command (spec 42_toggle_loop.md R95).
-/

namespace Sys2Proof.Machine

/-- `toggle pin` under the port binding: `rmw` on `OUT` with the negated remembered level (decision D10,
notes/assumptions/22). -/
def togglePort (pin : Byte) (s : State) : Result State :=
  requireBound s <| requirePin pin fun p => requireLevel p s fun l =>
    andThen (rmw s.bind.outAddr p (bitOfLevel (invert l)) s) fun t =>
      .next (advance (writeLevel p (invert l) t))

/-- `toggle pin` under the capability binding: the collaborator's result is drawn and recorded; a failure is fatal and
changes nothing but the trace (R121). -/
def toggleCapability (pin : Byte) (s : State) : Result State :=
  requirePin pin fun p => requireLevel p s fun l =>
    let t := emit (.capToggle p (drawToggle s).1) (drawToggle s).2
    if (drawToggle s).1 then .next (advance (writeLevel p (invert l) t))
    else .next (raiseFault .toggleFailed t)

/-- `toggle pin` (R95). -/
def execToggle (pin : Byte) (s : State) : Result State :=
  match s.cfg.binding with
  | .port => togglePort pin s
  | .capability => toggleCapability pin s

end Sys2Proof.Machine
end

