-- ==== Sys2Proof/Machine/Dispatch.lean ====
section
/-!
DEFINITION. What each command does: one arm per constructor of `Instr`, each one call of the command's meaning.
-/

namespace Sys2Proof.Machine

def exec (i : Instr) (s : State) : Host.Outcome State Fault Refusal :=
  match i with
  | .construct d o n => Sys2Proof.Machine.execConstruct d o n s
  | .setPinMode p b => Sys2Proof.Machine.execSetPinMode p b s
  | .setPinState p b => Sys2Proof.Machine.execSetPinState p b s
  | .readPin p => Sys2Proof.Machine.execReadPin p s
  | .delay n => Sys2Proof.Machine.execDelay n s
  | .delayMs n => Sys2Proof.Machine.execDelayMs n s
  | .toggle p => Sys2Proof.Machine.execToggle p s
  | .jump t => Sys2Proof.Machine.execJump t s
  | .halt => Sys2Proof.Machine.execHalt s

end Sys2Proof.Machine
end

