-- ==== Sys2Proof/Machine/Step.lean ====
section
/-!
DEFINITION. One step of the sequencer (spec 43_control.md R110) and the placing of one command word where the next
fetch finds it.
-/

namespace Sys2Proof.Machine

/-- One step (R110): a halted block stays as it is for ever (R21, notes/assumptions/13); a fault found at the command
boundary is taken; otherwise the command at `pc` executes. -/
def step (s : State) : Host.Outcome State Fault Refusal :=
  match fetch s with
  | .idle => .next s
  | .trap c t => .next (raiseFault c t)
  | .command i t => exec i t

/-- `s` with the opcode-table word `w` (its low `nbits` bits) placed at `pc` as the next command to fetch: the program
is loaded from outside (notes/assumptions/16), and the block is running and not struck by an environment fault
(notes/assumptions/17). -/
def State.withFetchWord (s : State) (nbits w : Nat) : State :=
  withNoFault { s with prog := putWord s.prog s.pc.toNat (BitVec.ofNat 64 (w % 2 ^ nbits)),
                       halted := false, cause := .noCause }

end Sys2Proof.Machine
end

