-- ==== Sys2Proof/Machine/Loop.lean ====
section
/-!
DEFINITION. The Timed Toggle Loop as command sequences (spec 42_toggle_loop.md R97 to R104, 30_encoding.md R64), and the
execution of a sequence of commands one after another.
-/

namespace Sys2Proof.Machine

/-- The `pin` operand that names a legal pin. -/
def pinOperand (p : Pin) : Byte := BitVec.ofNat 8 p.val

/-- The initial sequence `loop_init p` (R98): output first, then HIGH. -/
def loopInit (p : Byte) : List Instr := [.setPinMode p true, .setPinState p true]

/-- The hold of the binding in force: the counted delay, or the provider's milliseconds (R102, R104). -/
def holdCommand (b : Binding) (n : Count) : Instr :=
  match b with
  | .port => .delay n
  | .capability => .delayMs n

/-- One pair of `LOOP_SEQ` (R102): a `toggle` when its transition bit is 1, then its hold, of whatever length. -/
def pairCommands (b : Binding) (p : Byte) (st : LoopStep) : List Instr :=
  (if st.transition then [.toggle p] else []) ++ [holdCommand b st.hold]

/-- The loop's body for a configuration, without its `jump` (R102, R104). -/
def loopBody (b : Binding) (p : Byte) (seq : LoopSeq) : List Instr :=
  seq.steps.flatMap (pairCommands b p)

/-- `LOOP_SEQ` of the uniform variant (R100). -/
def uniformSeq (d : Count) : LoopSeq := { first := ⟨true, d⟩, rest := [⟨true, d⟩] }

/-- `LOOP_SEQ` of the patterned variant, four short holds and one long one (R101, 90_conflicts.md C1). -/
def patternedSeq (s l : Count) : LoopSeq :=
  { first := ⟨true, s⟩, rest := [⟨true, s⟩, ⟨true, s⟩, ⟨true, s⟩, ⟨false, l⟩] }

/-- `loop_uniform p, d` placed at command index `here` (R100). -/
def loopUniform (b : Binding) (p : Byte) (d : Count) (here : Pc) : List Instr :=
  loopBody b p (uniformSeq d) ++ [.jump here]

/-- `loop_patterned p, s, l` placed at command index `here` (R101). -/
def loopPatterned (b : Binding) (p : Byte) (s l : Count) (here : Pc) : List Instr :=
  loopBody b p (patternedSeq s l) ++ [.jump here]

/-- The loop's whole command sequence for a launch (R102; R104 under the capability binding, which has neither
`construct` nor an initial sequence). -/
def loopCommands (cfg : Launch) (d o i : Addr) : List Instr :=
  match cfg.binding with
  | .port =>
    .construct d o i :: (loopInit (pinOperand cfg.loopPin) ++
      (loopBody .port (pinOperand cfg.loopPin) cfg.loopSeq ++ [.jump 3#32]))
  | .capability => loopBody .capability (pinOperand cfg.loopPin) cfg.loopSeq ++ [.jump 0#32]

/-- Execute commands one after another, each finishing before the next (R40, R110). -/
def execSeq : List Instr → State → Result State
  | [], s => .next s
  | i :: is, s => andThen (exec i s) (execSeq is)

end Sys2Proof.Machine
end

