-- ==== Sys2Proof/WellFormed.lean ====
section
/-!
DEFINITION. Well-formedness of commands and programs: the eight named checks of spec 30_encoding.md R66. A model of
an ill-formed program still runs and meets the refusal or the fault there; the checks are premises for claims.
-/

namespace Sys2Proof

/-- The command's pin operand, where it has one, is at most 7 (`WF_PIN_RANGE`). -/
def Instr.wf : Instr → Bool
  | .construct _ _ _ => true
  | .setPinMode p _ => decide (p.toNat ≤ 7)
  | .setPinState p _ => decide (p.toNat ≤ 7)
  | .readPin p => decide (p.toNat ≤ 7)
  | .delay _ => true
  | .delayMs _ => true
  | .toggle p => decide (p.toNat ≤ 7)
  | .jump _ => true
  | .halt => true

/-- The last column of R60: the bindings that admit the command (`WF_BINDING`). -/
def Instr.admittedBy : Instr → Binding → Bool
  | .construct _ _ _, b => b == .port
  | .setPinMode _ _, b => b == .port
  | .setPinState _ _, b => b == .port
  | .readPin _, b => b == .port
  | .delay _, b => b == .port
  | .delayMs _, b => b == .capability
  | .toggle _, _ => true
  | .jump _, _ => true
  | .halt, _ => true

/-- The command is a `construct`. -/
def Instr.isConstruct : Instr → Bool
  | .construct _ _ _ => true
  | .setPinMode _ _ => false
  | .setPinState _ _ => false
  | .readPin _ => false
  | .delay _ => false
  | .delayMs _ => false
  | .toggle _ => false
  | .jump _ => false
  | .halt => false

/-- `WF_ADDR` for one command: the addresses of a `construct` are valid and pairwise distinct. -/
def Instr.addrWf (cfg : Launch) : Instr → Bool
  | .construct d o i =>
    Machine.validAddress cfg d && Machine.validAddress cfg o && Machine.validAddress cfg i &&
      Machine.distinctAddrs d o i
  | .setPinMode _ _ => true
  | .setPinState _ _ => true
  | .readPin _ => true
  | .delay _ => true
  | .delayMs _ => true
  | .toggle _ => true
  | .jump _ => true
  | .halt => true

/-- `WF_JUMP_TARGET` for one command. -/
def Instr.targetWf (len : Nat) : Instr → Bool
  | .construct _ _ _ => true
  | .setPinMode _ _ => true
  | .setPinState _ _ => true
  | .readPin _ => true
  | .delay _ => true
  | .delayMs _ => true
  | .toggle _ => true
  | .jump t => decide (t.toNat < len)
  | .halt => true

/-- Under the capability binding, a `toggle` names `LOOP_PIN` (`WF_TOGGLE_AFTER_DRIVE`, second half). -/
def Instr.togglesOnly (p : Pin) : Instr → Bool
  | .construct _ _ _ => true
  | .setPinMode _ _ => true
  | .setPinState _ _ => true
  | .readPin _ => true
  | .delay _ => true
  | .delayMs _ => true
  | .toggle q => decide (q.toNat = p.val)
  | .jump _ => true
  | .halt => true

/-- The word decodes to a command that passes the check. -/
def wordPasses (check : Instr → Bool) (w : CmdWord) : Bool :=
  match decode w with
  | .command i => check i
  | .invalid _ => true

/-- Follow the commands from index `at_` in execution order, the order being unique because `jump` is unconditional
(R66 `WF_TOGGLE_AFTER_DRIVE`): every `toggle p` reached is reached after some `set_pin_state p`. The pins driven so
far only grow, so the first `PROG_LEN` commands of the path decide the whole path (notes/assumptions/27). -/
def togglesDriven (prog : List CmdWord) : (fuel at_ : Nat) → (driven : List Byte) → Bool
  | 0, _, _ => true
  | fuel + 1, at_, driven =>
    match prog[at_]? with
    | none => true
    | some w =>
      match decode w with
      | .invalid _ => true
      | .command i =>
        match i with
        | .construct _ _ _ => togglesDriven prog fuel (at_ + 1) driven
        | .setPinMode _ _ => togglesDriven prog fuel (at_ + 1) driven
        | .setPinState p _ => togglesDriven prog fuel (at_ + 1) (p :: driven)
        | .readPin _ => togglesDriven prog fuel (at_ + 1) driven
        | .delay _ => togglesDriven prog fuel (at_ + 1) driven
        | .delayMs _ => togglesDriven prog fuel (at_ + 1) driven
        | .toggle p => driven.contains p && togglesDriven prog fuel (at_ + 1) driven
        | .jump t => togglesDriven prog fuel t.toNat driven
        | .halt => true

/-- The eight checks of R66, by name. -/
inductive Check where
  | len
  | decodes
  | binding
  | constructFirst
  | addr
  | pinRange
  | jumpTarget
  | toggleAfterDrive
deriving DecidableEq, Repr

/-- What each check of R66 asks of a program under a launch. -/
def Check.holds (cfg : Launch) (prog : List CmdWord) : Check → Bool
  | .len => decide (1 ≤ prog.length) && decide (prog.length ≤ 2 ^ 32 - 1)
  | .decodes => prog.all fun w => match decode w with
    | .command _ => true
    | .invalid _ => false
  | .binding => prog.all (wordPasses fun i => i.admittedBy cfg.binding)
  | .constructFirst =>
    match cfg.binding with
    | .capability => true
    | .port =>
      (match prog with
        | [] => false
        | w :: rest =>
          (match decode w with
            | .command i => i.isConstruct
            | .invalid _ => false) &&
          rest.all (wordPasses fun i => !i.isConstruct))
  | .addr => prog.all (wordPasses (Instr.addrWf cfg))
  | .pinRange => prog.all (wordPasses Instr.wf)
  | .jumpTarget => prog.all (wordPasses (Instr.targetWf prog.length))
  | .toggleAfterDrive =>
    match cfg.binding with
    | .port => togglesDriven prog prog.length 0 []
    | .capability => prog.all (wordPasses (Instr.togglesOnly cfg.loopPin))

/-- Every check, in R66's order. -/
def Check.all : List Check :=
  [.len, .decodes, .binding, .constructFirst, .addr, .pinRange, .jumpTarget, .toggleAfterDrive]

/-- `PROG` is well formed (R66). -/
def wellFormed (cfg : Launch) (prog : List CmdWord) : Bool := Check.all.all (Check.holds cfg prog)

end Sys2Proof
end

