-- ==== Sys2Proof/Safety.lean ====
section
/-!
DEFINITION. The terms in which claims speak: the launch premises (spec 70_reset_and_hazards.md R142), the end of a run
(43_control.md R113), the register accesses of a trace (10_state.md R16), the conditions of the refusals (60_exceptions.md R124), and the invariants the rules give the state
(R10, R20, R21, R24, 20_memory.md R31, R39, R45, R47).
-/

namespace Sys2Proof.Machine

/-! ## Launch premises (R142) -/

/-- `NoFaultAtLaunch`. -/
def State.NoFault (s : State) : Prop := s.halted = false ∧ s.cause = .noCause

/-- `UnboundAtLaunch`. -/
def State.Unbound (s : State) : Prop := s.bind.bound = false

/-- `TraceEmptyAtLaunch`. -/
def State.TraceEmpty (s : State) : Prop := s.trace = []

/-- `RegsZeroAtLaunch`: the start of the source's test doubles (R26, R46). -/
def RegsZeroAtLaunch (cfg : Launch) : Prop := cfg.resetDir = 0x00#8 ∧ cfg.resetOut = 0x00#8

/-- `Loopback`. -/
def Loopback (cfg : Launch) : Prop := cfg.loopback = true

/-- `NoEnvFaults`. -/
def NoEnvFaults (cfg : Launch) : Prop := cfg.envFaults = false

/-- `NoToggleFailure`: under the capability binding, every draw of a toggle result is success, the scripted ones and
the free ones still to come; under the port binding, nothing. -/
def NoToggleFailure (cfg : Launch) (e : Env) : Prop :=
  cfg.binding = .capability →
    (∀ ok ∈ e.toggles, ok = true) ∧ ∀ n, e.draws ≤ n → Config.toggleResult n = true

/-- `WellFormed`: the program passes every check of R66. -/
def WellFormed (cfg : Launch) (prog : List CmdWord) : Prop := wellFormed cfg prog = true

/-- The test-double launch of R46: zeroed registers, read through the loopback harness. -/
def TestDouble (cfg : Launch) : Prop := RegsZeroAtLaunch cfg ∧ Loopback cfg

/-! ## The end of a run (R113) -/

/-- The run has ended: the first state with `HALTED = 1` and every one after it. -/
def State.Ended (s : State) : Prop := s.halted = true

/-- The run ended as the program intended: an explicit `halt`. -/
def State.Final (s : State) : Prop := s.halted = true ∧ s.cause = .softwareHalt

/-- The run ended in a fault: quiescent, not final. -/
def State.Faulted (s : State) : Prop := s.halted = true ∧ s.cause ≠ .softwareHalt

/-- `k` steps one after another, stopping where a step is refused. -/
def runFor : (k : Nat) → State → Result State
  | 0, s => .next s
  | k + 1, s => andThen (step s) (runFor k)

/-! ## When the Port commands execute -/

/-- The three bound addresses are pairwise distinct (R31). -/
def Bind.Separate (b : Bind) : Prop :=
  b.dirAddr ≠ b.outAddr ∧ b.dirAddr ≠ b.inAddr ∧ b.outAddr ≠ b.inAddr

/-- The precondition of R72, with the separation of the addresses that `State.Inv` rules in. -/
def State.PortReady (s : State) : Prop :=
  s.cfg.binding = .port ∧ s.bind.bound = true ∧ s.bind.Separate

/-! ## Reading a trace -/

/-- The register access an event records, if it is one: whether it is a write, and of which register (R16). -/
def accessOf : Event → Option (Bool × Reg)
  | .rd r _ _ => some (false, r)
  | .wr r _ _ => some (true, r)
  | .delay _ => none
  | .delayMs _ => none
  | .capToggle _ _ => none
  | .halt _ => none

/-- The register accesses of a trace, in order. -/
def accesses (es : List Event) : List (Bool × Reg) := es.filterMap accessOf

/-- The value of the most recent write to `r` in a trace, or `start` when there has been none (R47). -/
def lastWrite (r : Reg) (start : Byte) : List Event → Byte
  | [] => start
  | .wr r' _ v :: es => if r' = r then lastWrite r v es else lastWrite r start es
  | .rd _ _ _ :: es => lastWrite r start es
  | .delay _ :: es => lastWrite r start es
  | .delayMs _ :: es => lastWrite r start es
  | .capToggle _ _ :: es => lastWrite r start es
  | .halt _ :: es => lastWrite r start es

/-- The address at which a register is bound (R11). -/
def addrOf (b : Bind) : Reg → Addr
  | .dir => b.dirAddr
  | .out => b.outAddr
  | .inp => b.inAddr

/-- An access event is at the register's own bound address, and never a write of `IN` (R14, R39). -/
def eventInPlace (b : Bind) : Event → Prop
  | .rd r a _ => b.bound = true ∧ a = addrOf b r
  | .wr r a _ => b.bound = true ∧ a = addrOf b r ∧ r ≠ .inp
  | .delay _ => True
  | .delayMs _ => True
  | .capToggle _ _ => True
  | .halt _ => True

/-- The event is a `Halt`. -/
def isHalt : Event → Bool
  | .rd _ _ _ => false
  | .wr _ _ _ => false
  | .delay _ => false
  | .delayMs _ => false
  | .capToggle _ _ => false
  | .halt _ => true

/-! ## Invariants -/

/-- The binding holds valid, pairwise distinct addresses once constructed (R10, R31, R73). -/
def State.BindInv (s : State) : Prop :=
  s.bind.bound = true →
    s.bind.Separate ∧ ∀ r, validAddress s.cfg (addrOf s.bind r) = true

/-- The port binding before `construct` has commanded no level (R20, R72, R144). -/
def State.UnboundInv (s : State) : Prop :=
  s.cfg.binding = .port → s.bind.bound = false → ∀ p, levelOf s p = .unset

/-- Under the capability binding there is no Port, and exactly `LVL[LOOP_PIN]` is set (R20, R73, R104). -/
def State.CapabilityInv (s : State) : Prop :=
  s.cfg.binding = .capability →
    s.bind.bound = false ∧ ∀ p, levelOf s p = .unset ↔ p ≠ s.cfg.loopPin

/-- Under the port binding a remembered level mirrors its bit of `OUT` (R20, R153). -/
def State.LevelInv (s : State) : Prop :=
  s.cfg.binding = .port → ∀ p l, levelOf s p = .commanded l → s.out.getLsbD p.val = bitOfLevel l

/-- `CAUSE` is 0 exactly while `HALTED = 0` (R21). -/
def State.CauseInv (s : State) : Prop := s.halted = false ↔ s.cause = .noCause

/-- Every access in the trace was at a bound address of its register (R16, R39). -/
def State.TraceInv (s : State) : Prop := ∀ e ∈ s.trace, eventInPlace s.bind e

/-- `DIR` and `OUT` hold their most recent write, or their start value (R47). -/
def State.ReadBackInv (s : State) : Prop :=
  s.dir = lastWrite .dir s.cfg.resetDir s.trace ∧ s.out = lastWrite .out s.cfg.resetOut s.trace

/-- A running block's trace holds no `Halt`; a halted one's holds exactly one, at its end, with `CAUSE` (R21, R129). -/
def State.HaltInv (s : State) : Prop :=
  (s.halted = false → ∀ e ∈ s.trace, isHalt e = false) ∧
  (s.halted = true → ∃ before, s.trace = before ++ [.halt s.cause] ∧ ∀ e ∈ before, isHalt e = false)

/-- What the rules say of the state at every command boundary. -/
structure State.Inv (s : State) : Prop where
  bind : s.BindInv
  unbound : s.UnboundInv
  capability : s.CapabilityInv
  level : s.LevelInv
  cause : s.CauseInv
  trace : s.TraceInv
  readBack : s.ReadBackInv
  halt : s.HaltInv

/-! ## Refusals (R124) -/

/-- The condition of the table of R124 under which a command is refused for a reason. No command meets
the condition of `WriteToInputRegister`, which is `MemWrite`'s alone, and no command is without a meaning. -/
def contractBroken (s : State) (i : Instr) : Refusal → Prop
  | .pinOutOfRange => i.wf = false
  | .portNotConstructed => s.bind.bound = false ∧
      ((∃ p b, i = .setPinMode p b) ∨ (∃ p b, i = .setPinState p b) ∨ (∃ p, i = .readPin p) ∨
        ((∃ p, i = .toggle p) ∧ s.cfg.binding = .port))
  | .secondConstruct => s.bind.bound = true ∧ ∃ d o n, i = .construct d o n
  | .invalidAddress => ∃ d o n, i = .construct d o n ∧
      (validAddress s.cfg d = false ∨ validAddress s.cfg o = false ∨ validAddress s.cfg n = false)
  | .overlappingAddresses => ∃ d o n, i = .construct d o n ∧ (d = o ∨ d = n ∨ o = n)
  | .wrongBinding => i.admittedBy s.cfg.binding = false
  | .toggleBeforeDrive => ∃ p, i = .toggle p ∧ ∃ q : Pin, p.toNat = q.val ∧ levelOf s q = .unset
  | _ => False

/-! ## Well-formed programs at work (R66) -/

/-- A running block on the path of a well-formed program: `pc` at most `PROG_LEN`; the Port constructed once `pc` has
left 0; and, from here on, no `toggle` before the drive of its pin, counting the pins whose level is remembered
already. -/
structure State.OnPath (s : State) : Prop where
  wf : WellFormed s.cfg s.prog
  running : s.NoFault
  inside : s.pc.toNat ≤ s.prog.length
  bound : s.cfg.binding = .port → s.pc ≠ 0#32 → s.bind.bound = true
  driven : s.cfg.binding = .port → ∃ pins : List Byte,
    (∀ p : Pin, pinOperand p ∈ pins → levelOf s p ≠ .unset) ∧
    ∀ fuel, togglesDriven s.prog fuel s.pc.toNat pins = true
  level : s.cfg.binding = .capability → levelOf s s.cfg.loopPin ≠ .unset

/-- What a well-formed program keeps: it is on its path, or has ended with no ILLEGAL_COMMAND, and with
FETCH_OUT_OF_RANGE only just past its last command. -/
def State.InContract (s : State) : Prop :=
  s.OnPath ∨
    (s.Ended ∧ s.cause ≠ .noCause ∧ s.cause ≠ .illegalCommand ∧
      (s.cause = .fetchOutOfRange → s.pc.toNat = s.prog.length))

/-! ## The Timed Toggle Loop at work (R102 to R104) -/

/-- The running block is at some command of the loop's command sequence for its launch (R102, R104), with the level
commanded: under the port binding, bound to `d`, `o`, `i`, once the initial sequence is over. -/
structure State.InLoop (s : State) (d o i : Addr) : Prop where
  running : s.halted = false
  valid : s.cfg.binding = .port →
    (validAddress s.cfg d = true ∧ validAddress s.cfg o = true ∧ validAddress s.cfg i = true) ∧
    (d ≠ o ∧ d ≠ i ∧ o ≠ i)
  prog : s.prog = (loopCommands s.cfg d o i).map encode
  short : s.prog.length ≤ 2 ^ 32 - 1
  inside : s.pc.toNat < s.prog.length
  unbound : (s.cfg.binding = .port → s.pc = 0#32) → s.bind.bound = false
  bound : s.cfg.binding = .port → s.pc ≠ 0#32 → s.bind = { bound := true, dirAddr := d, outAddr := o, inAddr := i }
  driven : (s.cfg.binding = .port → 3 ≤ s.pc.toNat) → levelOf s s.cfg.loopPin ≠ .unset

end Sys2Proof.Machine
end

