-- ==== Sys2Proof/Certificates/Slice0/Obligations.lean ====
section
/-!
DEFINITION. The statements for the provers, each about the machine for every state, launch and operand. A state carries
its launch parameters and its environment (notes/assumptions/1, 7 to 9), so each statement speaks of every launch and
every environment. `s.bind.Separate` is the part of `State.Inv` that the addresses are pairwise distinct (R31).
-/

open Sys2Proof Sys2Proof.Machine

/-! ## Encoding -/

/-- R65: the decoding function is total and takes the row of its opcode, and `encode` is its inverse: for every command,
with every operand at every value of its field, and for every word that does not decode to `invalid`. -/
def Obligations.DecodeAndEncodeAgree : Prop :=
  (∀ i : Instr, decode (encode i) = .command i) ∧
  (∀ (w : CmdWord) (i : Instr), decode w = .command i → encode i = w) ∧
  (∀ w : CmdWord, (∀ r ∈ rows, r.op ≠ opField w) → decode w = .invalid .undefinedOpcode) ∧
  (∀ (w : CmdWord) (r : Row), r ∈ rows → r.op = opField w →
    decode w = if w &&& r.mask = r.bits then .command (r.read w) else .invalid .mustBeZeroBitSet)

/-- R60: a word spells a row's command exactly when `w & mask = match`, row by row, and is illegal when it matches none;
the last column: a command is refused as of the wrong binding exactly where its row does not admit the binding. -/
def Obligations.CommandWordsMatchTheirRow : Prop :=
  (∀ (i : Instr) (s : State), exec i s = .refused .wrongBinding ↔
    (s.cfg.binding = .capability ∧ ((∃ d o n, i = .construct d o n) ∨ (∃ p b, i = .setPinMode p b) ∨
      (∃ p b, i = .setPinState p b) ∨ (∃ p, i = .readPin p) ∨ ∃ n, i = .delay n)) ∨
    (s.cfg.binding = .port ∧ ∃ n, i = .delayMs n)) ∧
  ∀ w : CmdWord,
    ((∃ why, decode w = .invalid why) ↔ ∀ r ∈ rows, w &&& r.mask ≠ r.bits) ∧
    ((∃ d o i, decode w = .command (.construct d o i)) ↔
      w &&& 0xFFFF000000000000#64 = 0x0100000000000000#64) ∧
    ((∃ p v, decode w = .command (.setPinMode p v)) ↔
      w &&& 0xFFFFFFFFFFFF00FE#64 = 0x0200000000000000#64) ∧
    ((∃ p v, decode w = .command (.setPinState p v)) ↔
      w &&& 0xFFFFFFFFFFFF00FE#64 = 0x0300000000000000#64) ∧
    ((∃ p, decode w = .command (.readPin p)) ↔
      w &&& 0xFFFFFFFFFFFF00FF#64 = 0x0400000000000000#64) ∧
    ((∃ n, decode w = .command (.delay n)) ↔
      w &&& 0xFFFFFFFF00000000#64 = 0x0500000000000000#64) ∧
    ((∃ n, decode w = .command (.delayMs n)) ↔
      w &&& 0xFFFFFFFF00000000#64 = 0x0600000000000000#64) ∧
    ((∃ p, decode w = .command (.toggle p)) ↔
      w &&& 0xFFFFFFFFFFFF00FF#64 = 0x0700000000000000#64) ∧
    ((∃ t, decode w = .command (.jump t)) ↔
      w &&& 0xFFFFFFFF00000000#64 = 0x0800000000000000#64) ∧
    (decode w = .command .halt ↔
      w &&& 0xFFFFFFFFFFFFFFFF#64 = 0x0900000000000000#64)

/-- R61: the illegal words are those with opcode 0x00 or above 0x09 and those with a must-be-zero bit set; the all-zero
and the all-ones word are among them; executing one raises ILLEGAL_COMMAND; a pin above 7 is not illegal: the word
decodes and its execution is refused. -/
def Obligations.IllegalWordsAreExactlyThese : Prop :=
  (∀ w : CmdWord, (∃ why, decode w = .invalid why) ↔
    (opField w = 0x00#8 ∨ 0x0A#8 ≤ opField w ∨
      (opField w = 0x01#8 ∧ w &&& 0x00FF000000000000#64 ≠ 0#64) ∨
      ((opField w = 0x02#8 ∨ opField w = 0x03#8) ∧ w &&& 0x00FFFFFFFFFF00FE#64 ≠ 0#64) ∨
      ((opField w = 0x04#8 ∨ opField w = 0x07#8) ∧ w &&& 0x00FFFFFFFFFF00FF#64 ≠ 0#64) ∨
      ((opField w = 0x05#8 ∨ opField w = 0x06#8 ∨ opField w = 0x08#8) ∧
        w &&& 0x00FFFFFF00000000#64 ≠ 0#64) ∨
      (opField w = 0x09#8 ∧ w &&& 0x00FFFFFFFFFFFFFF#64 ≠ 0#64))) ∧
  (∃ why, decode 0x0000000000000000#64 = .invalid why) ∧
  (∃ why, decode 0xFFFFFFFFFFFFFFFF#64 = .invalid why) ∧
  (∀ (s : State) (w : CmdWord) (why : Invalid), s.halted = false → s.cfg.envFaults = false →
    s.prog[s.pc.toNat]? = some w → decode w = .invalid why →
    step s = .next { s with trace := s.trace ++ [.halt .illegalCommand], cause := .illegalCommand,
                            halted := true }) ∧
  (∀ (s : State) (w : CmdWord) (why : Invalid) (rest : List Bool), s.halted = false → s.cfg.envFaults = true →
    s.env.faults = false :: rest → s.prog[s.pc.toNat]? = some w → decode w = .invalid why →
    step s = .next { s with env := { s.env with faults := rest }, trace := s.trace ++ [.halt .illegalCommand],
                            cause := .illegalCommand, halted := true }) ∧
  (∀ (pin : Byte) (b : Bool) (s : State), 7 < pin.toNat →
    (∀ i ∈ [Instr.setPinMode pin b, .setPinState pin b, .readPin pin, .toggle pin],
      decode (encode i) = .command i ∧ ∃ r, exec i s = .refused r))

/-- R59: every operand is the unsigned value of its field, taken as it stands (the fields of R53 to R57); the pins 8 to
255 are encodable and refused. -/
def Obligations.OperandsAreTheFieldValues : Prop :=
  (∀ (i : Instr) (s : State), i.wf = false → decode (encode i) = .command i ∧ ∃ r, exec i s = .refused r) ∧
  ∀ w : CmdWord,
    (∀ d o i, decode w = .command (.construct d o i) →
      d.toNat = w.toNat / 2 ^ 32 % 2 ^ 16 ∧ o.toNat = w.toNat / 2 ^ 16 % 2 ^ 16 ∧ i.toNat = w.toNat % 2 ^ 16) ∧
    (∀ p v, decode w = .command (.setPinMode p v) ∨ decode w = .command (.setPinState p v) →
      p.toNat = w.toNat / 2 ^ 8 % 2 ^ 8 ∧ (v = true ↔ w.toNat % 2 = 1)) ∧
    (∀ p, decode w = .command (.readPin p) ∨ decode w = .command (.toggle p) →
      p.toNat = w.toNat / 2 ^ 8 % 2 ^ 8) ∧
    (∀ n, decode w = .command (.delay n) ∨ decode w = .command (.delayMs n) ∨ decode w = .command (.jump n) →
      n.toNat = w.toNat % 2 ^ 32)

/-- Words of 95_test_vectors.md V-ENC, written out from the formats, decode to the commands they stand for. -/
def Obligations.SpecWordsDecode : Prop :=
  decode 0x0100FFFF00001234#64 = .command (.construct 0xFFFF#16 0x0000#16 0x1234#16) ∧
  decode 0x0200000000000501#64 = .command (.setPinMode 5#8 true) ∧
  decode 0x0300000000000500#64 = .command (.setPinState 5#8 false) ∧
  decode 0x0400000000000700#64 = .command (.readPin 7#8) ∧
  decode 0x05000000000003E8#64 = .command (.delay 1000#32) ∧
  decode 0x06000000000001F4#64 = .command (.delayMs 500#32) ∧
  decode 0x0700000000000500#64 = .command (.toggle 5#8) ∧
  decode 0x0800000000000003#64 = .command (.jump 3#32) ∧
  decode 0x0900000000000000#64 = .command .halt

/-- R36 (decision D15): a program stored as a little-endian byte stream is read back as it was, and each word's first
byte is its least significant one. -/
def Obligations.ByteStreamsGiveTheProgramBack : Prop :=
  (∀ ws : List CmdWord, programOfBytes (programBytes ws) = some ws) ∧
  (∀ (w : CmdWord) (k : Nat), k < 8 →
    ∃ b, (wordBytes w)[k]? = some b ∧ b.toNat = w.toNat / 2 ^ (8 * k) % 2 ^ 8)

/-! ## The step -/

/-- R110: when the word at `pc` decodes to a command, the step is that command's execution; with ENV_FAULTS the
environment is asked first, and when it reports no fault the command executes with that answer used up. -/
def Obligations.StepRunsTheDecodedCommand : Prop :=
  ∀ (s : State) (w : CmdWord) (i : Instr), s.halted = false → s.prog[s.pc.toNat]? = some w →
    decode w = .command i →
    (s.cfg.envFaults = false → step s = exec i s) ∧
    (∀ rest, s.cfg.envFaults = true → s.env.faults = false :: rest →
      step s = exec i { s with env := { s.env with faults := rest } }) ∧
    (s.cfg.envFaults = true → s.env.faults = [] →
      step s = if Config.envFault s.env.draws = true
        then .next { s with env := { s.env with draws := s.env.draws + 1 },
                            trace := s.trace ++ [.halt .envFault], cause := .envFault, halted := true }
        else exec i { s with env := { s.env with draws := s.env.draws + 1 } })

/-- R110, R122, R123, R128: the faults at a command boundary, in their order. The environment's fault, where the launch
admits it, comes before any test of `pc`, whether the answer is scripted or free; when it reports none, or is not
asked, a fetch past the program faults, and an invalid word faults. -/
def Obligations.BoundaryFaultsAreTakenInOrder : Prop :=
  ∀ s : State, s.halted = false →
    (∀ rest, s.cfg.envFaults = true → s.env.faults = true :: rest →
      step s = .next { s with env := { s.env with faults := rest }, trace := s.trace ++ [.halt .envFault],
                              cause := .envFault, halted := true }) ∧
    (s.cfg.envFaults = true → s.env.faults = [] → Config.envFault s.env.draws = true →
      step s = .next { s with env := { s.env with draws := s.env.draws + 1 }, trace := s.trace ++ [.halt .envFault],
                              cause := .envFault, halted := true }) ∧
    ∀ c : Cause,
      (c = .fetchOutOfRange ∧ s.prog.length ≤ s.pc.toNat) ∨
        (c = .illegalCommand ∧ ∃ w why, s.prog[s.pc.toNat]? = some w ∧ decode w = .invalid why) →
      (s.cfg.envFaults = false →
        step s = .next { s with trace := s.trace ++ [.halt c], cause := c, halted := true }) ∧
      (∀ rest, s.cfg.envFaults = true → s.env.faults = false :: rest →
        step s = .next { s with env := { s.env with faults := rest }, trace := s.trace ++ [.halt c],
                                cause := c, halted := true }) ∧
      (s.cfg.envFaults = true → s.env.faults = [] →
        step s = if Config.envFault s.env.draws = true
          then .next { s with env := { s.env with draws := s.env.draws + 1 },
                              trace := s.trace ++ [.halt .envFault], cause := .envFault, halted := true }
          else .next { s with env := { s.env with draws := s.env.draws + 1 },
                              trace := s.trace ++ [.halt c], cause := c, halted := true })

/-- R21, R131: nothing ever changes once the block is halted. That a halted block answers its own state as the next
one, and does not get stuck, is the model's reading (notes/assumptions/13). -/
def Obligations.HaltedForEver : Prop :=
  ∀ (s : State) (k : Nat), s.halted = true → runFor k s = .next s

/-- R130: faults are precise. A step that halts the block leaves every register and `pc` as they were, and adds to the
trace only the `Halt`, after the failed toggle where that is the cause. -/
def Obligations.FaultsArePrecise : Prop :=
  ∀ s t : State, s.halted = false → step s = .next t → t.halted = true →
    t.dir = s.dir ∧ t.out = s.out ∧ t.res = s.res ∧ t.lvl = s.lvl ∧ t.bind = s.bind ∧ t.pc = s.pc ∧
    t.cfg = s.cfg ∧ t.prog = s.prog ∧ t.cause ≠ .noCause ∧
    ((t.cause ≠ .toggleFailed ∧ t.trace = s.trace ++ [.halt t.cause]) ∨
      (t.cause = .toggleFailed ∧ ∃ p, t.trace = s.trace ++ [.capToggle p false, .halt .toggleFailed]))

/-- R10, R24, R27, R44: a step never changes the program or the launch parameters, never rebinds a bound Port, and only
appends to the trace. -/
def Obligations.StepsOnlyExtendHistory : Prop :=
  ∀ s t : State, step s = .next t →
    t.cfg = s.cfg ∧ t.prog = s.prog ∧ (s.bind.bound = true → t.bind = s.bind) ∧
    ∃ events, t.trace = s.trace ++ events

/-- R19: `pc` starts at 0; every command but `jump` and a faulting one ends with `pc + 1`, `jump` with its target, and a
fault leaves `pc` where it is; a fetch at `pc >= PROG_LEN` faults before executing, so in a program of at most 2^32 - 1
commands `pc + 1` does not overflow on a fetched command. -/
def Obligations.ProgramCounterRule : Prop :=
  (∀ (cfg : Launch) (prog : List CmdWord) (env : Env), (State.launch cfg prog env).pc = 0#32) ∧
  (∀ s t : State, s.halted = false → step s = .next t → t.halted = true → t.pc = s.pc) ∧
  (∀ s : State, s.halted = false → s.prog.length ≤ s.pc.toNat → ∃ t, step s = .next t ∧ t.Faulted) ∧
  (∀ (i : Instr) (s t : State), s.halted = false → exec i s = .next t →
    (t.halted = true → t.pc = s.pc) ∧
    (t.halted = false → (∀ target, i = .jump target → t.pc = target) ∧
      ((∀ target, i ≠ .jump target) → t.pc = s.pc + 1#32))) ∧
  (∀ s : State, s.prog.length ≤ 2 ^ 32 - 1 → s.pc.toNat < s.prog.length →
    (s.pc + 1#32).toNat = s.pc.toNat + 1)

/-- R113: a running block reaches the final state only by a `halt` command at `pc`. -/
def Obligations.OnlyHaltEndsARunAsIntended : Prop :=
  ∀ s t : State, s.halted = false → step s = .next t →
    (t.Final ↔ t.halted = true ∧ t.cause = .softwareHalt) ∧
    (t.Final → ∃ w, s.prog[s.pc.toNat]? = some w ∧ decode w = .command .halt)

/-- R21, R120: `HALTED` and `CAUSE` start at 0; once `HALTED` is set, whatever a step answers is this same state;
`CAUSE` is 0 while the block runs, and is written once, with the fault's code, at the fault entry. -/
def Obligations.HaltedAndCause : Prop :=
  (∀ (cfg : Launch) (prog : List CmdWord) (env : Env),
    (State.launch cfg prog env).halted = false ∧ causeCode (State.launch cfg prog env).cause = 0#3) ∧
  (∀ s t : State, s.halted = true → step s = .next t → t = s) ∧
  (∀ s t : State, (s.halted = false ↔ s.cause = .noCause) → step s = .next t →
    (t.halted = false ↔ t.cause = .noCause) ∧ (t.halted = false → t.cause = s.cause) ∧
    (s.halted = false → t.halted = true → t.trace.getLast? = some (.halt t.cause))) ∧
  (causeCode .noCause = 0#3 ∧ causeCode .softwareHalt = 1#3 ∧ causeCode .toggleFailed = 2#3 ∧
    causeCode .illegalCommand = 3#3 ∧ causeCode .fetchOutOfRange = 4#3 ∧ causeCode .envFault = 5#3)

/-- R12, R13, R18, R20, R10: each register has its writers, and no other command changes it: `DIR` only `set_pin_mode`;
`OUT` only `set_pin_state` and the port binding's `toggle`; `RES` only `read_pin`; `LVL` only `set_pin_state` and
`toggle`; `BIND` only `construct`. No command reads `RES`. -/
def Obligations.EachRegisterHasItsWriters : Prop :=
  ∀ (i : Instr) (s t : State), (s.bind.bound = true → s.bind.Separate) → exec i s = .next t →
    ((∀ p b, i ≠ .setPinMode p b) → t.dir = s.dir) ∧
    ((∀ p b, i ≠ .setPinState p b) → (∀ p, i ≠ .toggle p) → t.out = s.out ∧ t.lvl = s.lvl) ∧
    (s.cfg.binding = .capability → t.out = s.out) ∧
    ((∀ p, i ≠ .readPin p) → t.res = s.res) ∧
    ((∀ d o n, i ≠ .construct d o n) → t.bind = s.bind) ∧
    ∀ r : Res, ∃ t', exec i { s with res := r } = .next t' ∧ { t' with res := t.res } = t

/-! ## Accesses -/

/-- R32, R33: `MemRead` returns the stored `DIR` or `OUT`, or the environment's answer at `IN_ADDR`, records it and
changes no register; `MemWrite` stores all eight bits and records them; neither answers unless the Port is bound and the
address is one of its own, and a write at `IN_ADDR` is refused. -/
def Obligations.AccessesReadAndWriteTheRegisters : Prop :=
  ∀ s : State,
    (s.bind.bound = true → s.bind.Separate →
      memRead s.bind.dirAddr s = .next (s.dir, { s with trace := s.trace ++ [.rd .dir s.bind.dirAddr s.dir] }) ∧
      memRead s.bind.outAddr s = .next (s.out, { s with trace := s.trace ++ [.rd .out s.bind.outAddr s.out] }) ∧
      (∀ (raw v : Byte) (after : Env),
        ((∃ rest, s.env.inputs = raw :: rest ∧ after = { s.env with inputs := rest }) ∨
          (s.env.inputs = [] ∧ raw = Config.inputByte s.env.draws ∧
            after = { s.env with draws := s.env.draws + 1 })) →
        v = (if s.cfg.loopback then (s.out &&& s.dir) ||| (raw &&& ~~~ s.dir) else raw) →
        memRead s.bind.inAddr s =
          .next (v, { s with env := after, trace := s.trace ++ [.rd .inp s.bind.inAddr v] })) ∧
      (∀ v : Byte,
        memWrite s.bind.dirAddr v s =
          .next { s with dir := v, trace := s.trace ++ [.wr .dir s.bind.dirAddr v] } ∧
        memWrite s.bind.outAddr v s =
          .next { s with out := v, trace := s.trace ++ [.wr .out s.bind.outAddr v] } ∧
        memWrite s.bind.inAddr v s = .refused .writeToInputRegister)) ∧
    (∀ a v t, memRead a s = .next (v, t) →
      s.bind.bound = true ∧ (a = s.bind.dirAddr ∨ a = s.bind.outAddr ∨ a = s.bind.inAddr)) ∧
    (∀ a v t, memWrite a v s = .next t → s.bind.bound = true ∧ (a = s.bind.dirAddr ∨ a = s.bind.outAddr))

/-- R71: the read-modify-write is exactly one read, then exactly one write, of the register with the one bit set by OR
with the singleton mask or cleared by AND with its complement, and keeps every other bit, even when nothing changes. -/
def Obligations.ReadModifyWriteKeepsTheOtherBits : Prop :=
  ∀ (s : State) (p : Pin) (b : Bool), s.bind.bound = true → s.bind.Separate →
    ∃ d o : Byte,
      (d = if b then s.dir ||| (1#8 <<< p.val) else s.dir &&& ~~~ (1#8 <<< p.val)) ∧
      (o = if b then s.out ||| (1#8 <<< p.val) else s.out &&& ~~~ (1#8 <<< p.val)) ∧
      rmw s.bind.dirAddr p b s = .next { s with
        dir := d, trace := s.trace ++ [.rd .dir s.bind.dirAddr s.dir, .wr .dir s.bind.dirAddr d] } ∧
      rmw s.bind.outAddr p b s = .next { s with
        out := o, trace := s.trace ++ [.rd .out s.bind.outAddr s.out, .wr .out s.bind.outAddr o] } ∧
      d.getLsbD p.val = b ∧ o.getLsbD p.val = b ∧
      ∀ q : Pin, q ≠ p → d.getLsbD q.val = s.dir.getLsbD q.val ∧ o.getLsbD q.val = s.out.getLsbD q.val

/-! ## The Port commands -/

/-- R73: `construct` binds the three addresses, with no access and no event; each condition in its order refuses. -/
def Obligations.ConstructBindsOnce : Prop :=
  ∀ (s : State) (d o i : Addr),
    (s.cfg.binding = .port → s.bind.bound = false →
      (validAddress s.cfg d = true ∧ validAddress s.cfg o = true ∧ validAddress s.cfg i = true) →
      (d ≠ o ∧ d ≠ i ∧ o ≠ i) →
      exec (.construct d o i) s =
        .next { s with bind := { bound := true, dirAddr := d, outAddr := o, inAddr := i }, pc := s.pc + 1#32 }) ∧
    (s.cfg.binding = .capability → exec (.construct d o i) s = .refused .wrongBinding) ∧
    (s.cfg.binding = .port → s.bind.bound = true → exec (.construct d o i) s = .refused .secondConstruct) ∧
    (s.cfg.binding = .port → s.bind.bound = false →
      (validAddress s.cfg d = false ∨ validAddress s.cfg o = false ∨ validAddress s.cfg i = false) →
      exec (.construct d o i) s = .refused .invalidAddress) ∧
    (s.cfg.binding = .port → s.bind.bound = false →
      (validAddress s.cfg d = true ∧ validAddress s.cfg o = true ∧ validAddress s.cfg i = true) →
      (d = o ∨ d = i ∨ o = i) → exec (.construct d o i) s = .refused .overlappingAddresses)

/-- R74: `set_pin_mode` reads `DIR`, sets or clears the pin's bit, and writes `DIR`; nothing else changes. From then on
the pin drives its `OUT` bit, or stops driving. -/
def Obligations.SetPinModeWritesOneDirBit : Prop :=
  ∀ (s : State) (pin : Byte) (b : Bool),
    (s.cfg.binding = .port → s.bind.bound = true → pin.toNat ≤ 7 →
      exec (.setPinMode pin b) s =
        .next { s with
          dir := if b then s.dir ||| (1#8 <<< pin.toNat) else s.dir &&& ~~~ (1#8 <<< pin.toNat)
          trace := s.trace ++ [.rd .dir s.bind.dirAddr s.dir,
            .wr .dir s.bind.dirAddr
              (if b then s.dir ||| (1#8 <<< pin.toNat) else s.dir &&& ~~~ (1#8 <<< pin.toNat))]
          pc := s.pc + 1#32 }) ∧
    (∀ (t : State) (outside : Byte) (p : Pin), pin.toNat = p.val → exec (.setPinMode pin b) s = .next t →
      pad t outside p = levelOfBit (if b then s.out.getLsbD p.val else outside.getLsbD p.val)) ∧
    (s.cfg.binding = .capability → exec (.setPinMode pin b) s = .refused .wrongBinding) ∧
    (s.cfg.binding = .port → s.bind.bound = false → exec (.setPinMode pin b) s = .refused .portNotConstructed) ∧
    (s.cfg.binding = .port → s.bind.bound = true → 7 < pin.toNat →
      exec (.setPinMode pin b) s = .refused .pinOutOfRange)

/-- R75: `set_pin_state` reads `OUT`, sets or clears the pin's bit, writes `OUT` and remembers the level, whatever the
pin's direction; nothing else changes. On an input pin it moves no line. -/
def Obligations.SetPinStateWritesOneOutBit : Prop :=
  ∀ (s : State) (pin : Byte) (b : Bool),
    (∀ p : Pin, s.cfg.binding = .port → s.bind.bound = true → s.bind.Separate → pin.toNat = p.val →
      exec (.setPinState pin b) s =
        .next { s with
          out := if b then s.out ||| (1#8 <<< pin.toNat) else s.out &&& ~~~ (1#8 <<< pin.toNat)
          lvl := s.lvl.set p.val (.commanded (if b then .high else .low)) p.isLt
          trace := s.trace ++ [.rd .out s.bind.outAddr s.out,
            .wr .out s.bind.outAddr
              (if b then s.out ||| (1#8 <<< pin.toNat) else s.out &&& ~~~ (1#8 <<< pin.toNat))]
          pc := s.pc + 1#32 }) ∧
    (∀ (t : State) (outside : Byte) (p q : Pin), s.bind.Separate → pin.toNat = p.val → s.dir.getLsbD p.val = false →
      exec (.setPinState pin b) s = .next t → pad t outside q = pad s outside q) ∧
    (s.cfg.binding = .capability → exec (.setPinState pin b) s = .refused .wrongBinding) ∧
    (s.cfg.binding = .port → s.bind.bound = false → exec (.setPinState pin b) s = .refused .portNotConstructed) ∧
    (s.cfg.binding = .port → s.bind.bound = true → 7 < pin.toNat →
      exec (.setPinState pin b) s = .refused .pinOutOfRange)

/-- R76: `read_pin` reads `IN` once and puts the pin's bit into `RES`; nothing of the block changes but `RES`. The byte
read is the environment's next answer `raw` (scripted, or else a free value), held on output pins under LOOPBACK. -/
def Obligations.ReadPinSamplesOneBit : Prop :=
  ∀ (s : State) (pin : Byte),
    (∀ (raw v : Byte) (after : Env), s.PortReady → pin.toNat ≤ 7 →
      ((∃ rest, s.env.inputs = raw :: rest ∧ after = { s.env with inputs := rest }) ∨
        (s.env.inputs = [] ∧ raw = Config.inputByte s.env.draws ∧
          after = { s.env with draws := s.env.draws + 1 })) →
      v = (if s.cfg.loopback then (s.out &&& s.dir) ||| (raw &&& ~~~ s.dir) else raw) →
      exec (.readPin pin) s =
        .next { s with
          env := after
          res := .written (v.getLsbD pin.toNat)
          trace := s.trace ++ [.rd .inp s.bind.inAddr v]
          pc := s.pc + 1#32 }) ∧
    (s.cfg.binding = .capability → exec (.readPin pin) s = .refused .wrongBinding) ∧
    (s.cfg.binding = .port → s.bind.bound = false → exec (.readPin pin) s = .refused .portNotConstructed) ∧
    (s.cfg.binding = .port → s.bind.bound = true → 7 < pin.toNat →
      exec (.readPin pin) s = .refused .pinOutOfRange)

/-- R77: `set_pin_mode` and `set_pin_state` on `p` leave the stored bit of every other pin, and the whole of the other
register, unchanged, and store the bit asked for. -/
def Obligations.SiblingsArePreserved : Prop :=
  ∀ (s : State) (p : Pin) (b : Bool), s.PortReady →
    (∃ t, exec (.setPinMode (pinOperand p) b) s = .next t ∧ t.dir.getLsbD p.val = b ∧
      (∀ q : Pin, q ≠ p → t.dir.getLsbD q.val = s.dir.getLsbD q.val) ∧ t.out = s.out) ∧
    (∃ t, exec (.setPinState (pinOperand p) b) s = .next t ∧ t.out.getLsbD p.val = b ∧
      (∀ q : Pin, q ≠ p → t.out.getLsbD q.val = s.out.getLsbD q.val) ∧ t.dir = s.dir)

/-- R75, R78: repeating a `set_pin_state` changes nothing more in `OUT` and `LVL`, and still performs its own read and
its own write; the last command on a pin wins. -/
def Obligations.SetPinStateIsIdempotent : Prop :=
  ∀ (s : State) (p : Pin) (b c : Bool), s.PortReady →
    ∃ t u v, exec (.setPinState (pinOperand p) b) s = .next t ∧
      exec (.setPinState (pinOperand p) b) t = .next u ∧ u.out = t.out ∧ u.lvl = t.lvl ∧
      accesses u.trace = accesses s.trace ++ [(false, .out), (true, .out), (false, .out), (true, .out)] ∧
      exec (.setPinState (pinOperand p) c) t = .next v ∧
      ∃ x, exec (.setPinState (pinOperand p) c) s = .next x ∧ v.out = x.out ∧ v.lvl = x.lvl

/-- R80: the round trip. Under LOOPBACK a driven level is read back, first true, then false, whatever the environment
answers; without LOOPBACK neither result is determined: each pair of results is some environment's. -/
def Obligations.RoundTripUnderLoopback : Prop :=
  ∀ (s : State) (p : Pin), s.PortReady →
    (s.cfg.loopback = true →
      ∃ t u, execSeq [.setPinMode (pinOperand p) true, .setPinState (pinOperand p) true,
            .readPin (pinOperand p)] s = .next t ∧ t.res = .written true ∧
        execSeq [.setPinState (pinOperand p) false, .readPin (pinOperand p)] t = .next u ∧
        u.res = .written false) ∧
    (s.cfg.loopback = false →
      ∀ first second : Bool, ∃ e t u,
        execSeq [.setPinMode (pinOperand p) true, .setPinState (pinOperand p) true,
            .readPin (pinOperand p)] { s with env := e } = .next t ∧ t.res = .written first ∧
        execSeq [.setPinState (pinOperand p) false, .readPin (pinOperand p)] t = .next u ∧
        u.res = .written second)

/-- R23: without LOOPBACK a read of `IN` may return any byte; with LOOPBACK exactly the bytes that agree with `OUT` on
every output pin, with no wait after a write (decision D5, notes/assumptions/10). -/
def Obligations.ReadsOfInAreFree : Prop :=
  ∀ (s : State) (p : Pin), s.PortReady → ∀ v : Byte,
    (∃ e t, exec (.readPin (pinOperand p)) { s with env := e } = .next t ∧
        t.trace = s.trace ++ [.rd .inp s.bind.inAddr v]) ↔
      (s.cfg.loopback = true → ∀ q : Pin, s.dir.getLsbD q.val = true → v.getLsbD q.val = s.out.getLsbD q.val)

/-- R17: an output pin's line shows its `OUT` bit, an input pin's line what the outside world puts there, and a fault
freezes the lines. -/
def Obligations.PadsFollowDirAndOut : Prop :=
  ∀ (s : State) (outside : Byte) (p : Pin),
    (s.dir.getLsbD p.val = true → pad s outside p = if s.out.getLsbD p.val then .high else .low) ∧
    (s.dir.getLsbD p.val = false → pad s outside p = if outside.getLsbD p.val then .high else .low) ∧
    (∀ t, s.halted = false → step s = .next t → t.halted = true → pad t outside p = pad s outside p)

/-- R149: direction before level. Between the two commands the line shows the old `OUT` bit; both orders end in the
same `DIR`, `OUT` and `LVL`; with the level first, the mode command drives the chosen level at once. -/
def Obligations.DirectionBeforeLevelGlitch : Prop :=
  ∀ (s : State) (p : Pin) (b : Bool) (outside : Byte), s.PortReady →
    ∃ t u t' u', exec (.setPinMode (pinOperand p) true) s = .next t ∧
      exec (.setPinState (pinOperand p) b) t = .next u ∧
      exec (.setPinState (pinOperand p) b) s = .next t' ∧
      exec (.setPinMode (pinOperand p) true) t' = .next u' ∧
      pad t outside p = levelOfBit (s.out.getLsbD p.val) ∧ pad u outside p = levelOfBit b ∧
      (s.dir.getLsbD p.val = false → pad t' outside p = pad s outside p) ∧ pad u' outside p = levelOfBit b ∧
      u'.dir = u.dir ∧ u'.out = u.out ∧ u'.lvl = u.lvl

/-- R150: a level written to an input pin has no electrical effect then, stays in `OUT`, and is driven as soon as the
pin is made an output. -/
def Obligations.InputPinRemembersItsLevel : Prop :=
  ∀ (s : State) (p : Pin) (b : Bool), s.PortReady → s.dir.getLsbD p.val = false →
    ∃ t u, exec (.setPinState (pinOperand p) b) s = .next t ∧ t.out.getLsbD p.val = b ∧
      (∀ (outside : Byte) (q : Pin), pad t outside q = pad s outside q) ∧
      exec (.setPinMode (pinOperand p) true) t = .next u ∧ u.out.getLsbD p.val = b ∧
      ∀ outside : Byte, pad u outside p = levelOfBit b

/-- R79: no command of the Register Port raises a fault: it completes with the block running as before, or is refused. -/
def Obligations.PortCommandsRaiseNoFault : Prop :=
  ∀ (i : Instr) (s : State),
    ((∃ d o n, i = .construct d o n) ∨ (∃ p b, i = .setPinMode p b) ∨ (∃ p b, i = .setPinState p b) ∨
      ∃ p, i = .readPin p) →
    (∀ r, exec i s ≠ .fault r) ∧ ∀ t, exec i s = .next t → t.halted = s.halted ∧ t.cause = s.cause

/-! ## The delay commands -/

/-- R86: `delay` makes exactly `count` counted iterations, `CNT` ends at `count` without wrapping, and one `Delay(count)`
is recorded; it needs no constructed Port. -/
def Obligations.DelayCountsAndRecords : Prop :=
  ∀ (s : State) (count : Count),
    (s.cfg.binding = .port →
      exec (.delay count) s = .next { s with trace := s.trace ++ [.delay count], pc := s.pc + 1#32 }) ∧
    (s.cfg.binding = .capability → exec (.delay count) s = .refused .wrongBinding) ∧
    (∀ fuel, count.toNat ≤ fuel → countedLoop count fuel 0#32 = (count.toNat, count))

/-- R87: `delay 0` performs no iteration and is still recorded. -/
def Obligations.ZeroDelayIsRecorded : Prop :=
  (∀ s : State, s.cfg.binding = .port →
    exec (.delay 0#32) s = .next { s with trace := s.trace ++ [.delay 0#32], pc := s.pc + 1#32 }) ∧
  ∀ fuel, countedLoop 0#32 fuel 0#32 = (0, 0#32)

/-- R88: a strictly larger count never completes in fewer counted iterations. What `delay` records is `iterations` of its
count; that is the count itself, the iterations the counted loop makes, and strictly increasing. -/
def Obligations.DelayIsMonotonic : Prop :=
  ∀ (s : State) (a b : Count), s.cfg.binding = .port →
    ∃ (m n : Count) (t u : State),
      exec (.delay a) s = .next t ∧ t.trace = s.trace ++ [.delay m] ∧
      exec (.delay b) s = .next u ∧ u.trace = s.trace ++ [.delay n] ∧
      m = iterations a ∧ n = iterations b ∧ iterations a = a ∧
      (∀ fuel, a.toNat ≤ fuel → m.toNat = (countedLoop a fuel 0#32).1) ∧
      (∀ fuel, b.toNat ≤ fuel → n.toNat = (countedLoop b fuel 0#32).1) ∧
      (a < b → m < n)

/-- R90: `delay_ms` records `DelayMs(count)` and returns; it belongs to the capability binding. That it always returns
is decision D20 (notes/assumptions/21). -/
def Obligations.DelayMsRecords : Prop :=
  ∀ (s : State) (count : Count),
    (s.cfg.binding = .capability →
      exec (.delayMs count) s = .next { s with trace := s.trace ++ [.delayMs count], pc := s.pc + 1#32 }) ∧
    (s.cfg.binding = .port → exec (.delayMs count) s = .refused .wrongBinding)

/-! ## The toggle command and the loop -/

/-- R95. Port binding: `toggle` writes the negation of the remembered level to `OUT` by one read and one write, and
remembers it. Capability binding: the collaborator's result `ok` (scripted, or else a free value) is recorded; success
inverts the remembered level, failure halts the block with cause TOGGLE_FAILED and changes no level (R121). Each with
its refusals in their order. -/
def Obligations.ToggleInvertsTheLevel : Prop :=
  (∀ (s : State) (pin : Byte), s.cfg.binding = .port →
    (∀ (p : Pin) (l : Level), s.bind.bound = true → s.bind.Separate → pin.toNat = p.val →
      levelOf s p = .commanded l →
      exec (.toggle pin) s =
        .next { s with
          out := if l = .low then s.out ||| (1#8 <<< pin.toNat) else s.out &&& ~~~ (1#8 <<< pin.toNat)
          lvl := s.lvl.set p.val (.commanded (if l = .low then .high else .low)) p.isLt
          trace := s.trace ++ [.rd .out s.bind.outAddr s.out,
            .wr .out s.bind.outAddr
              (if l = .low then s.out ||| (1#8 <<< pin.toNat) else s.out &&& ~~~ (1#8 <<< pin.toNat))]
          pc := s.pc + 1#32 }) ∧
    (s.bind.bound = false → exec (.toggle pin) s = .refused .portNotConstructed) ∧
    (s.bind.bound = true → 7 < pin.toNat → exec (.toggle pin) s = .refused .pinOutOfRange) ∧
    (∀ p : Pin, s.bind.bound = true → pin.toNat = p.val → levelOf s p = .unset →
      exec (.toggle pin) s = .refused .toggleBeforeDrive)) ∧
  (∀ (s : State) (pin : Byte), s.cfg.binding = .capability →
    (∀ (p : Pin) (l : Level) (ok : Bool) (after : Env), pin.toNat = p.val → levelOf s p = .commanded l →
      ((∃ rest, s.env.toggles = ok :: rest ∧ after = { s.env with toggles := rest }) ∨
        (s.env.toggles = [] ∧ ok = Config.toggleResult s.env.draws ∧
          after = { s.env with draws := s.env.draws + 1 })) →
      exec (.toggle pin) s =
        if ok then
          .next { s with
            env := after
            lvl := s.lvl.set p.val (.commanded (if l = .low then .high else .low)) p.isLt
            trace := s.trace ++ [.capToggle p true]
            pc := s.pc + 1#32 }
        else
          .next { s with
            env := after
            trace := s.trace ++ [.capToggle p false, .halt .toggleFailed]
            cause := .toggleFailed
            halted := true }) ∧
    (7 < pin.toNat → exec (.toggle pin) s = .refused .pinOutOfRange) ∧
    (∀ p : Pin, pin.toNat = p.val → levelOf s p = .unset → exec (.toggle pin) s = .refused .toggleBeforeDrive))

/-- R96: under the port binding `toggle` has exactly the effect and the events of `set_pin_state` with the negation of
the remembered level. -/
def Obligations.ToggleIsSetPinStateNegated : Prop :=
  ∀ (s : State) (p : Pin), s.cfg.binding = .port →
    (levelOf s p = .commanded .high →
      exec (.toggle (pinOperand p)) s = exec (.setPinState (pinOperand p) false) s) ∧
    (levelOf s p = .commanded .low →
      exec (.toggle (pinOperand p)) s = exec (.setPinState (pinOperand p) true) s)

/-- R98: the initial sequence makes the pin an output driven HIGH, in four accesses, leaves every other bit of `DIR` and
`OUT`, and drives the old `OUT` bit between its two commands. -/
def Obligations.LoopInitDrivesHigh : Prop :=
  ∀ (s : State) (p : Pin) (outside : Byte), s.PortReady →
    ∃ t u, loopInit (pinOperand p) = [.setPinMode (pinOperand p) true, .setPinState (pinOperand p) true] ∧
      exec (.setPinMode (pinOperand p) true) s = .next t ∧
      pad t outside p = levelOfBit (s.out.getLsbD p.val) ∧
      execSeq (loopInit (pinOperand p)) s = .next u ∧
      u.dir.getLsbD p.val = true ∧ u.out.getLsbD p.val = true ∧ levelOf u p = .commanded .high ∧
      pad u outside p = .high ∧
      (∀ q : Pin, q ≠ p → u.dir.getLsbD q.val = s.dir.getLsbD q.val ∧ u.out.getLsbD q.val = s.out.getLsbD q.val) ∧
      u.trace = s.trace ++ [.rd .dir s.bind.dirAddr s.dir, .wr .dir s.bind.dirAddr (s.dir ||| (1#8 <<< p.val)),
        .rd .out s.bind.outAddr s.out, .wr .out s.bind.outAddr (s.out ||| (1#8 <<< p.val))]

/-- R102, R104: the loop's command sequence, command by command, for any configuration. Pair number `n` of `LOOP_SEQ`
stands after the holds and the toggles of the pairs before it: `toggle` of the pin when its transition bit is 1, then
its hold. Under the port binding three commands stand before the first pair and the holds are `delay`; under the
capability binding none does and they are `delay_ms`. The jump back to the first pair ends it; the length leaves no room
for more. -/
def Obligations.LoopCommandsHaveTheRulesLength : Prop :=
  ∀ (cfg : Launch) (d o i : Addr),
    (cfg.binding = .port →
      (loopCommands cfg d o i).length =
        4 + cfg.loopSeq.steps.length + (cfg.loopSeq.steps.filter fun st => st.transition).length ∧
      (loopCommands cfg d o i).take 3 =
        [.construct d o i, .setPinMode (pinOperand cfg.loopPin) true, .setPinState (pinOperand cfg.loopPin) true] ∧
      (∀ (n at_ : Nat) (st : LoopStep), cfg.loopSeq.steps[n]? = some st →
        at_ = 3 + n + ((cfg.loopSeq.steps.take n).filter fun before => before.transition).length →
        (st.transition = true → (loopCommands cfg d o i)[at_]? = some (.toggle (pinOperand cfg.loopPin)) ∧
          (loopCommands cfg d o i)[at_ + 1]? = some (.delay st.hold)) ∧
        (st.transition = false → (loopCommands cfg d o i)[at_]? = some (.delay st.hold))) ∧
      (loopCommands cfg d o i).getLast? = some (.jump 3#32)) ∧
    (cfg.binding = .capability →
      (loopCommands cfg d o i).length =
        1 + cfg.loopSeq.steps.length + (cfg.loopSeq.steps.filter fun st => st.transition).length ∧
      (∀ (n at_ : Nat) (st : LoopStep), cfg.loopSeq.steps[n]? = some st →
        at_ = n + ((cfg.loopSeq.steps.take n).filter fun before => before.transition).length →
        (st.transition = true → (loopCommands cfg d o i)[at_]? = some (.toggle (pinOperand cfg.loopPin)) ∧
          (loopCommands cfg d o i)[at_ + 1]? = some (.delayMs st.hold)) ∧
        (st.transition = false → (loopCommands cfg d o i)[at_]? = some (.delayMs st.hold))) ∧
      (∀ c ∈ loopCommands cfg d o i, c.isConstruct = false) ∧
      (loopCommands cfg d o i).getLast? = some (.jump 0#32))

/-- R100: the uniform variant's configuration and body. R105: one pass over it from HIGH appends the six events, visits
LOW once and ends at HIGH. -/
def Obligations.UniformIteration : Prop :=
  (∀ (p : Byte) (d : Count) (here : Pc), (uniformSeq d).steps = [⟨true, d⟩, ⟨true, d⟩] ∧
    loopUniform .port p d here = [.toggle p, .delay d, .toggle p, .delay d, .jump here]) ∧
  ∀ (s : State) (p : Pin) (d : Count) (here : Pc), s.PortReady → levelOf s p = .commanded .high →
    s.out.getLsbD p.val = true →
    ∃ t u, execSeq [.toggle (pinOperand p), .delay d] s = .next t ∧ levelOf t p = .commanded .low ∧
      execSeq (loopUniform .port (pinOperand p) d here) s = .next u ∧ levelOf u p = .commanded .high ∧
      u.out = s.out ∧ u.dir = s.dir ∧ u.pc = here ∧ u.halted = s.halted ∧
      u.trace = s.trace ++ [.rd .out s.bind.outAddr s.out,
        .wr .out s.bind.outAddr (s.out &&& ~~~ (1#8 <<< p.val)), .delay d,
        .rd .out s.bind.outAddr (s.out &&& ~~~ (1#8 <<< p.val)), .wr .out s.bind.outAddr s.out, .delay d]

/-- R101: the patterned variant's configuration and body. R106: one pass over it from HIGH: four toggles, each with a
short delay, then one long delay, the level going HIGH, LOW, HIGH, LOW, HIGH. -/
def Obligations.PatternedIteration : Prop :=
  (∀ (p : Byte) (d l : Count) (here : Pc),
    (patternedSeq d l).steps = [⟨true, d⟩, ⟨true, d⟩, ⟨true, d⟩, ⟨true, d⟩, ⟨false, l⟩] ∧
    loopPatterned .port p d l here = [.toggle p, .delay d, .toggle p, .delay d, .toggle p, .delay d,
      .toggle p, .delay d, .delay l, .jump here]) ∧
  ∀ (s : State) (p : Pin) (short long : Count) (here : Pc), s.PortReady → levelOf s p = .commanded .high →
    s.out.getLsbD p.val = true →
    ∃ t1 t2 t3 t4 u, execSeq [.toggle (pinOperand p), .delay short] s = .next t1 ∧
      execSeq [.toggle (pinOperand p), .delay short] t1 = .next t2 ∧
      execSeq [.toggle (pinOperand p), .delay short] t2 = .next t3 ∧
      execSeq [.toggle (pinOperand p), .delay short] t3 = .next t4 ∧
      levelOf t1 p = .commanded .low ∧ levelOf t2 p = .commanded .high ∧
      levelOf t3 p = .commanded .low ∧ levelOf t4 p = .commanded .high ∧
      execSeq (loopPatterned .port (pinOperand p) short long here) s = .next u ∧
      levelOf u p = .commanded .high ∧ u.out = s.out ∧ u.dir = s.dir ∧ u.pc = here ∧
      u.trace = s.trace ++ [.rd .out s.bind.outAddr s.out,
        .wr .out s.bind.outAddr (s.out &&& ~~~ (1#8 <<< p.val)), .delay short,
        .rd .out s.bind.outAddr (s.out &&& ~~~ (1#8 <<< p.val)), .wr .out s.bind.outAddr s.out, .delay short,
        .rd .out s.bind.outAddr s.out,
        .wr .out s.bind.outAddr (s.out &&& ~~~ (1#8 <<< p.val)), .delay short,
        .rd .out s.bind.outAddr (s.out &&& ~~~ (1#8 <<< p.val)), .wr .out s.bind.outAddr s.out, .delay short,
        .delay long]

/-- R153: making the loop's pin an input changes neither `LVL` nor `OUT`; the toggle after it still inverts both, and no
line moves. -/
def Obligations.ToggleOnAnInputPinReachesNoLine : Prop :=
  ∀ (s : State) (p : Pin) (l : Level) (outside : Byte), s.PortReady → levelOf s p = .commanded l →
    ∃ t u, exec (.setPinMode (pinOperand p) false) s = .next t ∧ t.lvl = s.lvl ∧ t.out = s.out ∧
      exec (.toggle (pinOperand p)) t = .next u ∧ levelOf u p = .commanded (if l = .low then .high else .low) ∧
      u.out.getLsbD p.val = decide (l = .low) ∧ ∀ q : Pin, pad u outside q = pad t outside q

/-- R103: the loop has no exit. From every state of the loop, whatever its configuration and binding, the step answers a
next state, which is again in the loop, or is halted by a fault that is no intended end: the environment's, or the
collaborator's failed toggle; every line then stays as it was. -/
def Obligations.LoopNeverEnds : Prop :=
  ∀ (s : State) (d o i : Addr), s.InLoop d o i → ∃ t, step s = .next t ∧
    (t.InLoop d o i ∨
      (t.Faulted ∧ (∀ (outside : Byte) (p : Pin), pad t outside p = pad s outside p) ∧
        ((t.cause = .envFault ∧ s.cfg.envFaults = true) ∨
          (t.cause = .toggleFailed ∧ s.cfg.binding = .capability))))

/-- R102, R104, R140: the launch of the loop's command sequence is in the loop, under either binding. -/
def Obligations.LoopStartsAtLaunch : Prop :=
  ∀ (cfg : Launch) (env : Env) (d o i : Addr),
    (cfg.binding = .port →
      (validAddress cfg d = true ∧ validAddress cfg o = true ∧ validAddress cfg i = true) ∧
      (d ≠ o ∧ d ≠ i ∧ o ≠ i)) →
    (loopCommands cfg d o i).length ≤ 2 ^ 32 - 1 →
    (State.launch cfg ((loopCommands cfg d o i).map encode) env).InLoop d o i

/-! ## Sequencing commands -/

/-- R111: `jump` sets `pc` and nothing else, under both bindings; a target past the program faults at the next step. -/
def Obligations.JumpSetsThePc : Prop :=
  ∀ (s : State) (target : Pc),
    exec (.jump target) s = .next { s with pc := target } ∧
    (s.halted = false → s.cfg.envFaults = false → s.prog.length ≤ target.toNat →
      step { s with pc := target } =
        .next { s with pc := target, trace := s.trace ++ [.halt .fetchOutOfRange], cause := .fetchOutOfRange,
                       halted := true })

/-- R112: `halt` enters the halted state with cause 1, records it, and keeps everything else, `pc` and the lines included;
whatever a later step answers is this same state. -/
def Obligations.HaltIsTerminal : Prop :=
  ∀ s : State, ∃ t, exec .halt s = .next t ∧
    t = { s with trace := s.trace ++ [.halt .softwareHalt], cause := .softwareHalt, halted := true } ∧
    causeCode t.cause = 1#3 ∧ (∀ (outside : Byte) (p : Pin), pad t outside p = pad s outside p) ∧
    ∀ u, step t = .next u → u = t

/-! ## Refusals and what is not refused -/

/-- R124: a command is refused only for a reason of the table, under that reason's condition, and whenever the condition
of some reason holds; `MemWrite` to the input register is refused as such. -/
def Obligations.RefusalsAreTheContractViolations : Prop :=
  (∀ (i : Instr) (s : State),
    (∀ r, exec i s = .refused r → contractBroken s i r) ∧
    ((∃ r, contractBroken s i r) → ∃ r, exec i s = .refused r)) ∧
  ∀ (s : State) (v : Byte), s.bind.bound = true → s.bind.Separate →
    memWrite s.bind.inAddr v s = .refused .writeToInputRegister

/-- R125: what neither faults nor is refused: a level for an input pin, a read of an output pin, a write that changes
nothing, `delay 0`, making a driven pin an input, and a jump to itself. -/
def Obligations.NotFaultedNotRefused : Prop :=
  ∀ (s : State) (p : Pin) (b : Bool), s.PortReady → s.halted = false →
    (s.dir.getLsbD p.val = false →
      ∃ t, exec (.setPinState (pinOperand p) b) s = .next t ∧ t.halted = false ∧ t.out.getLsbD p.val = b) ∧
    (s.dir.getLsbD p.val = true → ∃ t, exec (.readPin (pinOperand p)) s = .next t ∧ t.halted = false) ∧
    (s.dir.getLsbD p.val = b →
      ∃ t, exec (.setPinMode (pinOperand p) b) s = .next t ∧ t.halted = false ∧ t.dir = s.dir) ∧
    (∃ t, exec (.delay 0#32) s = .next t ∧ t.halted = false) ∧
    (s.dir.getLsbD p.val = true →
      ∃ t, exec (.setPinMode (pinOperand p) false) s = .next t ∧ t.halted = false ∧ t.dir.getLsbD p.val = false) ∧
    exec (.jump s.pc) s = .next s

/-! ## Frames -/

/-- What `set_pin_mode` leaves unchanged: everything but one bit of `DIR`, the trace and `pc`; every stored byte of the
register space but the one at `DIR_ADDR`. -/
def Obligations.FrameOfSetPinMode : Prop :=
  ∀ (s t : State) (pin : Byte) (b : Bool), exec (.setPinMode pin b) s = .next t →
    t.cfg = s.cfg ∧ t.prog = s.prog ∧ t.env = s.env ∧ t.bind = s.bind ∧ t.out = s.out ∧ t.res = s.res ∧
    t.lvl = s.lvl ∧ t.halted = s.halted ∧ t.cause = s.cause ∧
    (∀ q, q < 8 → q ≠ pin.toNat → t.dir.getLsbD q = s.dir.getLsbD q) ∧
    ∀ a, a ≠ s.bind.dirAddr → storedByte t a = storedByte s a

/-- What `set_pin_state` and, under the port binding, `toggle` leave unchanged: everything but one bit of `OUT`, one
entry of `LVL`, the trace and `pc`; every stored byte but the one at `OUT_ADDR`. -/
def Obligations.FrameOfOutputStores : Prop :=
  ∀ (s t : State) (pin : Byte) (i : Instr), s.bind.Separate →
    ((∃ b, i = .setPinState pin b) ∨ (i = .toggle pin ∧ s.cfg.binding = .port)) → exec i s = .next t →
    t.cfg = s.cfg ∧ t.prog = s.prog ∧ t.env = s.env ∧ t.bind = s.bind ∧ t.dir = s.dir ∧ t.res = s.res ∧
    t.halted = s.halted ∧ t.cause = s.cause ∧
    (∀ q : Pin, q.val ≠ pin.toNat → levelOf t q = levelOf s q) ∧
    (∀ q, q < 8 → q ≠ pin.toNat → t.out.getLsbD q = s.out.getLsbD q) ∧
    ∀ a, a ≠ s.bind.outAddr → storedByte t a = storedByte s a

/-- What `read_pin`, `delay`, `delay_ms`, `jump` and `halt` leave unchanged: no stored byte changes, nor `BIND`, `DIR`,
`OUT`, `LVL`; only `read_pin` writes `RES` and uses an answer of the environment; only `halt` writes `HALTED` and
`CAUSE`. -/
def Obligations.FrameOfNonStoringCommands : Prop :=
  ∀ (s t : State) (i : Instr),
    ((∃ pin, i = .readPin pin) ∨ (∃ n, i = .delay n) ∨ (∃ n, i = .delayMs n) ∨ (∃ n, i = .jump n) ∨ i = .halt) →
    exec i s = .next t →
    t.cfg = s.cfg ∧ t.prog = s.prog ∧ t.bind = s.bind ∧ t.dir = s.dir ∧ t.out = s.out ∧ t.lvl = s.lvl ∧
    ((∀ pin, i ≠ .readPin pin) → t.res = s.res ∧ t.env = s.env) ∧
    (i ≠ .halt → t.halted = s.halted ∧ t.cause = s.cause) ∧
    ∀ a, storedByte t a = storedByte s a

/-- What `construct` leaves unchanged: everything but `BIND` and `pc`, the trace included. -/
def Obligations.FrameOfConstruct : Prop :=
  ∀ (s t : State) (d o i : Addr), exec (.construct d o i) s = .next t →
    t.cfg = s.cfg ∧ t.prog = s.prog ∧ t.env = s.env ∧ t.dir = s.dir ∧ t.out = s.out ∧ t.res = s.res ∧
    t.lvl = s.lvl ∧ t.halted = s.halted ∧ t.cause = s.cause ∧ t.trace = s.trace

/-- What `toggle` under the capability binding leaves unchanged: no register, no stored byte and no other level. -/
def Obligations.FrameOfCapabilityToggle : Prop :=
  ∀ (s t : State) (pin : Byte), s.cfg.binding = .capability → exec (.toggle pin) s = .next t →
    t.cfg = s.cfg ∧ t.prog = s.prog ∧ t.bind = s.bind ∧ t.dir = s.dir ∧ t.out = s.out ∧ t.res = s.res ∧
    (∀ q : Pin, q.val ≠ pin.toNat → levelOf t q = levelOf s q) ∧
    ((t.halted = s.halted ∧ t.cause = s.cause) ∨
      (t.halted = true ∧ t.cause = .toggleFailed ∧ t.lvl = s.lvl ∧ t.pc = s.pc)) ∧
    ∀ a, storedByte t a = storedByte s a

/-- R16: the complete table of register accesses, command by command and in order. -/
def Obligations.AccessTable : Prop :=
  ∀ (i : Instr) (s t : State), (s.bind.bound = true → s.bind.Separate) → exec i s = .next t →
    accesses t.trace = accesses s.trace ++
      (match i, s.cfg.binding with
        | .setPinMode _ _, _ => [(false, .dir), (true, .dir)]
        | .setPinState _ _, _ => [(false, .out), (true, .out)]
        | .toggle _, .port => [(false, .out), (true, .out)]
        | .toggle _, .capability => []
        | .readPin _, _ => [(false, .inp)]
        | .construct _ _ _, _ => []
        | .delay _, _ => []
        | .delayMs _, _ => []
        | .jump _, _ => []
        | .halt, _ => [])

/-! ## The start state and the invariant -/

/-- R141: the start state of every launch. -/
def Obligations.LaunchState : Prop :=
  ∀ (cfg : Launch) (prog : List CmdWord) (env : Env),
    (State.launch cfg prog env).pc = 0#32 ∧ (State.launch cfg prog env).bind.bound = false ∧
    (State.launch cfg prog env).dir = cfg.resetDir ∧ (State.launch cfg prog env).out = cfg.resetOut ∧
    (State.launch cfg prog env).res = .unwritten ∧
    (cfg.binding = .port → ∀ p, levelOf (State.launch cfg prog env) p = .unset) ∧
    (cfg.binding = .capability → ∀ p, levelOf (State.launch cfg prog env) p =
      if p = cfg.loopPin then .commanded cfg.level0 else .unset) ∧
    (State.launch cfg prog env).halted = false ∧ (State.launch cfg prog env).cause = .noCause ∧
    (State.launch cfg prog env).trace = []

/-- Reset is such a launch, under the port binding, without loopback and without environment faults (R5), and holds
the invariant; so does every launch. -/
def Obligations.InvariantHoldsAtLaunch : Prop :=
  (∀ (cfg : Launch) (prog : List CmdWord) (env : Env), (State.launch cfg prog env).Inv) ∧
  State.reset.Inv ∧ State.reset.cfg.binding = .port ∧ State.reset.cfg.loopback = false ∧
  State.reset.cfg.envFaults = false

/-- Every step keeps the invariant: the binding valid and separate (R10, R31), the remembered levels mirroring `OUT`
(R20), `CAUSE` in step with `HALTED` (R21), every access at a bound address (R39), `DIR` and `OUT` the last value
written (R47), and the one `Halt` last in the trace (R21, R129). -/
def Obligations.InvariantIsKept : Prop :=
  ∀ s t : State, s.Inv → step s = .next t → t.Inv

/-- What the checks of R66 buy, over every launch and every number of steps: a well-formed program is never refused,
but for a second `construct` where it jumps back to its first command; it never faults with ILLEGAL_COMMAND, and with
FETCH_OUT_OF_RANGE only by running past its last command. -/
def Obligations.WellFormedProgramsKeepTheContract : Prop :=
  ∀ (cfg : Launch) (prog : List CmdWord) (env : Env) (k : Nat), WellFormed cfg prog →
    (∀ f, runFor k (State.launch cfg prog env) ≠ .fault f) ∧
    (∀ r, runFor k (State.launch cfg prog env) = .refused r →
      r = .secondConstruct ∧ cfg.binding = .port ∧ ∃ w ∈ prog, decode w = .command (.jump 0#32)) ∧
    ∀ t, runFor k (State.launch cfg prog env) = .next t →
      t.cause ≠ .illegalCommand ∧ (t.cause = .fetchOutOfRange → t.pc.toNat = prog.length)

/-- R47: a read of `DIR` or `OUT` returns the value of the most recent write to it in program order, or its start value
when there has been none. -/
def Obligations.ReadsReturnTheLastWrite : Prop :=
  ∀ s : State, s.Inv → s.bind.bound = true →
    (∃ t, memRead s.bind.dirAddr s = .next (lastWrite .dir s.cfg.resetDir s.trace, t)) ∧
    ∃ t, memRead s.bind.outAddr s = .next (lastWrite .out s.cfg.resetOut s.trace, t)

/-! ## Keeping running -/

/-- R95, R103, R142: the loop keeps running where nothing fails. Without environment faults, and where the collaborator's
next toggle result (under the capability binding) is success, the step answers a state again in the loop; under
NoEnvFaults and NoToggleFailure so does every number of steps. -/
def Obligations.LoopKeepsRunning : Prop :=
  ∀ (s : State) (d o i : Addr), s.InLoop d o i → NoEnvFaults s.cfg →
    ((s.cfg.binding = .capability →
        (∃ rest, s.env.toggles = true :: rest) ∨
          (s.env.toggles = [] ∧ Config.toggleResult s.env.draws = true)) →
      ∃ t, step s = .next t ∧ t.InLoop d o i) ∧
    (NoToggleFailure s.cfg s.env → ∀ k : Nat, ∃ t, runFor k s = .next t ∧ t.InLoop d o i)

/-- The invariant behind the checks of R66, step by step: every well-formed launch meets it and every step keeps it; a
step from it is never refused, but for the second `construct` at command 0. -/
def Obligations.WellFormedStepsStayInTheContract : Prop :=
  (∀ (cfg : Launch) (prog : List CmdWord) (env : Env), WellFormed cfg prog →
    (State.launch cfg prog env).InContract) ∧
  ∀ s : State, s.InContract →
    (∀ f, step s ≠ .fault f) ∧
    (∀ r, step s = .refused r →
      r = .secondConstruct ∧ s.cfg.binding = .port ∧ s.pc = 0#32 ∧ s.bind.bound = true) ∧
    ∀ t, step s = .next t → t.InContract
end

