-- ==== Sys2Proof/Laws/Decode.lean ====
section
/-!
SUPPORT. The fields of encoded words, and the rows of the opcode map.
-/

namespace Sys2Proof

/-! ## Fields of encoded words -/

theorem opField_encode (i : Instr) :
    opField (encode i) =
      (match i with
        | .construct _ _ _ => 0x01#8
        | .setPinMode _ _ => 0x02#8
        | .setPinState _ _ => 0x03#8
        | .readPin _ => 0x04#8
        | .delay _ => 0x05#8
        | .delayMs _ => 0x06#8
        | .toggle _ => 0x07#8
        | .jump _ => 0x08#8
        | .halt => 0x09#8) := by
  cases i <;>
  · apply BitVec.eq_of_getLsbD_eq
    intro k hk
    simp only [opField, encode, BitVec.getLsbD_extractLsb', BitVec.getLsbD_append]
    interval_cases k <;> simp

@[simp] theorem daddrField_construct (d o i : Addr) : daddrField (encode (.construct d o i)) = d := by
  apply BitVec.eq_of_getLsbD_eq
  intro k hk
  simp only [daddrField, encode, BitVec.getLsbD_extractLsb', BitVec.getLsbD_append]
  interval_cases k <;> simp

@[simp] theorem oaddrField_construct (d o i : Addr) : oaddrField (encode (.construct d o i)) = o := by
  apply BitVec.eq_of_getLsbD_eq
  intro k hk
  simp only [oaddrField, encode, BitVec.getLsbD_extractLsb', BitVec.getLsbD_append]
  interval_cases k <;> simp

@[simp] theorem iaddrField_construct (d o i : Addr) : iaddrField (encode (.construct d o i)) = i := by
  apply BitVec.eq_of_getLsbD_eq
  intro k hk
  simp only [iaddrField, encode, BitVec.getLsbD_extractLsb', BitVec.getLsbD_append]
  interval_cases k <;> simp

@[simp] theorem pinField_setPinMode (p : Byte) (v : Bool) : pinField (encode (.setPinMode p v)) = p := by
  apply BitVec.eq_of_getLsbD_eq
  intro k hk
  simp only [pinField, encode, BitVec.getLsbD_extractLsb', BitVec.getLsbD_append]
  interval_cases k <;> simp

@[simp] theorem pinField_setPinState (p : Byte) (v : Bool) : pinField (encode (.setPinState p v)) = p := by
  apply BitVec.eq_of_getLsbD_eq
  intro k hk
  simp only [pinField, encode, BitVec.getLsbD_extractLsb', BitVec.getLsbD_append]
  interval_cases k <;> simp

@[simp] theorem pinField_readPin (p : Byte) : pinField (encode (.readPin p)) = p := by
  apply BitVec.eq_of_getLsbD_eq
  intro k hk
  simp only [pinField, encode, BitVec.getLsbD_extractLsb', BitVec.getLsbD_append]
  interval_cases k <;> simp

@[simp] theorem pinField_toggle (p : Byte) : pinField (encode (.toggle p)) = p := by
  apply BitVec.eq_of_getLsbD_eq
  intro k hk
  simp only [pinField, encode, BitVec.getLsbD_extractLsb', BitVec.getLsbD_append]
  interval_cases k <;> simp

@[simp] theorem valField_setPinMode (p : Byte) (v : Bool) : valField (encode (.setPinMode p v)) = v := by
  simp only [valField, encode, BitVec.getLsbD_append]; simp

@[simp] theorem valField_setPinState (p : Byte) (v : Bool) : valField (encode (.setPinState p v)) = v := by
  simp only [valField, encode, BitVec.getLsbD_append]; simp

@[simp] theorem countField_delay (n : Count) : countField (encode (.delay n)) = n := by
  apply BitVec.eq_of_getLsbD_eq
  intro k hk
  simp only [countField, encode, BitVec.getLsbD_extractLsb', BitVec.getLsbD_append]
  interval_cases k <;> simp

@[simp] theorem countField_delayMs (n : Count) : countField (encode (.delayMs n)) = n := by
  apply BitVec.eq_of_getLsbD_eq
  intro k hk
  simp only [countField, encode, BitVec.getLsbD_extractLsb', BitVec.getLsbD_append]
  interval_cases k <;> simp

@[simp] theorem countField_jump (n : Pc) : countField (encode (.jump n)) = n := by
  apply BitVec.eq_of_getLsbD_eq
  intro k hk
  simp only [countField, encode, BitVec.getLsbD_extractLsb', BitVec.getLsbD_append]
  interval_cases k <;> simp

/-! ## The rows of the opcode map -/

/-- No word matches two rows: two rows' `match` values differ in a bit that both masks cover (R60). -/
theorem rows_disjoint :
    rows.Pairwise fun r r' => r.bits &&& (r.mask &&& r'.mask) ≠ r'.bits &&& (r.mask &&& r'.mask) := by
  decide

/-- Every row's mask covers the opcode field, and its `match` value holds the row's opcode there. -/
theorem rows_cover_opcode : ∀ r ∈ rows, opField r.mask = 0xFF#8 ∧ opField r.bits = r.op := by
  decide

/-- What `decode` answers, by the row of the word's opcode (R65). -/
theorem decode_of_row {w : CmdWord} {r : Row} (h : rows.find? (fun r => r.op == opField w) = some r) :
    decode w = if w &&& r.mask = r.bits then .command (r.read w) else .invalid .mustBeZeroBitSet := by
  simp [decode, h]

/-- The row of an opcode is found by it: the rows' opcodes differ. -/
theorem find?_row {w : CmdWord} {r : Row} (hr : r ∈ rows) (h : opField w = r.op) :
    rows.find? (fun r => r.op == opField w) = some r := by
  rw [h]
  simp only [rows, List.mem_cons, List.not_mem_nil, or_false] at hr
  rcases hr with rfl|rfl|rfl|rfl|rfl|rfl|rfl|rfl|rfl <;> rfl

/-- Everything `decode` can answer (R61, R65). -/
theorem decode_cases (w : CmdWord) :
    (∃ r ∈ rows, opField w = r.op ∧ w &&& r.mask = r.bits ∧ decode w = .command (r.read w)) ∨
    (∃ r ∈ rows, opField w = r.op ∧ w &&& r.mask ≠ r.bits ∧ decode w = .invalid .mustBeZeroBitSet) ∨
    ((∀ r ∈ rows, opField w ≠ r.op) ∧ decode w = .invalid .undefinedOpcode) := by
  unfold decode
  cases hf : rows.find? (fun r => r.op == opField w) with
  | none =>
    refine .inr (.inr ⟨?_, rfl⟩)
    intro r hr he
    have := List.find?_eq_none.1 hf r hr
    simp [he] at this
  | some r =>
    have hr := List.mem_of_find?_eq_some hf
    have ho := List.find?_some hf
    simp at ho
    by_cases hm : w &&& r.mask = r.bits
    · exact .inl ⟨r, hr, ho.symm, hm, by simp [hm]⟩
    · exact .inr (.inl ⟨r, hr, ho.symm, hm, by simp [hm]⟩)

/-- A word that matches a row has the row's opcode. -/
theorem opField_of_match {w : CmdWord} {r : Row} (hr : r ∈ rows) (hm : w &&& r.mask = r.bits) : opField w = r.op := by
  obtain ⟨h1, h2⟩ := rows_cover_opcode r hr
  rw [← h2, ← hm]
  apply BitVec.eq_of_getLsbD_eq
  intro k hk
  have := congrArg (fun x : Byte => x.getLsbD k) h1
  simp only [opField, BitVec.getLsbD_extractLsb', BitVec.getLsbD_and, hk, decide_true, Bool.true_and] at this ⊢
  rw [this]; interval_cases k <;> simp

/-- A bit that a mask covers is the bit of the `match` value. -/
theorem mask_bit {w m b : CmdWord} (h : w &&& m = b) (k : Nat) (hm : m.getLsbD k = true) : w.getLsbD k = b.getLsbD k := by
  rw [← h, BitVec.getLsbD_and, hm, Bool.and_true]

end Sys2Proof
end

