-- ==== Sys2Proof/Laws/State.lean ====
section
/-!
SUPPORT. One lemma per field per update of the state, so that no later proof unfolds a record update.
-/

namespace Sys2Proof.Machine

/-! ## emit -/

@[simp] theorem emit_cfg (e : Event) (s : State) : (emit e s).cfg = s.cfg := rfl
@[simp] theorem emit_prog (e : Event) (s : State) : (emit e s).prog = s.prog := rfl
@[simp] theorem emit_env (e : Event) (s : State) : (emit e s).env = s.env := rfl
@[simp] theorem emit_bind (e : Event) (s : State) : (emit e s).bind = s.bind := rfl
@[simp] theorem emit_dir (e : Event) (s : State) : (emit e s).dir = s.dir := rfl
@[simp] theorem emit_out (e : Event) (s : State) : (emit e s).out = s.out := rfl
@[simp] theorem emit_res (e : Event) (s : State) : (emit e s).res = s.res := rfl
@[simp] theorem emit_pc (e : Event) (s : State) : (emit e s).pc = s.pc := rfl
@[simp] theorem emit_lvl (e : Event) (s : State) : (emit e s).lvl = s.lvl := rfl
@[simp] theorem emit_halted (e : Event) (s : State) : (emit e s).halted = s.halted := rfl
@[simp] theorem emit_cause (e : Event) (s : State) : (emit e s).cause = s.cause := rfl
@[simp] theorem emit_trace (e : Event) (s : State) : (emit e s).trace = s.trace ++ [e] := rfl

/-! ## setPc -/

@[simp] theorem setPc_cfg (t : Pc) (s : State) : (setPc t s).cfg = s.cfg := rfl
@[simp] theorem setPc_prog (t : Pc) (s : State) : (setPc t s).prog = s.prog := rfl
@[simp] theorem setPc_env (t : Pc) (s : State) : (setPc t s).env = s.env := rfl
@[simp] theorem setPc_bind (t : Pc) (s : State) : (setPc t s).bind = s.bind := rfl
@[simp] theorem setPc_dir (t : Pc) (s : State) : (setPc t s).dir = s.dir := rfl
@[simp] theorem setPc_out (t : Pc) (s : State) : (setPc t s).out = s.out := rfl
@[simp] theorem setPc_res (t : Pc) (s : State) : (setPc t s).res = s.res := rfl
@[simp] theorem setPc_pc (t : Pc) (s : State) : (setPc t s).pc = t := rfl
@[simp] theorem setPc_lvl (t : Pc) (s : State) : (setPc t s).lvl = s.lvl := rfl
@[simp] theorem setPc_halted (t : Pc) (s : State) : (setPc t s).halted = s.halted := rfl
@[simp] theorem setPc_cause (t : Pc) (s : State) : (setPc t s).cause = s.cause := rfl
@[simp] theorem setPc_trace (t : Pc) (s : State) : (setPc t s).trace = s.trace := rfl

/-! ## advance -/

@[simp] theorem advance_cfg (s : State) : (advance s).cfg = s.cfg := rfl
@[simp] theorem advance_prog (s : State) : (advance s).prog = s.prog := rfl
@[simp] theorem advance_env (s : State) : (advance s).env = s.env := rfl
@[simp] theorem advance_bind (s : State) : (advance s).bind = s.bind := rfl
@[simp] theorem advance_dir (s : State) : (advance s).dir = s.dir := rfl
@[simp] theorem advance_out (s : State) : (advance s).out = s.out := rfl
@[simp] theorem advance_res (s : State) : (advance s).res = s.res := rfl
@[simp] theorem advance_pc (s : State) : (advance s).pc = s.pc + 1#32 := rfl
@[simp] theorem advance_lvl (s : State) : (advance s).lvl = s.lvl := rfl
@[simp] theorem advance_halted (s : State) : (advance s).halted = s.halted := rfl
@[simp] theorem advance_cause (s : State) : (advance s).cause = s.cause := rfl
@[simp] theorem advance_trace (s : State) : (advance s).trace = s.trace := rfl

/-! ## writeDir -/

@[simp] theorem writeDir_cfg (v : Byte) (s : State) : (writeDir v s).cfg = s.cfg := rfl
@[simp] theorem writeDir_prog (v : Byte) (s : State) : (writeDir v s).prog = s.prog := rfl
@[simp] theorem writeDir_env (v : Byte) (s : State) : (writeDir v s).env = s.env := rfl
@[simp] theorem writeDir_bind (v : Byte) (s : State) : (writeDir v s).bind = s.bind := rfl
@[simp] theorem writeDir_dir (v : Byte) (s : State) : (writeDir v s).dir = v := rfl
@[simp] theorem writeDir_out (v : Byte) (s : State) : (writeDir v s).out = s.out := rfl
@[simp] theorem writeDir_res (v : Byte) (s : State) : (writeDir v s).res = s.res := rfl
@[simp] theorem writeDir_pc (v : Byte) (s : State) : (writeDir v s).pc = s.pc := rfl
@[simp] theorem writeDir_lvl (v : Byte) (s : State) : (writeDir v s).lvl = s.lvl := rfl
@[simp] theorem writeDir_halted (v : Byte) (s : State) : (writeDir v s).halted = s.halted := rfl
@[simp] theorem writeDir_cause (v : Byte) (s : State) : (writeDir v s).cause = s.cause := rfl
@[simp] theorem writeDir_trace (v : Byte) (s : State) : (writeDir v s).trace = s.trace := rfl

/-! ## writeOut -/

@[simp] theorem writeOut_cfg (v : Byte) (s : State) : (writeOut v s).cfg = s.cfg := rfl
@[simp] theorem writeOut_prog (v : Byte) (s : State) : (writeOut v s).prog = s.prog := rfl
@[simp] theorem writeOut_env (v : Byte) (s : State) : (writeOut v s).env = s.env := rfl
@[simp] theorem writeOut_bind (v : Byte) (s : State) : (writeOut v s).bind = s.bind := rfl
@[simp] theorem writeOut_dir (v : Byte) (s : State) : (writeOut v s).dir = s.dir := rfl
@[simp] theorem writeOut_out (v : Byte) (s : State) : (writeOut v s).out = v := rfl
@[simp] theorem writeOut_res (v : Byte) (s : State) : (writeOut v s).res = s.res := rfl
@[simp] theorem writeOut_pc (v : Byte) (s : State) : (writeOut v s).pc = s.pc := rfl
@[simp] theorem writeOut_lvl (v : Byte) (s : State) : (writeOut v s).lvl = s.lvl := rfl
@[simp] theorem writeOut_halted (v : Byte) (s : State) : (writeOut v s).halted = s.halted := rfl
@[simp] theorem writeOut_cause (v : Byte) (s : State) : (writeOut v s).cause = s.cause := rfl
@[simp] theorem writeOut_trace (v : Byte) (s : State) : (writeOut v s).trace = s.trace := rfl

/-! ## writeRes -/

@[simp] theorem writeRes_cfg (b : Bool) (s : State) : (writeRes b s).cfg = s.cfg := rfl
@[simp] theorem writeRes_prog (b : Bool) (s : State) : (writeRes b s).prog = s.prog := rfl
@[simp] theorem writeRes_env (b : Bool) (s : State) : (writeRes b s).env = s.env := rfl
@[simp] theorem writeRes_bind (b : Bool) (s : State) : (writeRes b s).bind = s.bind := rfl
@[simp] theorem writeRes_dir (b : Bool) (s : State) : (writeRes b s).dir = s.dir := rfl
@[simp] theorem writeRes_out (b : Bool) (s : State) : (writeRes b s).out = s.out := rfl
@[simp] theorem writeRes_res (b : Bool) (s : State) : (writeRes b s).res = .written b := rfl
@[simp] theorem writeRes_pc (b : Bool) (s : State) : (writeRes b s).pc = s.pc := rfl
@[simp] theorem writeRes_lvl (b : Bool) (s : State) : (writeRes b s).lvl = s.lvl := rfl
@[simp] theorem writeRes_halted (b : Bool) (s : State) : (writeRes b s).halted = s.halted := rfl
@[simp] theorem writeRes_cause (b : Bool) (s : State) : (writeRes b s).cause = s.cause := rfl
@[simp] theorem writeRes_trace (b : Bool) (s : State) : (writeRes b s).trace = s.trace := rfl

/-! ## bindPort -/

@[simp] theorem bindPort_cfg (d o i : Addr) (s : State) : (bindPort d o i s).cfg = s.cfg := rfl
@[simp] theorem bindPort_prog (d o i : Addr) (s : State) : (bindPort d o i s).prog = s.prog := rfl
@[simp] theorem bindPort_env (d o i : Addr) (s : State) : (bindPort d o i s).env = s.env := rfl
@[simp] theorem bindPort_bind (d o i : Addr) (s : State) : (bindPort d o i s).bind = { bound := true, dirAddr := d, outAddr := o, inAddr := i } := rfl
@[simp] theorem bindPort_dir (d o i : Addr) (s : State) : (bindPort d o i s).dir = s.dir := rfl
@[simp] theorem bindPort_out (d o i : Addr) (s : State) : (bindPort d o i s).out = s.out := rfl
@[simp] theorem bindPort_res (d o i : Addr) (s : State) : (bindPort d o i s).res = s.res := rfl
@[simp] theorem bindPort_pc (d o i : Addr) (s : State) : (bindPort d o i s).pc = s.pc := rfl
@[simp] theorem bindPort_lvl (d o i : Addr) (s : State) : (bindPort d o i s).lvl = s.lvl := rfl
@[simp] theorem bindPort_halted (d o i : Addr) (s : State) : (bindPort d o i s).halted = s.halted := rfl
@[simp] theorem bindPort_cause (d o i : Addr) (s : State) : (bindPort d o i s).cause = s.cause := rfl
@[simp] theorem bindPort_trace (d o i : Addr) (s : State) : (bindPort d o i s).trace = s.trace := rfl

/-! ## setEnv -/

@[simp] theorem setEnv_cfg (e : Env) (s : State) : (setEnv e s).cfg = s.cfg := rfl
@[simp] theorem setEnv_prog (e : Env) (s : State) : (setEnv e s).prog = s.prog := rfl
@[simp] theorem setEnv_env (e : Env) (s : State) : (setEnv e s).env = e := rfl
@[simp] theorem setEnv_bind (e : Env) (s : State) : (setEnv e s).bind = s.bind := rfl
@[simp] theorem setEnv_dir (e : Env) (s : State) : (setEnv e s).dir = s.dir := rfl
@[simp] theorem setEnv_out (e : Env) (s : State) : (setEnv e s).out = s.out := rfl
@[simp] theorem setEnv_res (e : Env) (s : State) : (setEnv e s).res = s.res := rfl
@[simp] theorem setEnv_pc (e : Env) (s : State) : (setEnv e s).pc = s.pc := rfl
@[simp] theorem setEnv_lvl (e : Env) (s : State) : (setEnv e s).lvl = s.lvl := rfl
@[simp] theorem setEnv_halted (e : Env) (s : State) : (setEnv e s).halted = s.halted := rfl
@[simp] theorem setEnv_cause (e : Env) (s : State) : (setEnv e s).cause = s.cause := rfl
@[simp] theorem setEnv_trace (e : Env) (s : State) : (setEnv e s).trace = s.trace := rfl

/-! ## writeLevel -/

@[simp] theorem writeLevel_cfg (p : Pin) (l : Level) (s : State) : (writeLevel p l s).cfg = s.cfg := rfl
@[simp] theorem writeLevel_prog (p : Pin) (l : Level) (s : State) : (writeLevel p l s).prog = s.prog := rfl
@[simp] theorem writeLevel_env (p : Pin) (l : Level) (s : State) : (writeLevel p l s).env = s.env := rfl
@[simp] theorem writeLevel_bind (p : Pin) (l : Level) (s : State) : (writeLevel p l s).bind = s.bind := rfl
@[simp] theorem writeLevel_dir (p : Pin) (l : Level) (s : State) : (writeLevel p l s).dir = s.dir := rfl
@[simp] theorem writeLevel_out (p : Pin) (l : Level) (s : State) : (writeLevel p l s).out = s.out := rfl
@[simp] theorem writeLevel_res (p : Pin) (l : Level) (s : State) : (writeLevel p l s).res = s.res := rfl
@[simp] theorem writeLevel_pc (p : Pin) (l : Level) (s : State) : (writeLevel p l s).pc = s.pc := rfl
@[simp] theorem writeLevel_lvl (p : Pin) (l : Level) (s : State) : (writeLevel p l s).lvl = s.lvl.set p.val (.commanded l) p.isLt := rfl
@[simp] theorem writeLevel_halted (p : Pin) (l : Level) (s : State) : (writeLevel p l s).halted = s.halted := rfl
@[simp] theorem writeLevel_cause (p : Pin) (l : Level) (s : State) : (writeLevel p l s).cause = s.cause := rfl
@[simp] theorem writeLevel_trace (p : Pin) (l : Level) (s : State) : (writeLevel p l s).trace = s.trace := rfl

/-! ## raiseFault -/

@[simp] theorem raiseFault_cfg (c : Cause) (s : State) : (raiseFault c s).cfg = s.cfg := rfl
@[simp] theorem raiseFault_prog (c : Cause) (s : State) : (raiseFault c s).prog = s.prog := rfl
@[simp] theorem raiseFault_env (c : Cause) (s : State) : (raiseFault c s).env = s.env := rfl
@[simp] theorem raiseFault_bind (c : Cause) (s : State) : (raiseFault c s).bind = s.bind := rfl
@[simp] theorem raiseFault_dir (c : Cause) (s : State) : (raiseFault c s).dir = s.dir := rfl
@[simp] theorem raiseFault_out (c : Cause) (s : State) : (raiseFault c s).out = s.out := rfl
@[simp] theorem raiseFault_res (c : Cause) (s : State) : (raiseFault c s).res = s.res := rfl
@[simp] theorem raiseFault_pc (c : Cause) (s : State) : (raiseFault c s).pc = s.pc := rfl
@[simp] theorem raiseFault_lvl (c : Cause) (s : State) : (raiseFault c s).lvl = s.lvl := rfl
@[simp] theorem raiseFault_halted (c : Cause) (s : State) : (raiseFault c s).halted = true := rfl
@[simp] theorem raiseFault_cause (c : Cause) (s : State) : (raiseFault c s).cause = c := rfl
@[simp] theorem raiseFault_trace (c : Cause) (s : State) : (raiseFault c s).trace = s.trace ++ [.halt c] := rfl

end Sys2Proof.Machine
end

