-- ==== Sys2Proof/Laws/Ops.lean ====
section
/-!
SUPPORT. One lemma per shared operation, saying everything it can do, for later proofs to cite instead of unfolding it.
-/

namespace Sys2Proof.Machine

/-! ## Outcomes -/

variable {α β : Type}

@[simp] theorem andThen_next (a : α) (k : α → Result β) : andThen (.next a) k = k a := rfl
@[simp] theorem andThen_fault (r : Fault) (k : α → Result β) : andThen (.fault r) k = .fault r := rfl
@[simp] theorem andThen_refused (r : Refusal) (k : α → Result β) : andThen (.refused r) k = .refused r := rfl

theorem andThen_eq_next {x : Result α} {k : α → Result β} {b : β} :
    andThen x k = .next b ↔ ∃ a, x = .next a ∧ k a = .next b := by
  cases x <;> simp [andThen]

theorem require_eq_next {c : Bool} {r : Refusal} {k : Result α} {a : α} :
    require c r k = .next a ↔ c = true ∧ k = .next a := by
  cases c <;> simp [require]

theorem requireBinding_eq_next {b : Binding} {s : State} {k : Result α} {a : α} :
    requireBinding b s k = .next a ↔ s.cfg.binding = b ∧ k = .next a := by
  simp [requireBinding, require_eq_next]

theorem requireBound_eq_next {s : State} {k : Result α} {a : α} :
    requireBound s k = .next a ↔ s.bind.bound = true ∧ k = .next a := by
  simp [requireBound, require_eq_next]

/-! ## Pins -/

theorem pinOf_eq_some {b : Byte} {p : Pin} : pinOf b = some p ↔ b.toNat = p.val := by
  unfold pinOf
  split
  · simp [Fin.ext_iff]
  · have := p.isLt; simp; omega

theorem pinOf_eq_none {b : Byte} : pinOf b = none ↔ 7 < b.toNat := by
  unfold pinOf
  split <;> simp <;> omega

theorem requirePin_eq_next {b : Byte} {k : Pin → Result α} {a : α} :
    requirePin b k = .next a ↔ ∃ p, pinOf b = some p ∧ k p = .next a := by
  unfold requirePin
  cases pinOf b <;> simp

theorem requirePort_eq_next {b : Byte} {s : State} {k : Pin → Result α} {a : α} :
    requirePort b s k = .next a ↔
      s.cfg.binding = .port ∧ s.bind.bound = true ∧ ∃ p, pinOf b = some p ∧ k p = .next a := by
  simp [requirePort, requireBinding_eq_next, requireBound_eq_next, requirePin_eq_next]

theorem requireLevel_eq_next {p : Pin} {s : State} {k : Level → Result α} {a : α} :
    requireLevel p s k = .next a ↔ ∃ l, levelOf s p = .commanded l ∧ k l = .next a := by
  unfold requireLevel
  cases levelOf s p <;> simp

/-! ## Levels -/

@[simp] theorem bitOfLevel_levelOfBit (b : Bool) : bitOfLevel (levelOfBit b) = b := by cases b <;> rfl
@[simp] theorem levelOfBit_bitOfLevel (l : Level) : levelOfBit (bitOfLevel l) = l := by cases l <;> rfl
@[simp] theorem invert_invert (l : Level) : invert (invert l) = l := by cases l <;> rfl
@[simp] theorem bitOfLevel_invert (l : Level) : bitOfLevel (invert l) = !bitOfLevel l := by cases l <;> rfl

@[simp] theorem levelOf_writeLevel_self (p : Pin) (l : Level) (s : State) :
    levelOf (writeLevel p l s) p = .commanded l := by
  simp [levelOf, writeLevel, Vector.get_eq_getElem]

theorem levelOf_writeLevel_of_ne {p q : Pin} (h : q ≠ p) (l : Level) (s : State) :
    levelOf (writeLevel p l s) q = levelOf s q := by
  have : p.val ≠ q.val := fun e => h (Fin.ext e.symm)
  simp [levelOf, writeLevel, Vector.get_eq_getElem, Vector.getElem_set_ne _ _ this]

/-- `LVL` is read only through the field `lvl`. -/
theorem levelOf_congr {s t : State} (h : t.lvl = s.lvl) (p : Pin) : levelOf t p = levelOf s p := by
  simp [levelOf, h]

/-! ## Bits of a register value -/

theorem mask_getLsbD (p : Pin) (q : Nat) : (mask p).getLsbD q = decide (q = p.val) := by
  have hp := p.isLt
  by_cases h : q = p.val
  · subst h; simp [mask]
  · simp only [mask, BitVec.getLsbD_shiftLeft, h, decide_false]
    by_cases h8 : q < 8 <;> by_cases hq : q < p.val <;> simp [h8, hq, BitVec.getLsbD_one]
    omega

theorem withBit_getLsbD (old : Byte) (p : Pin) (set : Bool) {q : Nat} (hq : q < 8) :
    (withBit old p set).getLsbD q = if q = p.val then set else old.getLsbD q := by
  cases set <;> by_cases h : q = p.val <;>
    simp only [withBit, BitVec.getLsbD_or, BitVec.getLsbD_and, BitVec.getLsbD_not, mask_getLsbD, hq, h,
      if_true, if_false, decide_true, decide_false, Bool.or_true, Bool.or_false, Bool.and_true,
      Bool.not_true, Bool.not_false, Bool.and_false, Bool.false_eq_true]

theorem testBit_eq (v : Byte) (p : Pin) : testBit v p = v.getLsbD p.val := by
  have key : (v &&& mask p = 0#8) ↔ v.getLsbD p.val = false := by
    constructor
    · intro h
      have := congrArg (fun x : Byte => x.getLsbD p.val) h
      simpa only [BitVec.getLsbD_and, mask_getLsbD, decide_true, Bool.and_true, BitVec.getLsbD_zero] using this
    · intro h
      apply BitVec.eq_of_getLsbD_eq
      intro i _
      by_cases hi : i = p.val
      · subst hi; simp only [BitVec.getLsbD_and, h, Bool.false_and, BitVec.getLsbD_zero]
      · simp only [BitVec.getLsbD_and, mask_getLsbD, hi, decide_false, Bool.and_false, BitVec.getLsbD_zero]
  unfold testBit
  cases hv : v.getLsbD p.val
  · simp [key.2 hv]
  · have hne : v &&& mask p ≠ 0#8 := fun e => by rw [key.1 e] at hv; cases hv
    simpa using hne

theorem padByte_getLsbD (dir out outside : Byte) {q : Nat} (hq : q < 8) :
    (padByte dir out outside).getLsbD q = if dir.getLsbD q then out.getLsbD q else outside.getLsbD q := by
  cases h : dir.getLsbD q <;>
    simp only [padByte, BitVec.getLsbD_or, BitVec.getLsbD_and, BitVec.getLsbD_not, h, hq, Bool.and_false,
      Bool.and_true, Bool.false_or, Bool.or_false, Bool.not_true, Bool.not_false, decide_true, if_true,
      Bool.false_eq_true, if_false]

@[simp] theorem withBit_getElem (old : Byte) (p : Pin) (set : Bool) (q : Nat) (hq : q < 8) :
    (withBit old p set)[q] = if q = p.val then set else old[q] := by
  have := withBit_getLsbD old p set hq
  rwa [BitVec.getLsbD_eq_getElem hq, BitVec.getLsbD_eq_getElem hq] at this

@[simp] theorem padByte_getElem (dir out outside : Byte) (q : Nat) (hq : q < 8) :
    (padByte dir out outside)[q] = if dir[q] then out[q] else outside[q] := by
  have := padByte_getLsbD dir out outside hq
  rwa [BitVec.getLsbD_eq_getElem hq, BitVec.getLsbD_eq_getElem hq, BitVec.getLsbD_eq_getElem hq,
    BitVec.getLsbD_eq_getElem hq] at this

/-- The last update of a bit wins (R78). -/
@[simp] theorem withBit_withBit (v : Byte) (p : Pin) (b c : Bool) :
    withBit (withBit v p b) p c = withBit v p c := by
  apply BitVec.eq_of_getLsbD_eq
  intro k hk
  simp only [withBit_getLsbD _ _ _ hk]
  split <;> rfl

/-- Writing the bit that is already there changes nothing (R71). -/
theorem withBit_same {v : Byte} {p : Pin} {b : Bool} (h : v.getLsbD p.val = b) : withBit v p b = v := by
  apply BitVec.eq_of_getLsbD_eq
  intro k hk
  rw [withBit_getLsbD _ _ _ hk]
  split
  · next e => rw [e, h]
  · rfl

theorem pad_eq (s : State) (outside : Byte) (p : Pin) :
    pad s outside p = levelOfBit (if s.dir.getLsbD p.val then s.out.getLsbD p.val else outside.getLsbD p.val) := by
  rw [pad, testBit_eq, padByte_getLsbD _ _ _ p.isLt]

/-! ## Draws: each changes `env` alone -/

theorem drawInput_snd (s : State) : (drawInput s).2 = setEnv (drawInput s).2.env s := by
  unfold drawInput; cases s.env.inputs <;> rfl

theorem drawToggle_snd (s : State) : (drawToggle s).2 = setEnv (drawToggle s).2.env s := by
  unfold drawToggle; cases s.env.toggles <;> rfl

theorem drawFault_snd (s : State) : (drawFault s).2 = setEnv (drawFault s).2.env s := by
  unfold drawFault; cases s.env.faults <;> rfl

/-! ## Accesses -/

theorem memRead_dir {s : State} (hb : s.bind.bound = true) :
    memRead s.bind.dirAddr s = .next (s.dir, emit (.rd .dir s.bind.dirAddr s.dir) s) := by
  simp [memRead, hb]

theorem memRead_out {s : State} (hb : s.bind.bound = true) (h : s.bind.outAddr ≠ s.bind.dirAddr) :
    memRead s.bind.outAddr s = .next (s.out, emit (.rd .out s.bind.outAddr s.out) s) := by
  simp [memRead, hb, h]

theorem memRead_inp {s : State} (hb : s.bind.bound = true) (h : s.bind.inAddr ≠ s.bind.dirAddr)
    (h' : s.bind.inAddr ≠ s.bind.outAddr) :
    memRead s.bind.inAddr s =
      .next (inputShown s (drawInput s).1,
        emit (.rd .inp s.bind.inAddr (inputShown s (drawInput s).1)) (drawInput s).2) := by
  simp [memRead, hb, h, h']

theorem memWrite_dir {s : State} (hb : s.bind.bound = true) (v : Byte) :
    memWrite s.bind.dirAddr v s = .next (emit (.wr .dir s.bind.dirAddr v) (writeDir v s)) := by
  simp [memWrite, hb]

theorem memWrite_out {s : State} (hb : s.bind.bound = true) (h : s.bind.outAddr ≠ s.bind.dirAddr) (v : Byte) :
    memWrite s.bind.outAddr v s = .next (emit (.wr .out s.bind.outAddr v) (writeOut v s)) := by
  simp [memWrite, hb, h]

/-- The read-modify-write of `DIR` (R71). -/
theorem rmw_dir {s : State} (hb : s.bind.bound = true) (p : Pin) (set : Bool) :
    rmw s.bind.dirAddr p set s =
      .next (emit (.wr .dir s.bind.dirAddr (withBit s.dir p set))
        (writeDir (withBit s.dir p set) (emit (.rd .dir s.bind.dirAddr s.dir) s))) := by
  simp [rmw, memRead_dir hb, memWrite, hb]

/-- The read-modify-write of `OUT` (R71). -/
theorem rmw_out {s : State} (hb : s.bind.bound = true) (h : s.bind.outAddr ≠ s.bind.dirAddr)
    (p : Pin) (set : Bool) :
    rmw s.bind.outAddr p set s =
      .next (emit (.wr .out s.bind.outAddr (withBit s.out p set))
        (writeOut (withBit s.out p set) (emit (.rd .out s.bind.outAddr s.out) s))) := by
  simp [rmw, memRead_out hb h, memWrite, hb, h]

/-- Everything a read can answer (R32): it needs a constructed Port, records one event and may use one answer of the
environment; it changes nothing else. -/
theorem memRead_eq_next {a : Addr} {s t : State} {v : Byte} (h : memRead a s = .next (v, t)) :
    s.bind.bound = true ∧ ∃ r e, a = (match r with
      | .dir => s.bind.dirAddr
      | .out => s.bind.outAddr
      | .inp => s.bind.inAddr) ∧ t = emit (.rd r a v) (setEnv e s) := by
  unfold memRead at h
  cases hb : s.bind.bound with
  | false => simp [hb] at h
  | true =>
    simp only [hb, Bool.not_true, Bool.false_eq_true, if_false] at h
    refine ⟨rfl, ?_⟩
    split at h
    · next ha => cases h; exact ⟨.dir, s.env, ha, rfl⟩
    · split at h
      · next ha => cases h; exact ⟨.out, s.env, ha, rfl⟩
      · split at h
        · next ha =>
          cases h
          exact ⟨.inp, _, ha, by rw [← drawInput_snd]⟩
        · cases h

/-- Everything the read-modify-write can answer (R71). -/
theorem rmw_eq_next {a : Addr} {p : Pin} {set : Bool} {s t : State} (h : rmw a p set s = .next t) :
    s.bind.bound = true ∧
    ((a = s.bind.dirAddr ∧
        t = emit (.wr .dir a (withBit s.dir p set))
          (writeDir (withBit s.dir p set) (emit (.rd .dir a s.dir) s))) ∨
      (a ≠ s.bind.dirAddr ∧ a = s.bind.outAddr ∧
        t = emit (.wr .out a (withBit s.out p set))
          (writeOut (withBit s.out p set) (emit (.rd .out a s.out) s)))) := by
  cases hb : s.bind.bound with
  | false => simp [rmw, memRead, hb] at h
  | true =>
    refine ⟨rfl, ?_⟩
    by_cases hd : a = s.bind.dirAddr
    · subst hd
      rw [rmw_dir hb] at h
      cases h
      exact .inl ⟨rfl, rfl⟩
    · by_cases ho : a = s.bind.outAddr
      · subst ho
        rw [rmw_out hb hd] at h
        cases h
        exact .inr ⟨hd, rfl, rfl⟩
      · by_cases hi : a = s.bind.inAddr
        · subst hi
          have hbnd : (drawInput s).2.bind = s.bind := by rw [drawInput_snd]; rfl
          simp [rmw, memRead, memWrite, hb, hd, ho, hbnd] at h
        · simp [rmw, memRead, hb, hd, ho, hi] at h

/-- The read-modify-write of a bound register always completes; of `IN_ADDR` it never does. -/
theorem rmw_completes {s : State} (hb : s.bind.bound = true) (p : Pin) (set : Bool) :
    (∃ t, rmw s.bind.dirAddr p set s = .next t) ∧ ∃ t, rmw s.bind.outAddr p set s = .next t := by
  refine ⟨⟨_, rmw_dir hb p set⟩, ?_⟩
  by_cases h : s.bind.outAddr = s.bind.dirAddr
  · rw [h]; exact ⟨_, rmw_dir hb p set⟩
  · exact ⟨_, rmw_out hb h p set⟩

/-- A read at a bound address always completes (R32). -/
theorem memRead_inAddr_completes {s : State} (hb : s.bind.bound = true) :
    ∃ r, memRead s.bind.inAddr s = .next r := by
  by_cases h : s.bind.inAddr = s.bind.dirAddr
  · rw [h]; exact ⟨_, memRead_dir hb⟩
  · by_cases h' : s.bind.inAddr = s.bind.outAddr
    · rw [h']; exact ⟨_, memRead_out hb (h' ▸ h)⟩
    · exact ⟨_, memRead_inp hb h h'⟩

/-! ## Fetch -/

/-- Everything `fetchAt` can answer (R110). -/
theorem fetchAt_cases (s : State) :
    (s.prog.length ≤ s.pc.toNat ∧ fetchAt s = .trap .fetchOutOfRange s) ∨
    (∃ w why, s.prog[s.pc.toNat]? = some w ∧ decode w = .invalid why ∧
      fetchAt s = .trap .illegalCommand s) ∨
    (∃ w i, s.prog[s.pc.toNat]? = some w ∧ decode w = .command i ∧ fetchAt s = .command i s) := by
  unfold fetchAt
  cases hw : s.prog[s.pc.toNat]? with
  | none => exact .inl ⟨List.getElem?_eq_none_iff.1 hw, rfl⟩
  | some w =>
    cases hd : decode w with
    | invalid why => exact .inr (.inl ⟨w, why, rfl, hd, by simp [hd]⟩)
    | command i => exact .inr (.inr ⟨w, i, rfl, hd, by simp [hd]⟩)

end Sys2Proof.Machine
end

