-- ==== Sys2Proof/Laws/Exec.lean ====
section
/-!
SUPPORT. One inversion lemma per meaning (when it answers a next state, and which), and one for the step.
-/

namespace Sys2Proof.Machine

theorem execConstruct_eq_next {d o i : Addr} {s t : State} :
    execConstruct d o i s = .next t ↔
      s.cfg.binding = .port ∧ s.bind.bound = false ∧
      (validAddress s.cfg d = true ∧ validAddress s.cfg o = true ∧ validAddress s.cfg i = true) ∧
      (d ≠ o ∧ d ≠ i ∧ o ≠ i) ∧ advance (bindPort d o i s) = t := by
  simp [execConstruct, requireBinding_eq_next, require_eq_next, distinctAddrs, and_assoc]

theorem execSetPinMode_eq_next {pin : Byte} {b : Bool} {s t : State} :
    execSetPinMode pin b s = .next t ↔
      s.cfg.binding = .port ∧ s.bind.bound = true ∧ ∃ p, pinOf pin = some p ∧
        advance (emit (.wr .dir s.bind.dirAddr (withBit s.dir p b))
          (writeDir (withBit s.dir p b) (emit (.rd .dir s.bind.dirAddr s.dir) s))) = t := by
  unfold execSetPinMode
  rw [requirePort_eq_next]
  refine and_congr_right fun _ => and_congr_right fun hb => ?_
  simp [rmw_dir hb]

theorem execSetPinState_eq_next {pin : Byte} {b : Bool} {s t : State}
    (h : s.bind.outAddr ≠ s.bind.dirAddr) :
    execSetPinState pin b s = .next t ↔
      s.cfg.binding = .port ∧ s.bind.bound = true ∧ ∃ p, pinOf pin = some p ∧
        advance (writeLevel p (levelOfBit b) (emit (.wr .out s.bind.outAddr (withBit s.out p b))
          (writeOut (withBit s.out p b) (emit (.rd .out s.bind.outAddr s.out) s)))) = t := by
  unfold execSetPinState
  rw [requirePort_eq_next]
  refine and_congr_right fun _ => and_congr_right fun hb => ?_
  simp [rmw_out hb h]

theorem execReadPin_eq_next {pin : Byte} {s t : State} (h : s.bind.inAddr ≠ s.bind.dirAddr)
    (h' : s.bind.inAddr ≠ s.bind.outAddr) :
    execReadPin pin s = .next t ↔
      s.cfg.binding = .port ∧ s.bind.bound = true ∧ ∃ p, pinOf pin = some p ∧
        advance (writeRes (testBit (inputShown s (drawInput s).1) p)
          (emit (.rd .inp s.bind.inAddr (inputShown s (drawInput s).1)) (drawInput s).2)) = t := by
  unfold execReadPin
  rw [requirePort_eq_next]
  refine and_congr_right fun _ => and_congr_right fun hb => ?_
  simp [memRead_inp hb h h']

theorem execDelay_eq_next {n : Count} {s t : State} :
    execDelay n s = .next t ↔
      s.cfg.binding = .port ∧ advance (emit (.delay (iterations n)) s) = t := by
  simp [execDelay, requireBinding_eq_next]

theorem execDelayMs_eq_next {n : Count} {s t : State} :
    execDelayMs n s = .next t ↔ s.cfg.binding = .capability ∧ advance (emit (.delayMs n) s) = t := by
  simp [execDelayMs, requireBinding_eq_next]

theorem togglePort_eq_next {pin : Byte} {s t : State} (h : s.bind.outAddr ≠ s.bind.dirAddr) :
    togglePort pin s = .next t ↔
      s.bind.bound = true ∧ ∃ p, pinOf pin = some p ∧ ∃ l, levelOf s p = .commanded l ∧
        advance (writeLevel p (invert l)
          (emit (.wr .out s.bind.outAddr (withBit s.out p (bitOfLevel (invert l))))
            (writeOut (withBit s.out p (bitOfLevel (invert l)))
              (emit (.rd .out s.bind.outAddr s.out) s)))) = t := by
  unfold togglePort
  rw [requireBound_eq_next]
  refine and_congr_right fun hb => ?_
  simp [requirePin_eq_next, requireLevel_eq_next, rmw_out hb h]

theorem toggleCapability_eq_next {pin : Byte} {s t : State} :
    toggleCapability pin s = .next t ↔
      ∃ p, pinOf pin = some p ∧ ∃ l, levelOf s p = .commanded l ∧
        (((drawToggle s).1 = true ∧
            advance (writeLevel p (invert l) (emit (.capToggle p true) (drawToggle s).2)) = t) ∨
          ((drawToggle s).1 = false ∧
            raiseFault .toggleFailed (emit (.capToggle p false) (drawToggle s).2) = t)) := by
  unfold toggleCapability
  simp only [requirePin_eq_next, requireLevel_eq_next]
  refine exists_congr fun p => and_congr_right fun _ => exists_congr fun l => and_congr_right fun _ => ?_
  cases (drawToggle s).1 <;> simp

theorem execJump_eq_next {target : Pc} {s t : State} :
    execJump target s = .next t ↔ setPc target s = t := by
  simp [execJump]

theorem execHalt_eq_next {s t : State} : execHalt s = .next t ↔ raiseFault .softwareHalt s = t := by
  simp [execHalt]

/-- Everything a step can do (R110, R128). -/
theorem step_cases (s : State) :
    (s.halted = true ∧ step s = .next s) ∨
    (s.halted = false ∧ s.cfg.envFaults = true ∧ (drawFault s).1 = true ∧
      step s = .next (raiseFault .envFault (drawFault s).2)) ∨
    (s.halted = false ∧ ∃ u, ((s.cfg.envFaults = true ∧ (drawFault s).1 = false ∧ u = (drawFault s).2) ∨
        (s.cfg.envFaults = false ∧ u = s)) ∧
      ((s.prog.length ≤ s.pc.toNat ∧ step s = .next (raiseFault .fetchOutOfRange u)) ∨
       (∃ w why, s.prog[s.pc.toNat]? = some w ∧ decode w = .invalid why ∧
          step s = .next (raiseFault .illegalCommand u)) ∨
       (∃ w i, s.prog[s.pc.toNat]? = some w ∧ decode w = .command i ∧ step s = exec i u))) := by
  cases hh : s.halted with
  | true => exact .inl ⟨rfl, by simp [step, fetch, hh]⟩
  | false =>
    refine .inr ?_
    cases hf : s.cfg.envFaults with
    | true =>
      cases hd : (drawFault s).1 with
      | true => exact .inl ⟨rfl, rfl, rfl, by simp [step, fetch, hh, hf, hd]⟩
      | false =>
        refine .inr ⟨rfl, (drawFault s).2, .inl ⟨rfl, rfl, rfl⟩, ?_⟩
        have hp : (drawFault s).2.prog = s.prog := by rw [drawFault_snd]; rfl
        have hc : (drawFault s).2.pc = s.pc := by rw [drawFault_snd]; rfl
        rcases fetchAt_cases (drawFault s).2 with ⟨a, b⟩ | ⟨w, y, a, b, c⟩ | ⟨w, i, a, b, c⟩ <;>
          rw [hp, hc] at a
        · exact .inl ⟨a, by simp [step, fetch, hh, hf, hd, b]⟩
        · exact .inr (.inl ⟨w, y, a, b, by simp [step, fetch, hh, hf, hd, c]⟩)
        · exact .inr (.inr ⟨w, i, a, b, by simp [step, fetch, hh, hf, hd, c]⟩)
    | false =>
      refine .inr ⟨rfl, s, .inr ⟨rfl, rfl⟩, ?_⟩
      rcases fetchAt_cases s with ⟨a, b⟩ | ⟨w, y, a, b, c⟩ | ⟨w, i, a, b, c⟩
      · exact .inl ⟨a, by simp [step, fetch, hh, hf, b]⟩
      · exact .inr (.inl ⟨w, y, a, b, by simp [step, fetch, hh, hf, c]⟩)
      · exact .inr (.inr ⟨w, i, a, b, by simp [step, fetch, hh, hf, c]⟩)

end Sys2Proof.Machine
end

