-- ==== Sys2Proof/Laws/Loop.lean ====
section
/-!
SUPPORT. Pin operands, command sequences and the loop's command list.
-/

namespace Sys2Proof.Machine

theorem toNat_pinOperand (p : Pin) : (pinOperand p).toNat = p.val := by revert p; decide

@[simp] theorem pinOf_pinOperand (p : Pin) : pinOf (pinOperand p) = some p :=
  pinOf_eq_some.2 (toNat_pinOperand p)

/-- A raw operand that names a legal pin is that pin's operand. -/
theorem eq_pinOperand {b : Byte} {p : Pin} (h : pinOf b = some p) : b = pinOperand p :=
  BitVec.eq_of_toNat_eq (by rw [toNat_pinOperand, pinOf_eq_some.1 h])

@[simp] theorem execSeq_nil (s : State) : execSeq [] s = .next s := rfl

@[simp] theorem execSeq_cons (i : Instr) (is : List Instr) (s : State) :
    execSeq (i :: is) s = andThen (exec i s) (execSeq is) := rfl

@[simp] theorem steps_uniformSeq (d : Count) : (uniformSeq d).steps = [⟨true, d⟩, ⟨true, d⟩] := rfl

@[simp] theorem steps_patternedSeq (s l : Count) :
    (patternedSeq s l).steps = [⟨true, s⟩, ⟨true, s⟩, ⟨true, s⟩, ⟨true, s⟩, ⟨false, l⟩] := rfl

/-- One command for the hold of a pair, and one for its transition (R102). -/
theorem length_pairCommands (b : Binding) (p : Byte) (st : LoopStep) :
    (pairCommands b p st).length = if st.transition then 2 else 1 := by
  cases h : st.transition <;> simp [pairCommands, h]

/-- One hold a pair, and one toggle a pair with transition bit 1, for the pairs of any list (R102). -/
theorem length_flatMap_pairCommands (b : Binding) (p : Byte) (seq : List LoopStep) :
    (seq.flatMap (pairCommands b p)).length = seq.length + (seq.filter fun st => st.transition).length := by
  induction seq with
  | nil => rfl
  | cons st seq ih =>
    rw [List.flatMap_cons, List.length_append, ih, length_pairCommands]
    cases h : st.transition <;> simp [h] <;> omega

theorem length_loopBody (b : Binding) (p : Byte) (seq : LoopSeq) :
    (loopBody b p seq).length = seq.steps.length + (seq.steps.filter fun st => st.transition).length :=
  length_flatMap_pairCommands b p seq.steps

/-- The body holds toggles of the pin and holds of the binding, nothing else (R102, R104). -/
theorem mem_loopBody {b : Binding} {p : Byte} {seq : LoopSeq} {c : Instr} (h : c ∈ loopBody b p seq) :
    c = .toggle p ∨ ∃ n, c = holdCommand b n := by
  simp only [loopBody, List.mem_flatMap] at h
  obtain ⟨st, _, hc⟩ := h
  cases ht : st.transition <;> simp [pairCommands, ht] at hc
  · exact .inr ⟨_, hc⟩
  · rcases hc with hc | hc
    · exact .inl hc
    · exact .inr ⟨_, hc⟩

end Sys2Proof.Machine
end

