-- ==== Sys2Proof/Laws/Inversion.lean ====
section
/-!
SUPPORT. What the execution of a command, and a step, can do, said once: the lemmas from which invariants and frames
are derived.
-/

namespace Sys2Proof.Machine

/-- Everything a command can answer as a next state, in any state. -/
theorem exec_next {i : Instr} {s t : State} (h : exec i s = .next t) :
    (∃ d o n, i = .construct d o n ∧ s.cfg.binding = .port ∧ s.bind.bound = false ∧
      (validAddress s.cfg d = true ∧ validAddress s.cfg o = true ∧ validAddress s.cfg n = true) ∧
      (d ≠ o ∧ d ≠ n ∧ o ≠ n) ∧ t = advance (bindPort d o n s)) ∨
    (∃ p b, i = .setPinMode (pinOperand p) b ∧ s.cfg.binding = .port ∧ s.bind.bound = true ∧
      t = advance (emit (.wr .dir s.bind.dirAddr (withBit s.dir p b))
          (writeDir (withBit s.dir p b) (emit (.rd .dir s.bind.dirAddr s.dir) s)))) ∨
    (∃ p b u, i = .setPinState (pinOperand p) b ∧ s.cfg.binding = .port ∧ rmw s.bind.outAddr p b s = .next u ∧
      t = advance (writeLevel p (levelOfBit b) u)) ∨
    (∃ p v u, i = .readPin (pinOperand p) ∧ s.cfg.binding = .port ∧ memRead s.bind.inAddr s = .next (v, u) ∧
      t = advance (writeRes (testBit v p) u)) ∨
    (∃ n, i = .delay n ∧ s.cfg.binding = .port ∧ t = advance (emit (.delay n) s)) ∨
    (∃ n, i = .delayMs n ∧ s.cfg.binding = .capability ∧ t = advance (emit (.delayMs n) s)) ∨
    (∃ p l u, i = .toggle (pinOperand p) ∧ s.cfg.binding = .port ∧ levelOf s p = .commanded l ∧
       rmw s.bind.outAddr p (bitOfLevel (invert l)) s = .next u ∧ t = advance (writeLevel p (invert l) u)) ∨
    (∃ p l e, i = .toggle (pinOperand p) ∧ s.cfg.binding = .capability ∧ levelOf s p = .commanded l ∧
       (t = advance (writeLevel p (invert l) (emit (.capToggle p true) (setEnv e s))) ∨
        t = raiseFault .toggleFailed (emit (.capToggle p false) (setEnv e s)))) ∨
    (∃ n, i = .jump n ∧ t = setPc n s) ∨
    (i = .halt ∧ t = raiseFault .softwareHalt s) := by
  cases i with
  | construct d o n =>
    obtain ⟨a, b, c, d', e⟩ := execConstruct_eq_next.1 h
    exact .inl ⟨d, o, n, rfl, a, b, c, d', e.symm⟩
  | setPinMode p b =>
    obtain ⟨a, hb, q, hq, e⟩ := execSetPinMode_eq_next.1 h
    exact .inr (.inl ⟨q, b, by rw [eq_pinOperand hq], a, hb, e.symm⟩)
  | setPinState p b =>
    simp only [exec, execSetPinState] at h
    obtain ⟨a, hb, q, hq, h⟩ := requirePort_eq_next.1 h
    obtain ⟨u, hu, h⟩ := andThen_eq_next.1 h
    cases h
    exact .inr (.inr (.inl ⟨q, b, u, by rw [eq_pinOperand hq], a, hu, rfl⟩))
  | readPin p =>
    simp only [exec, execReadPin] at h
    obtain ⟨a, hb, q, hq, h⟩ := requirePort_eq_next.1 h
    obtain ⟨⟨v, u⟩, hu, h⟩ := andThen_eq_next.1 h
    cases h
    exact .inr (.inr (.inr (.inl ⟨q, v, u, by rw [eq_pinOperand hq], a, hu, rfl⟩)))
  | delay n => obtain ⟨a, e⟩ := execDelay_eq_next.1 h; exact .inr (.inr (.inr (.inr (.inl ⟨n, rfl, a, e.symm⟩))))
  | delayMs n => obtain ⟨a, e⟩ := execDelayMs_eq_next.1 h; exact .inr (.inr (.inr (.inr (.inr (.inl ⟨n, rfl, a, e.symm⟩)))))
  | toggle p =>
    simp only [exec, execToggle] at h
    split at h
    · next hp =>
      obtain ⟨_, h⟩ := requireBound_eq_next.1 h
      obtain ⟨q, hq, h⟩ := requirePin_eq_next.1 h
      obtain ⟨l, hl, h⟩ := requireLevel_eq_next.1 h
      obtain ⟨u, hu, h⟩ := andThen_eq_next.1 h
      cases h
      exact .inr (.inr (.inr (.inr (.inr (.inr (.inl ⟨q, l, u, by rw [eq_pinOperand hq], hp, hl, hu, rfl⟩))))))
    · next hp =>
      obtain ⟨q, hq, l, hl, h⟩ := toggleCapability_eq_next.1 h
      rw [drawToggle_snd] at h
      refine .inr (.inr (.inr (.inr (.inr (.inr (.inr (.inl ⟨q, l, (drawToggle s).2.env, by rw [eq_pinOperand hq], hp, hl, ?_⟩)))))))
      rcases h with ⟨_, e⟩ | ⟨_, e⟩
      · exact .inl e.symm
      · exact .inr e.symm
  | jump n => cases h; exact .inr (.inr (.inr (.inr (.inr (.inr (.inr (.inr (.inl ⟨n, rfl, rfl⟩))))))))
  | halt => cases h; exact .inr (.inr (.inr (.inr (.inr (.inr (.inr (.inr (.inr ⟨rfl, rfl⟩))))))))

/-- What every command leaves alone, and what a command that halts leaves alone (R130). -/
theorem exec_keeps {i : Instr} {s t : State} (h : exec i s = .next t) :
    t.cfg = s.cfg ∧ t.prog = s.prog ∧ (s.bind.bound = true → t.bind = s.bind) ∧ (∃ es, t.trace = s.trace ++ es) ∧
    ((t.halted = s.halted ∧ t.cause = s.cause) ∨
     (t.halted = true ∧ t.dir = s.dir ∧ t.out = s.out ∧ t.res = s.res ∧ t.lvl = s.lvl ∧ t.bind = s.bind ∧ t.pc = s.pc ∧
       ((i = .halt ∧ t.cause = .softwareHalt ∧ t.trace = s.trace ++ [.halt .softwareHalt]) ∨
        (t.cause = .toggleFailed ∧ ∃ p, t.trace = s.trace ++ [.capToggle p false, .halt .toggleFailed])))) := by
  rcases exec_next h with ⟨d, o, n, -, -, hb, -, -, rfl⟩ | ⟨p, b, -, -, hb, rfl⟩ | ⟨p, b, u, -, -, hu, rfl⟩ | ⟨p, v, u, -, -, hu, rfl⟩ |
    ⟨n, -, -, rfl⟩ | ⟨n, -, -, rfl⟩ | ⟨p, l, u, -, -, -, hu, rfl⟩ | ⟨p, l, e, -, -, -, (rfl | rfl)⟩ | ⟨n, -, rfl⟩ | ⟨rfl, rfl⟩
  · exact ⟨rfl, rfl, by simp [hb], ⟨[], by simp⟩, .inl ⟨rfl, rfl⟩⟩
  · exact ⟨rfl, rfl, fun _ => rfl, ⟨_, by simp only [advance_trace, emit_trace, writeDir_trace, List.append_assoc]; rfl⟩, .inl ⟨rfl, rfl⟩⟩
  · rcases rmw_eq_next hu with ⟨_, ⟨_, rfl⟩ | ⟨_, _, rfl⟩⟩ <;>
    exact ⟨rfl, rfl, fun _ => rfl, ⟨_, by simp only [advance_trace, emit_trace, writeDir_trace, writeOut_trace, writeLevel_trace, List.append_assoc]; rfl⟩, .inl ⟨rfl, rfl⟩⟩
  · obtain ⟨_, r, e, _, rfl⟩ := memRead_eq_next hu
    exact ⟨rfl, rfl, fun _ => rfl, ⟨_, rfl⟩, .inl ⟨rfl, rfl⟩⟩
  · exact ⟨rfl, rfl, fun _ => rfl, ⟨_, rfl⟩, .inl ⟨rfl, rfl⟩⟩
  · exact ⟨rfl, rfl, fun _ => rfl, ⟨_, rfl⟩, .inl ⟨rfl, rfl⟩⟩
  · rcases rmw_eq_next hu with ⟨_, ⟨_, rfl⟩ | ⟨_, _, rfl⟩⟩ <;>
    exact ⟨rfl, rfl, fun _ => rfl, ⟨_, by simp only [advance_trace, emit_trace, writeDir_trace, writeOut_trace, writeLevel_trace, List.append_assoc]; rfl⟩, .inl ⟨rfl, rfl⟩⟩
  · exact ⟨rfl, rfl, fun _ => rfl, ⟨_, rfl⟩, .inl ⟨rfl, rfl⟩⟩
  · exact ⟨rfl, rfl, fun _ => rfl, ⟨[.capToggle p false, .halt .toggleFailed], by simp⟩, .inr ⟨rfl, rfl, rfl, rfl, rfl, rfl, rfl, .inr ⟨rfl, p, by simp⟩⟩⟩
  · exact ⟨rfl, rfl, fun _ => rfl, ⟨[], by simp⟩, .inl ⟨rfl, rfl⟩⟩
  · exact ⟨rfl, rfl, fun _ => rfl, ⟨_, rfl⟩, .inr ⟨rfl, rfl, rfl, rfl, rfl, rfl, rfl, .inl ⟨rfl, rfl, rfl⟩⟩⟩

/-- Everything a step can answer: it stays, takes a fault, or executes; the environment's draw changes `env` alone. -/
theorem step_next {s t : State} (h : step s = .next t) :
    (s.halted = true ∧ t = s) ∨
    (s.halted = false ∧ ∃ e, (∃ c, t = raiseFault c (setEnv e s) ∧ (c = .envFault ∨ c = .fetchOutOfRange ∨ c = .illegalCommand)) ∨
       ∃ w i, s.prog[s.pc.toNat]? = some w ∧ decode w = .command i ∧ exec i (setEnv e s) = .next t) := by
  rcases step_cases s with ⟨hh, hs⟩ | ⟨hh, _, _, hs⟩ | ⟨hh, u, hu, hs⟩
  · rw [hs] at h; cases h; exact .inl ⟨hh, rfl⟩
  · rw [hs, drawFault_snd] at h; cases h
    exact .inr ⟨hh, _, .inl ⟨_, rfl, .inl rfl⟩⟩
  · have hu' : ∃ e, u = setEnv e s := by
      rcases hu with ⟨_, _, rfl⟩ | ⟨_, rfl⟩
      · exact ⟨_, drawFault_snd s⟩
      · exact ⟨u.env, rfl⟩
    obtain ⟨e, rfl⟩ := hu'
    refine .inr ⟨hh, e, ?_⟩
    rcases hs with ⟨_, hs⟩ | ⟨w, y, _, _, hs⟩ | ⟨w, i, hw, hd, hs⟩ <;> rw [hs] at h
    · cases h; exact .inl ⟨_, rfl, .inr (.inl rfl)⟩
    · cases h; exact .inl ⟨_, rfl, .inr (.inr rfl)⟩
    · exact .inr ⟨w, i, hw, hd, h⟩

end Sys2Proof.Machine
end

