-- ==== Sys2Proof/Laws/Invariant.lean ====
section
/-!
SUPPORT. The operations from which every command is built keep `State.Inv`.
-/

namespace Sys2Proof.Machine

/-- What the newest event does to the most recent write. -/
theorem lastWrite_snoc (r : Reg) (es : List Event) (e : Event) (x : Byte) :
    lastWrite r x (es ++ [e]) =
      (match e with
        | .wr r' _ v => if r' = r then v else lastWrite r x es
        | _ => lastWrite r x es) := by
  induction es generalizing x with
  | nil => cases e <;> simp [lastWrite]
  | cons f es ih =>
    cases f <;> simp only [List.cons_append, lastWrite, ih]
    split <;> cases e <;> simp

theorem inv_setEnv {s : State} (h : s.Inv) (e : Env) : (setEnv e s).Inv :=
  ⟨h.bind, h.unbound, h.capability, h.level, h.cause, h.trace, h.readBack, h.halt⟩

theorem inv_setPc {s : State} (h : s.Inv) (n : Pc) : (setPc n s).Inv :=
  ⟨h.bind, h.unbound, h.capability, h.level, h.cause, h.trace, h.readBack, h.halt⟩

theorem inv_advance {s : State} (h : s.Inv) : (advance s).Inv :=
  ⟨h.bind, h.unbound, h.capability, h.level, h.cause, h.trace, h.readBack, h.halt⟩

theorem inv_writeRes {s : State} (h : s.Inv) (b : Bool) : (writeRes b s).Inv :=
  ⟨h.bind, h.unbound, h.capability, h.level, h.cause, h.trace, h.readBack, h.halt⟩

/-- The fault entry of a running block (R129). -/
theorem inv_raiseFault {s : State} (h : s.Inv) (hr : s.halted = false) {c : Cause} (hc : c ≠ .noCause) :
    (raiseFault c s).Inv := by
  refine ⟨h.bind, h.unbound, h.capability, h.level, ?_, ?_, ?_, ?_⟩
  · simp [State.CauseInv, raiseFault, hc]
  · intro e he
    simp only [raiseFault_trace, List.mem_append, List.mem_singleton] at he
    rcases he with he | rfl
    · exact h.trace e he
    · trivial
  · exact ⟨by rw [raiseFault_trace, lastWrite_snoc]; exact h.readBack.1,
      by rw [raiseFault_trace, lastWrite_snoc]; exact h.readBack.2⟩
  · exact ⟨fun hh => by simp at hh, fun _ => ⟨s.trace, by simp, h.halt.1 hr⟩⟩

/-- Recording an event that is no write and no halt, in its place. -/
theorem inv_emit {s : State} (h : s.Inv) (hr : s.halted = false) {e : Event}
    (noWrite : ∀ r x es, lastWrite r x (es ++ [e]) = lastWrite r x es) (noHalt : isHalt e = false)
    (place : eventInPlace s.bind e) : (emit e s).Inv := by
  refine ⟨h.bind, h.unbound, h.capability, h.level, h.cause, ?_, ?_, ?_⟩
  · intro f hf
    simp only [emit_trace, List.mem_append, List.mem_singleton] at hf
    rcases hf with hf | rfl
    · exact h.trace f hf
    · exact place
  · exact ⟨by rw [emit_trace, noWrite]; exact h.readBack.1, by rw [emit_trace, noWrite]; exact h.readBack.2⟩
  · refine ⟨fun _ f hf => ?_, fun hh => by simp [hr] at hh⟩
    simp only [emit_trace, List.mem_append, List.mem_singleton] at hf
    rcases hf with hf | rfl
    · exact h.halt.1 hr f hf
    · exact noHalt

/-- A write of `DIR`, with its event. -/
theorem inv_writeDir {s : State} (h : s.Inv) (hr : s.halted = false) (hb : s.bind.bound = true) (v : Byte) :
    (emit (.wr .dir s.bind.dirAddr v) (writeDir v s)).Inv := by
  refine ⟨h.bind, h.unbound, h.capability, h.level, h.cause, ?_, ?_, ?_⟩
  · intro f hf
    simp only [emit_trace, writeDir_trace, List.mem_append, List.mem_singleton] at hf
    rcases hf with hf | rfl
    · exact h.trace f hf
    · exact ⟨hb, rfl, by decide⟩
  · exact ⟨by rw [emit_trace, lastWrite_snoc]; rfl, by rw [emit_trace, lastWrite_snoc]; exact h.readBack.2⟩
  · refine ⟨fun _ f hf => ?_, fun hh => by simp [hr] at hh⟩
    simp only [emit_trace, writeDir_trace, List.mem_append, List.mem_singleton] at hf
    rcases hf with hf | rfl
    · exact h.halt.1 hr f hf
    · rfl

/-- A write of one bit of `OUT` with the level remembered, and its event. -/
theorem inv_driveOut {s : State} (h : s.Inv) (hr : s.halted = false) (hp : s.cfg.binding = .port)
    (hb : s.bind.bound = true) (p : Pin) (l : Level) :
    (writeLevel p l (emit (.wr .out s.bind.outAddr (withBit s.out p (bitOfLevel l)))
      (writeOut (withBit s.out p (bitOfLevel l)) s))).Inv := by
  refine ⟨h.bind, ?_, ?_, ?_, h.cause, ?_, ?_, ?_⟩
  · intro _ hh; simp [hb] at hh
  · intro hh; simp [hp] at hh
  · intro _ q k hk
    by_cases hq : q = p
    · subst hq
      have := (levelOf_congr (s := writeLevel q l s) rfl q).symm.trans hk
      simp at this; subst this; simp
    · have := ((levelOf_congr (s := writeLevel p l s) rfl q).trans (levelOf_writeLevel_of_ne hq l s)).symm.trans hk
      have hne : q.val ≠ p.val := fun e => hq (Fin.ext e)
      simpa [hne] using h.level hp q k this
  · intro f hf
    simp only [writeLevel_trace, emit_trace, writeOut_trace, List.mem_append, List.mem_singleton] at hf
    rcases hf with hf | rfl
    · exact h.trace f hf
    · exact ⟨hb, rfl, by decide⟩
  · exact ⟨by rw [writeLevel_trace, emit_trace, lastWrite_snoc]; exact h.readBack.1,
      by rw [writeLevel_trace, emit_trace, lastWrite_snoc]; rfl⟩
  · refine ⟨fun _ f hf => ?_, fun hh => by simp [hr] at hh⟩
    simp only [writeLevel_trace, emit_trace, writeOut_trace, List.mem_append, List.mem_singleton] at hf
    rcases hf with hf | rfl
    · exact h.halt.1 hr f hf
    · rfl

end Sys2Proof.Machine
end

