-- ==== Sys2Proof/Laws/PerInstr.lean ====
section
/-!
SUPPORT. Statements made instruction by instruction. Family `RowMatch`: the word of a command matches its own row of
the opcode map, opcode, must-be-zero bits and all (spec 30_encoding.md R60).
-/

namespace Sys2Proof.Laws.RowMatch

/-- The command's word lies in a row of R60: the row's opcode, and `w & mask = match`. -/
def Statement (i : Instr) : Prop :=
  ∃ r ∈ rows, opField (encode i) = r.op ∧ encode i &&& r.mask = r.bits

/-- A bit-by-bit proof for one row of the map. -/
theorem of_row {i : Instr} {k : Nat} {r : Row} (hr : rows[k]? = some r)
    (ho : opField (encode i) = r.op) (hm : encode i &&& r.mask = r.bits) : Statement i :=
  ⟨r, List.mem_of_getElem? hr, ho, hm⟩

theorem construct (daddr oaddr iaddr : Addr) : Statement (.construct daddr oaddr iaddr) := by
  refine of_row (k := 0) rfl (opField_encode _) ?_
  apply BitVec.eq_of_getLsbD_eq
  intro k hk
  simp only [BitVec.getLsbD_and, encode, BitVec.getLsbD_append]
  interval_cases k <;> simp

theorem setPinMode (pin : Byte) (isOutput : Bool) : Statement (.setPinMode pin isOutput) := by
  refine of_row (k := 1) rfl (opField_encode _) ?_
  apply BitVec.eq_of_getLsbD_eq
  intro k hk
  simp only [BitVec.getLsbD_and, encode, BitVec.getLsbD_append]
  interval_cases k <;> simp

theorem setPinState (pin : Byte) (isHigh : Bool) : Statement (.setPinState pin isHigh) := by
  refine of_row (k := 2) rfl (opField_encode _) ?_
  apply BitVec.eq_of_getLsbD_eq
  intro k hk
  simp only [BitVec.getLsbD_and, encode, BitVec.getLsbD_append]
  interval_cases k <;> simp

theorem readPin (pin : Byte) : Statement (.readPin pin) := by
  refine of_row (k := 3) rfl (opField_encode _) ?_
  apply BitVec.eq_of_getLsbD_eq
  intro k hk
  simp only [BitVec.getLsbD_and, encode, BitVec.getLsbD_append]
  interval_cases k <;> simp

theorem delay (count : Count) : Statement (.delay count) := by
  refine of_row (k := 4) rfl (opField_encode _) ?_
  apply BitVec.eq_of_getLsbD_eq
  intro k hk
  simp only [BitVec.getLsbD_and, encode, BitVec.getLsbD_append]
  interval_cases k <;> simp

theorem delayMs (count : Count) : Statement (.delayMs count) := by
  refine of_row (k := 5) rfl (opField_encode _) ?_
  apply BitVec.eq_of_getLsbD_eq
  intro k hk
  simp only [BitVec.getLsbD_and, encode, BitVec.getLsbD_append]
  interval_cases k <;> simp

theorem toggle (pin : Byte) : Statement (.toggle pin) := by
  refine of_row (k := 6) rfl (opField_encode _) ?_
  apply BitVec.eq_of_getLsbD_eq
  intro k hk
  simp only [BitVec.getLsbD_and, encode, BitVec.getLsbD_append]
  interval_cases k <;> simp

theorem jump (target : Pc) : Statement (.jump target) := by
  refine of_row (k := 7) rfl (opField_encode _) ?_
  apply BitVec.eq_of_getLsbD_eq
  intro k hk
  simp only [BitVec.getLsbD_and, encode, BitVec.getLsbD_append]
  interval_cases k <;> simp

theorem halt : Statement .halt := by
  refine of_row (k := 8) rfl (opField_encode _) ?_
  decide

end Sys2Proof.Laws.RowMatch
end

