-- ==== Sys2Proof/Laws/Ready.lean ====
section
/-!
SUPPORT. What the pin commands answer when the Port is ready (R72 with R31), and runs of several commands.
-/

namespace Sys2Proof.Machine

theorem portReady_congr {s t : State} (h : s.PortReady) (cfg : t.cfg = s.cfg) (bind : t.bind = s.bind) : t.PortReady := by
  unfold State.PortReady at *; rw [cfg, bind]; exact h

theorem setPinMode_ready {s : State} (h : s.PortReady) (p : Pin) (b : Bool) :
    exec (.setPinMode (pinOperand p) b) s =
      .next (advance (emit (.wr .dir s.bind.dirAddr (withBit s.dir p b))
        (writeDir (withBit s.dir p b) (emit (.rd .dir s.bind.dirAddr s.dir) s)))) :=
  execSetPinMode_eq_next.2 ⟨h.1, h.2.1, p, pinOf_pinOperand p, rfl⟩

theorem setPinState_ready {s : State} (h : s.PortReady) (p : Pin) (b : Bool) :
    exec (.setPinState (pinOperand p) b) s =
      .next (advance (writeLevel p (levelOfBit b) (emit (.wr .out s.bind.outAddr (withBit s.out p b))
        (writeOut (withBit s.out p b) (emit (.rd .out s.bind.outAddr s.out) s))))) :=
  (execSetPinState_eq_next h.2.2.1.symm).2 ⟨h.1, h.2.1, p, pinOf_pinOperand p, rfl⟩

theorem readPin_ready {s : State} (h : s.PortReady) (p : Pin) :
    exec (.readPin (pinOperand p)) s =
      .next (advance (writeRes (testBit (inputShown s (drawInput s).1) p)
        (emit (.rd .inp s.bind.inAddr (inputShown s (drawInput s).1)) (drawInput s).2))) :=
  (execReadPin_eq_next h.2.2.2.1.symm h.2.2.2.2.symm).2 ⟨h.1, h.2.1, p, pinOf_pinOperand p, rfl⟩

theorem toggle_ready {s : State} (h : s.PortReady) (p : Pin) {l : Level} (hl : levelOf s p = .commanded l) :
    exec (.toggle (pinOperand p)) s =
      .next (advance (writeLevel p (invert l) (emit (.wr .out s.bind.outAddr (withBit s.out p (bitOfLevel (invert l))))
        (writeOut (withBit s.out p (bitOfLevel (invert l))) (emit (.rd .out s.bind.outAddr s.out) s))))) := by
  have := (togglePort_eq_next (pin := pinOperand p) h.2.2.1.symm).2 ⟨h.2.1, p, pinOf_pinOperand p, l, hl, rfl⟩
  simp only [exec, execToggle, h.1]; exact this

theorem execSeq_append (a b : List Instr) (s : State) :
    execSeq (a ++ b) s = andThen (execSeq a s) (execSeq b) := by
  induction a generalizing s with
  | nil => rfl
  | cons i a ih =>
    simp only [List.cons_append, execSeq_cons]
    cases exec i s <;> simp [ih]

/-- One toggle and its hold (R100, R101). -/
theorem toggle_delay_ready {s : State} (h : s.PortReady) (p : Pin) {l : Level} (hl : levelOf s p = .commanded l)
    (n : Count) :
    ∃ t, execSeq [.toggle (pinOperand p), .delay n] s = .next t ∧ t.PortReady ∧
      levelOf t p = .commanded (invert l) ∧ t.out = withBit s.out p (bitOfLevel (invert l)) ∧ t.dir = s.dir ∧
      t.halted = s.halted ∧ t.bind = s.bind ∧
      t.trace = s.trace ++ [.rd .out s.bind.outAddr s.out,
        .wr .out s.bind.outAddr (withBit s.out p (bitOfLevel (invert l))), .delay n] := by
  have e := toggle_ready h p hl
  generalize hu : advance (writeLevel p (invert l) (emit (.wr .out s.bind.outAddr (withBit s.out p (bitOfLevel (invert l))))
    (writeOut (withBit s.out p (bitOfLevel (invert l))) (emit (.rd .out s.bind.outAddr s.out) s)))) = u at e
  have hr : u.PortReady := by subst hu; exact portReady_congr h rfl rfl
  have hb : u.bind = s.bind := by subst hu; rfl
  have ho : u.out = withBit s.out p (bitOfLevel (invert l)) := by subst hu; rfl
  have hs : u.dir = s.dir ∧ u.halted = s.halted := by subst hu; exact ⟨rfl, rfl⟩
  have hv : levelOf u p = .commanded (invert l) := by
    subst hu
    exact (levelOf_congr (s := writeLevel p (invert l) s) rfl p).trans (levelOf_writeLevel_self p _ s)
  have ht : u.trace = s.trace ++ [.rd .out s.bind.outAddr s.out,
      .wr .out s.bind.outAddr (withBit s.out p (bitOfLevel (invert l)))] := by subst hu; simp
  have hd := execDelay_eq_next (n := n).2 ⟨hr.1, rfl⟩
  refine ⟨advance (emit (.delay (iterations n)) u), ?_, portReady_congr hr rfl rfl, hv, ho, hs.1, hs.2, hb, ?_⟩
  · rw [execSeq_cons, e, andThen_next, execSeq_cons]
    show andThen (execDelay n _) _ = _
    rw [hd, andThen_next, execSeq_nil]
  · rw [advance_trace, emit_trace, ht]; simp [iterations]

end Sys2Proof.Machine
end

