-- ==== Sys2Proof/Laws/WellFormed.lean ====
section
/-!
SUPPORT. The check `WF_TOGGLE_AFTER_DRIVE` (spec 30_encoding.md R66) looks at `PROG_LEN` commands of the path and so
decides the whole path: the lemmas `togglesDriven_sound` and `togglesDriven_any_fuel`.
-/

namespace Sys2Proof

/-- The place and the driven pins after the command at `at_`; `none` where the path ends there. -/
def pathStep (prog : List CmdWord) (at_ : Nat) (driven : List Byte) : Option (Nat × List Byte) :=
  match prog[at_]? with
  | none => none
  | some w =>
    match decode w with
    | .invalid _ => none
    | .command i =>
      match i with
      | .construct _ _ _ => some (at_ + 1, driven)
      | .setPinMode _ _ => some (at_ + 1, driven)
      | .setPinState p _ => some (at_ + 1, p :: driven)
      | .readPin _ => some (at_ + 1, driven)
      | .delay _ => some (at_ + 1, driven)
      | .delayMs _ => some (at_ + 1, driven)
      | .toggle _ => some (at_ + 1, driven)
      | .jump t => some (t.toNat, driven)
      | .halt => none

/-- `n` commands of the path from a place and its driven pins. -/
def pathFrom (prog : List CmdWord) : (n : Nat) → Nat × List Byte → Option (Nat × List Byte)
  | 0, x => some x
  | n + 1, x => (pathFrom prog n x).bind fun y => pathStep prog y.1 y.2

theorem pathFrom_add (prog : List CmdWord) (m n : Nat) (x : Nat × List Byte) :
    pathFrom prog (m + n) x = (pathFrom prog m x).bind (pathFrom prog n) := by
  induction n with
  | zero => simp [pathFrom]
  | succ n ih =>
    rw [← Nat.add_assoc, pathFrom, ih]
    cases pathFrom prog m x <;> rfl

/-- What a step of the path does to the driven pins: nothing is lost, and the next place does not depend on them. -/
theorem pathStep_cases (prog : List CmdWord) (a : Nat) :
    (∀ d, pathStep prog a d = none) ∨
    ∃ b extra, a < prog.length ∧ ∀ d, pathStep prog a d = some (b, extra ++ d) := by
  unfold pathStep
  split
  · exact .inl fun _ => rfl
  · next w hw =>
    have ha : a < prog.length := (List.getElem?_eq_some_iff.1 hw).1
    split
    · exact .inl fun _ => rfl
    · next i _ =>
      cases i with
      | halt => exact .inl fun _ => rfl
      | setPinState p v => exact .inr ⟨a + 1, [p], ha, fun _ => rfl⟩
      | jump t => exact .inr ⟨t.toNat, [], ha, fun _ => rfl⟩
      | construct | setPinMode | readPin | delay | delayMs | toggle => exact .inr ⟨a + 1, [], ha, fun _ => rfl⟩

/-- The places of two paths from the same place agree, whatever the driven pins. -/
theorem pathFrom_place (prog : List CmdWord) (n a : Nat) (d d' : List Byte) :
    (pathFrom prog n (a, d)).map Prod.fst = (pathFrom prog n (a, d')).map Prod.fst := by
  induction n with
  | zero => rfl
  | succ n ih =>
    simp only [pathFrom]
    rcases h : pathFrom prog n (a, d) with _ | y <;> rcases h' : pathFrom prog n (a, d') with _ | z <;>
      rw [h, h'] at ih <;> simp only [Option.map_none, Option.map_some, Option.some.injEq, reduceCtorEq] at ih
    · rw [Option.bind_some, Option.bind_some, ih]
      rcases pathStep_cases prog z.1 with hn | ⟨b, extra, _, hb⟩
      · rw [hn, hn]
      · rw [hb, hb]; rfl

/-- Going further along the path only adds driven pins. -/
theorem pathFrom_grows {prog : List CmdWord} {n : Nat} {x y : Nat × List Byte}
    (h : pathFrom prog n x = some y) : x.2 ⊆ y.2 := by
  induction n generalizing y with
  | zero => cases h; exact List.Subset.refl _
  | succ n ih =>
    simp only [pathFrom, Option.bind_eq_some_iff] at h
    obtain ⟨z, hz, hs⟩ := h
    rcases pathStep_cases prog z.1 with hn | ⟨b, extra, _, hb⟩
    · rw [hn] at hs; cases hs
    · rw [hb] at hs; cases hs
      exact List.Subset.trans (ih hz) (List.subset_append_right _ _)

/-- Every place of the path is reached for the first time within `PROG_LEN` commands. -/
theorem pathFrom_early {prog : List CmdWord} {x y : Nat × List Byte} {n : Nat} (h : pathFrom prog n x = some y)
    (hy : y.1 < prog.length) : ∃ m, m < prog.length ∧ m ≤ n ∧ ∃ d, pathFrom prog m x = some (y.1, d) := by
  induction n using Nat.strong_induction_on generalizing y with
  | _ n ih =>
    by_cases hn : n < prog.length
    · exact ⟨n, hn, Nat.le_refl _, y.2, h⟩
    have all : ∀ k : Fin (n + 1), ∃ z : Nat × List Byte, pathFrom prog k.val x = some z ∧ z.1 < prog.length := by
      intro k
      have hk : pathFrom prog (k.val + (n - k.val)) x = some y := by
        rw [show k.val + (n - k.val) = n by omega]; exact h
      rw [pathFrom_add, Option.bind_eq_some_iff] at hk
      obtain ⟨z, hz, hrest⟩ := hk
      refine ⟨z, hz, ?_⟩
      rcases hlast : n - k.val with _ | r
      · rw [hlast] at hrest; cases hrest; exact hy
      · rw [hlast, Nat.add_comm r 1, pathFrom_add, Option.bind_eq_some_iff] at hrest
        obtain ⟨u, hu, _⟩ := hrest
        simp only [pathFrom, Option.bind_some] at hu
        rcases pathStep_cases prog z.1 with hn' | ⟨_, _, hlt, _⟩
        · rw [hn'] at hu; cases hu
        · exact hlt
    choose place hplace hlt using all
    obtain ⟨i, j, hij, heq⟩ := Fintype.exists_ne_map_eq_of_card_lt
      (fun k => (⟨(place k).1, hlt k⟩ : Fin prog.length)) (by simp; omega)
    have swap : ∀ i j : Fin (n + 1), i < j → (place i).1 = (place j).1 →
        ∃ m, m < prog.length ∧ m ≤ n ∧ ∃ d, pathFrom prog m x = some (y.1, d) := by
      intro i j hlt' heq'
      have hj : pathFrom prog (j.val + (n - j.val)) x = some y := by
        rw [show j.val + (n - j.val) = n by omega]; exact h
      rw [pathFrom_add, hplace, Option.bind_some] at hj
      have hi := pathFrom_place prog (n - j.val) (place i).1 (place i).2 (place j).2
      rw [heq', hj, Option.map_some, Option.map_eq_some_iff] at hi
      obtain ⟨u, hu, hfst⟩ := hi
      have hx : pathFrom prog (i.val + (n - j.val)) x = some u := by
        rw [pathFrom_add, hplace, Option.bind_some, ← hu, ← heq']
      obtain ⟨m, hm, hle, d, hd⟩ := ih (i.val + (n - j.val)) (by omega) hx (hfst ▸ hy)
      exact ⟨m, hm, by omega, d, by rw [hd, hfst]⟩
    rcases Nat.lt_or_gt_of_ne (fun e => hij (Fin.ext e) : i.val ≠ j.val) with hlt' | hgt
    · exact swap i j hlt' (by simpa using congrArg Fin.val heq)
    · exact swap j i hgt (by simpa using (congrArg Fin.val heq).symm)

/-- The check looks at every command of the path up to its fuel. -/
theorem togglesDriven_path {prog : List CmdWord} {fuel a : Nat} {d : List Byte}
    (h : togglesDriven prog fuel a d = true) {n b : Nat} {e : List Byte} {w : CmdWord} {p : Byte} (hn : n < fuel)
    (hp : pathFrom prog n (a, d) = some (b, e)) (hw : prog[b]? = some w) (hd : decode w = .command (.toggle p)) :
    p ∈ e := by
  induction fuel generalizing a d n with
  | zero => omega
  | succ fuel ih =>
    rcases n with _ | n
    · cases hp
      simp only [togglesDriven, hw, hd, Bool.and_eq_true, List.contains_iff_mem] at h
      exact h.1
    · rw [Nat.add_comm, pathFrom_add, Option.bind_eq_some_iff] at hp
      obtain ⟨z, hz, hp⟩ := hp
      simp only [pathFrom, Option.bind_some] at hz
      unfold pathStep at hz
      simp only [togglesDriven] at h
      split at hz
      · cases hz
      · next hwa =>
        split at hz
        · cases hz
        · next i hda =>
          rw [hwa] at h
          simp only [hda] at h
          cases i <;> cases hz <;> simp only [Bool.and_eq_true] at h <;>
            first
              | exact ih h (by omega) hp
              | exact ih h.2 (by omega) hp

/-- `WF_TOGGLE_AFTER_DRIVE` as R66 says it: every `toggle` on the path from index 0 is reached after a drive of its
pin, however long the path. -/
theorem togglesDriven_sound {prog : List CmdWord} (h : togglesDriven prog prog.length 0 [] = true) {n b : Nat}
    {e : List Byte} {w : CmdWord} {p : Byte} (hp : pathFrom prog n (0, []) = some (b, e)) (hw : prog[b]? = some w)
    (hd : decode w = .command (.toggle p)) : p ∈ e := by
  obtain ⟨m, hm, hle, d, hpath⟩ := pathFrom_early hp (List.getElem?_eq_some_iff.1 hw).1
  have hsplit : pathFrom prog (m + (n - m)) (0, []) = some (b, e) := by
    rw [show m + (n - m) = n by omega]; exact hp
  rw [pathFrom_add, hpath, Option.bind_some] at hsplit
  exact pathFrom_grows hsplit (togglesDriven_path h hm hpath hw hd)

/-- The path from a place goes on from the next one. -/
theorem pathFrom_cons {prog : List CmdWord} {a : Nat} {d : List Byte} {y : Nat × List Byte}
    (h : pathStep prog a d = some y) (n : Nat) : pathFrom prog (n + 1) (a, d) = pathFrom prog n y := by
  rw [Nat.add_comm, pathFrom_add]
  simp [pathFrom, h]

/-- The check passes, whatever its fuel, where every `toggle` on the path is reached after a drive of its pin. -/
theorem togglesDriven_of_path {prog : List CmdWord} {a : Nat} {d : List Byte}
    (h : ∀ n b e w p, pathFrom prog n (a, d) = some (b, e) → prog[b]? = some w →
      decode w = .command (.toggle p) → p ∈ e) (fuel : Nat) : togglesDriven prog fuel a d = true := by
  induction fuel generalizing a d with
  | zero => rfl
  | succ fuel ih =>
    unfold togglesDriven
    split
    · rfl
    · next w hw =>
      split
      · rfl
      · next i hi =>
        cases i <;> simp only [Bool.and_eq_true]
        case toggle p =>
          refine ⟨by simpa using h 0 _ _ _ _ rfl hw hi, ih fun n b e w p hp => h (n + 1) b e w p ?_⟩
          exact (pathFrom_cons (by simp only [pathStep, hw, hi]) n).trans hp
        all_goals
          refine ih fun n b e w p hp => h (n + 1) b e w p ?_
          exact (pathFrom_cons (by simp only [pathStep, hw, hi]) n).trans hp

/-- What `PROG_LEN` commands of the path pass, any number of them pass. -/
theorem togglesDriven_any_fuel {prog : List CmdWord} (h : togglesDriven prog prog.length 0 [] = true) (fuel : Nat) :
    togglesDriven prog fuel 0 [] = true :=
  togglesDriven_of_path (fun _ _ _ _ _ hp hw hd => togglesDriven_sound h hp hw hd) fuel

end Sys2Proof
end

