-- ==== Sys2Proof/Machine/Assembler.lean ====
section
/-!
DEFINITION. The assembler (spec 30_encoding.md R63, R64): text to commands, with labels and the three
pseudo-instructions. What R63 leaves open of the notation (spaces, names, repeated labels, numbers too large for their
field) is in notes/assumptions/26; DESIGN CHOICE, safe: an unclear line is rejected.
-/

namespace Sys2Proof.Machine

/-- A space, a tab or a carriage return. -/
def isBlank (c : Char) : Bool := c == ' ' || c == '\t' || c == '\r'

/-- The text without blanks at either end. -/
def trim (cs : List Char) : List Char :=
  ((cs.dropWhile isBlank).reverse.dropWhile isBlank).reverse

/-- The pieces of a text between the separators `sep`. -/
def splitAt_ (sep : Char) : List Char → List (List Char)
  | [] => [[]]
  | c :: cs =>
    if c = sep then [] :: splitAt_ sep cs
    else
      match splitAt_ sep cs with
      | [] => [[c]]
      | piece :: rest => (c :: piece) :: rest

/-- The value of a digit in any base up to 16. -/
def digitValue (c : Char) : Option Nat :=
  if '0' ≤ c ∧ c ≤ '9' then some (c.toNat - '0'.toNat)
  else if 'a' ≤ c ∧ c ≤ 'f' then some (c.toNat - 'a'.toNat + 10)
  else if 'A' ≤ c ∧ c ≤ 'F' then some (c.toNat - 'A'.toNat + 10)
  else none

/-- The number that digits of a base spell after `acc`; `_` only separates, and at least one digit must stand. -/
def digits (base : Nat) : List Char → (acc : Nat) → (seen : Bool) → Option Nat
  | [], acc, seen => if seen then some acc else none
  | c :: cs, acc, seen =>
    if c = '_' then digits base cs acc seen
    else
      match digitValue c with
      | none => none
      | some d => if d < base then digits base cs (acc * base + d) true else none

/-- A number: decimal, `0x` hexadecimal or `0b` binary (R63). -/
def number : List Char → Option Nat
  | '0' :: 'x' :: cs => digits 16 cs 0 false
  | '0' :: 'b' :: cs => digits 2 cs 0 false
  | '_' :: _ => none
  | cs => digits 10 cs 0 false

/-- A number that fits a field of `w` bits (R59). -/
def field (w : Nat) (cs : List Char) : Option (BitVec w) :=
  match number cs with
  | none => none
  | some n => if n < 2 ^ w then some (BitVec.ofNat w n) else none

/-- A boolean operand: `true` or `false`, also `1` or `0` (R63). -/
def boolean (cs : List Char) : Option Bool :=
  if cs = "true".toList ∨ cs = "1".toList then some true
  else if cs = "false".toList ∨ cs = "0".toList then some false
  else none

/-- A character that may begin a name. -/
def nameStart (c : Char) : Bool := ('a' ≤ c && c ≤ 'z') || ('A' ≤ c && c ≤ 'Z') || c == '_'

/-- A character that may stand inside a name. -/
def nameChar (c : Char) : Bool := nameStart c || ('0' ≤ c && c ≤ '9')

/-- The text is a name. -/
def isName : List Char → Bool
  | [] => false
  | c :: cs => nameStart c && cs.all nameChar

/-- The target of a `jump`: a number or a label (R63). -/
inductive Target where
  | index (t : Pc)
  | label (name : List Char)
deriving DecidableEq, Repr

/-- What one line holds besides its label. -/
inductive Stmt where
  | command (i : Instr)
  | jump (t : Target)
  | loopInit (p : Byte)
  | loopUniform (p : Byte) (d : Count)
  | loopPatterned (p : Byte) (s l : Count)
deriving DecidableEq, Repr

/-- A jump target as written. -/
def target (cs : List Char) : Option Target :=
  if isName cs then some (.label cs) else (field 32 cs).map .index

/-- A mnemonic with its operands, in the source's argument order (R63, R64). -/
def statement (mnemonic : List Char) (operands : List (List Char)) : Option Stmt :=
  if mnemonic = "construct".toList then
    match operands with
    | [d, o, i] => do return .command (.construct (← field 16 d) (← field 16 o) (← field 16 i))
    | _ => none
  else if mnemonic = "set_pin_mode".toList then
    match operands with
    | [p, b] => do return .command (.setPinMode (← field 8 p) (← boolean b))
    | _ => none
  else if mnemonic = "set_pin_state".toList then
    match operands with
    | [p, b] => do return .command (.setPinState (← field 8 p) (← boolean b))
    | _ => none
  else if mnemonic = "read_pin".toList then
    match operands with
    | [p] => do return .command (.readPin (← field 8 p))
    | _ => none
  else if mnemonic = "delay".toList then
    match operands with
    | [n] => do return .command (.delay (← field 32 n))
    | _ => none
  else if mnemonic = "delay_ms".toList then
    match operands with
    | [n] => do return .command (.delayMs (← field 32 n))
    | _ => none
  else if mnemonic = "toggle".toList then
    match operands with
    | [p] => do return .command (.toggle (← field 8 p))
    | _ => none
  else if mnemonic = "jump".toList then
    match operands with
    | [t] => do return .jump (← target t)
    | _ => none
  else if mnemonic = "halt".toList then
    match operands with
    | [] => some (.command .halt)
    | _ => none
  else if mnemonic = "loop_init".toList then
    match operands with
    | [p] => do return .loopInit (← field 8 p)
    | _ => none
  else if mnemonic = "loop_uniform".toList then
    match operands with
    | [p, d] => do return .loopUniform (← field 8 p) (← field 32 d)
    | _ => none
  else if mnemonic = "loop_patterned".toList then
    match operands with
    | [p, s, l] => do return .loopPatterned (← field 8 p) (← field 32 s) (← field 32 l)
    | _ => none
  else none

/-- The operands of a line: nothing, or pieces between commas (R63). -/
def operandsOf (cs : List Char) : List (List Char) :=
  if (trim cs).isEmpty then [] else (splitAt_ ',' cs).map trim

/-- The command part of a line, blanks removed at both ends: nothing, or a mnemonic, a space and the operands. -/
def lineStatement (cs : List Char) : Option (Option Stmt) :=
  if cs.isEmpty then some none
  else
    (statement (cs.takeWhile fun c => !isBlank c) (operandsOf (cs.dropWhile fun c => !isBlank c))).map some

/-- One line (R63): a comment runs from `;` to its end; a label is a name followed by `:` at its start. -/
def line (cs : List Char) : Option (Option (List Char) × Option Stmt) :=
  let code := trim (cs.takeWhile fun c => c != ';')
  let name := code.takeWhile nameChar
  match code.dropWhile nameChar with
  | ':' :: rest => if isName name then (lineStatement (trim rest)).map fun st => (some name, st) else none
  | _ => (lineStatement code).map fun st => (none, st)

/-- Every line of a text, or nothing where one is not understood. -/
def parseLines : List (List Char) → Option (List (Option (List Char) × Option Stmt))
  | [] => some []
  | l :: ls =>
    match line l, parseLines ls with
    | some x, some xs => some (x :: xs)
    | _, _ => none

/-- How many commands a line stands for. -/
def sizeOf_ : Option Stmt → Nat
  | none => 0
  | some (.command _) => 1
  | some (.jump _) => 1
  | some (.loopInit _) => 2
  | some (.loopUniform _ _) => 5
  | some (.loopPatterned _ _ _) => 10

/-- The labels with the index of the next command (R63), the first line standing at `here`. -/
def labelsFrom : (here : Nat) → List (Option (List Char) × Option Stmt) → List (List Char × Nat)
  | _, [] => []
  | here, (some name, st) :: rest => (name, here) :: labelsFrom (here + sizeOf_ st) rest
  | here, (none, st) :: rest => labelsFrom (here + sizeOf_ st) rest

/-- The commands of one line (R63, R64); `loop_init` belongs to the port binding alone (R98, R104). -/
def expand (b : Binding) (labels : List (List Char × Nat)) (here : Nat) : Option Stmt → Option (List Instr)
  | none => some []
  | some (.command i) => some [i]
  | some (.jump (.index t)) => some [.jump t]
  | some (.jump (.label name)) =>
    match labels.find? fun l => l.1 = name with
    | none => none
    | some l => if l.2 < 2 ^ 32 then some [.jump (BitVec.ofNat 32 l.2)] else none
  | some (.loopInit p) =>
    match b with
    | .port => some (loopInit p)
    | .capability => none
  | some (.loopUniform p d) => some (loopUniform b p d (BitVec.ofNat 32 here))
  | some (.loopPatterned p s l) => some (loopPatterned b p s l (BitVec.ofNat 32 here))

/-- The commands of every line, the first standing at `here`. -/
def expandAll (b : Binding) (labels : List (List Char × Nat)) :
    (here : Nat) → List (Option (List Char) × Option Stmt) → Option (List Instr)
  | _, [] => some []
  | here, (_, st) :: rest =>
    match expand b labels here st, expandAll b labels (here + sizeOf_ st) rest with
    | some is, some js => some (is ++ js)
    | _, _ => none

/-- Assemble a text under a binding: parse every line, place the labels, expand. A label defined twice is rejected. -/
def assemble (b : Binding) (text : List Char) : Option (List Instr) :=
  match parseLines (splitAt_ '\n' text) with
  | none => none
  | some ls =>
    let labels := labelsFrom 0 ls
    if (labels.map Prod.fst).Nodup then expandAll b labels 0 ls else none

end Sys2Proof.Machine
end

