-- ==== Sys2Proof/Tests/Slice0.lean ====
section
/-!
SUPPORT. The author's own tests. Words and expected values are those of spec 95_test_vectors.md (the table is named at
each group); `test_…` checks the model against them, `witness_…` shows that a statement's hypotheses can be met.
-/

namespace Sys2Proof.Tests

open Sys2Proof Sys2Proof.Machine

/-! ## Small states -/

/-- The synthetic addresses of the test vectors. -/
def synthetic : Bind := { bound := true, dirAddr := 0x0040#16, outAddr := 0x0050#16, inAddr := 0x0060#16 }

/-- A bound Port with the given `DIR` and `OUT`, running, with an empty program and trace. -/
def port (dir out : Byte) : State := { State.reset with bind := synthetic, dir := dir, out := out }

/-- The same under LOOPBACK. -/
def looped (dir out : Byte) : State :=
  { port dir out with cfg := { Config.resetLaunch with loopback := true } }

/-- A Port on which pin `p` was last commanded `l`. -/
def commandedPort (p : Pin) (l : Level) (dir out : Byte) : State := writeLevel p l (port dir out)

/-- The launch of program P6: capability binding, `LOOP_PIN = 2`, `LEVEL0 = HIGH`. -/
def capabilityLaunch : Launch := { Config.resetLaunch with binding := .capability, loopPin := 2 }

/-- The start state of that launch, with scripted toggle results. -/
def capability (results : List Bool) : State :=
  State.launch capabilityLaunch [] { Env.free with toggles := results }

/-- The state with a program. -/
def withProgram (ws : List CmdWord) (s : State) : State := { s with prog := ws }

/-- A launch that admits environment faults, with the answers scripted. -/
def faulty (ws : List CmdWord) (answers : List Bool) : State :=
  State.launch { Config.resetLaunch with envFaults := true } ws { Env.free with faults := answers }

/-- A launch in which 0x0070 is no valid address. -/
def narrow : State :=
  State.launch { Config.resetLaunch with validAddr := [⟨0x0040#16, 0x006F#16⟩, ⟨0x0071#16, 0xFFFF#16⟩] } [] Env.free

/-- The next state, where there is one. -/
def nextOf : Result State → Option State
  | .next t => some t
  | .fault _ => none
  | .refused _ => none

/-- The refusal, where there is one. -/
def refusalOf : Result State → Option Refusal
  | .next _ => none
  | .fault _ => none
  | .refused r => some r

theorem synthetic_separate : synthetic.Separate := by unfold Bind.Separate; decide

theorem port_ready (dir out : Byte) : (port dir out).PortReady := ⟨rfl, rfl, synthetic_separate⟩

theorem looped_ready (dir out : Byte) : (looped dir out).PortReady := ⟨rfl, rfl, synthetic_separate⟩

theorem commandedPort_ready (p : Pin) (l : Level) (dir out : Byte) : (commandedPort p l dir out).PortReady :=
  ⟨rfl, rfl, synthetic_separate⟩

/-! ## Decoding: words written out from the formats (V-ENC) -/

theorem test_decode_construct :
    decode 0x0100004000500060#64 = .command (.construct 0x0040#16 0x0050#16 0x0060#16) := by decide
theorem test_decode_setPinMode : decode 0x0200000000000701#64 = .command (.setPinMode 7#8 true) := by decide
theorem test_decode_setPinState : decode 0x0300000000000501#64 = .command (.setPinState 5#8 true) := by decide
theorem test_decode_readPin : decode 0x0400000000000700#64 = .command (.readPin 7#8) := by decide
theorem test_decode_delay : decode 0x05000000FFFFFFFF#64 = .command (.delay 4294967295#32) := by decide
theorem test_decode_delayMs : decode 0x06000000000001F4#64 = .command (.delayMs 500#32) := by decide
theorem test_decode_toggle : decode 0x0700000000000500#64 = .command (.toggle 5#8) := by decide
theorem test_decode_jump : decode 0x0800000000000003#64 = .command (.jump 3#32) := by decide
theorem test_decode_halt : decode 0x0900000000000000#64 = .command .halt := by decide
theorem test_decode_pin_above_seven : decode 0x020000000000FF01#64 = .command (.setPinMode 255#8 true) := by decide

/-- V-ILL. -/
theorem test_decode_invalid :
    decode 0x0000000000000000#64 = .invalid .undefinedOpcode ∧
    decode 0xFFFFFFFFFFFFFFFF#64 = .invalid .undefinedOpcode ∧
    decode 0x0A00000000000000#64 = .invalid .undefinedOpcode ∧
    decode 0x0200000000000502#64 = .invalid .mustBeZeroBitSet ∧
    decode 0x0201000000000501#64 = .invalid .mustBeZeroBitSet ∧
    decode 0x0400000000000301#64 = .invalid .mustBeZeroBitSet ∧
    decode 0x0500000100000000#64 = .invalid .mustBeZeroBitSet ∧
    decode 0x0101004000500060#64 = .invalid .mustBeZeroBitSet ∧
    decode 0x0900000000000001#64 = .invalid .mustBeZeroBitSet := by decide

/-- The byte streams under V-ENC. -/
theorem test_byte_order :
    wordBytes 0x0200000000000501#64 = [0x01#8, 0x05#8, 0#8, 0#8, 0#8, 0#8, 0#8, 0x02#8] ∧
    wordBytes 0x05000000000003E8#64 = [0xE8#8, 0x03#8, 0#8, 0#8, 0#8, 0#8, 0#8, 0x05#8] ∧
    programOfBytes [0x01#8, 0x05#8, 0#8, 0#8, 0#8, 0#8, 0#8, 0x02#8] = some [0x0200000000000501#64] ∧
    programOfBytes [0x01#8] = none := by decide

theorem test_table_word : decodeTableWord 64 0x0300000000000501 = some (.setPinState 5#8 true) ∧
    decodeTableWord 64 0x0900000000000001 = none := by decide

/-- `step` runs a placed word first after reset. -/
theorem test_fetch_word :
    ((nextOf (step (State.reset.withFetchWord 64 0x0500000000000003))).map fun t => (t.trace, t.pc)) =
      some ([.delay 3#32], 1#32) := by decide

/-! ## Well-formedness: the eight checks (R66) -/

/-- Program P1. -/
def programP1 : List CmdWord :=
  [0x0100004000500060#64, 0x0200000000000501#64, 0x0300000000000501#64, 0x0900000000000000#64]

/-- Program P6. -/
def programP6 : List CmdWord :=
  [0x0700000000000200#64, 0x06000000000001F4#64, 0x0700000000000200#64, 0x06000000000001F4#64, 0x0800000000000000#64]

theorem test_wf_accepts : wellFormed Config.resetLaunch programP1 = true ∧
    wellFormed capabilityLaunch programP6 = true := by decide

theorem test_wf_refuses_len : Check.len.holds Config.resetLaunch [] = false := by decide
theorem test_wf_refuses_decodes : Check.decodes.holds Config.resetLaunch [0x0A00000000000000#64] = false := by decide
theorem test_wf_refuses_binding : Check.binding.holds Config.resetLaunch [0x06000000000001F4#64] = false ∧
    Check.binding.holds capabilityLaunch programP1 = false := by decide
theorem test_wf_refuses_constructFirst : Check.constructFirst.holds Config.resetLaunch [0x0900000000000000#64] = false ∧
    Check.constructFirst.holds Config.resetLaunch [0x0100004000500060#64, 0x0100004000500060#64] = false := by decide
theorem test_wf_refuses_addr : Check.addr.holds Config.resetLaunch [0x0100004000400060#64] = false ∧
    Check.addr.holds narrow.cfg [0x0100004000500070#64] = false := by decide
/-- Program P7. -/
theorem test_wf_refuses_pinRange : Check.pinRange.holds Config.resetLaunch
    [0x0100004000500060#64, 0x0200000000000801#64, 0x0900000000000000#64] = false ∧ Instr.wf (.toggle 8#8) = false := by
  decide
theorem test_wf_refuses_jumpTarget : Check.jumpTarget.holds Config.resetLaunch [0x0800000000000001#64] = false := by
  decide
theorem test_wf_refuses_toggleAfterDrive : Check.toggleAfterDrive.holds Config.resetLaunch
    [0x0100004000500060#64, 0x0300000000000501#64, 0x0700000000000400#64] = false ∧
    Check.toggleAfterDrive.holds capabilityLaunch [0x0700000000000300#64] = false := by decide

/-! ## One step each -/

/-- V-CONS rows 1 to 3. -/
theorem test_construct :
    (nextOf (exec (.construct 0x0060#16 0x0040#16 0x0050#16) State.reset)).map (fun t => (t.bind, t.trace, t.pc)) =
      some (⟨true, 0x0060#16, 0x0040#16, 0x0050#16⟩, [], 1#32) ∧
    refusalOf (exec (.construct 0x0040#16 0x0050#16 0x0040#16) State.reset) = some .overlappingAddresses := by decide
/-- V-CONS rows 5, 6, 8. -/
theorem test_construct_refused :
    refusalOf (exec (.construct 0x0040#16 0x0050#16 0x0070#16) narrow) = some .invalidAddress ∧
    refusalOf (exec (.construct 0x0040#16 0x0050#16 0x0060#16) (port 0 0)) = some .secondConstruct ∧
    refusalOf (exec (.construct 0x0040#16 0x0050#16 0x0060#16) (capability [])) = some .wrongBinding := by decide

/-- V-RMW rows 6, 11 and "already clear: write still performed". -/
theorem test_setPinMode :
    (nextOf (exec (.setPinMode 7#8 true) (port 0x7F#8 0x11#8))).map (fun t => (t.dir, t.out)) = some (0xFF#8, 0x11#8) ∧
    (nextOf (exec (.setPinMode 5#8 false) (port 0xA5#8 0x00#8))).map (fun t => t.dir) = some 0x85#8 ∧
    (nextOf (exec (.setPinMode 1#8 false) (port 0xA5#8 0x00#8))).map (fun t => t.trace) =
      some [.rd .dir 0x0040#16 0xA5#8, .wr .dir 0x0040#16 0xA5#8] := by decide
theorem test_setPinMode_refused :
    refusalOf (exec (.setPinMode 8#8 true) (port 0 0)) = some .pinOutOfRange ∧
    refusalOf (exec (.setPinMode 5#8 true) State.reset) = some .portNotConstructed := by decide

/-- V-RMW rows 4, 10, 12. -/
theorem test_setPinState :
    (nextOf (exec (.setPinState 0#8 false) (port 0x33#8 0xFF#8))).map (fun t => (t.out, t.dir)) = some (0xFE#8, 0x33#8) ∧
    (nextOf (exec (.setPinState 1#8 true) (port 0x00#8 0xA5#8))).map (fun t => t.out) = some 0xA7#8 ∧
    (nextOf (exec (.setPinState 4#8 false) (port 0x00#8 0x5A#8))).map (fun t => (t.out, levelOf t 4, levelOf t 3)) =
      some (0x4A#8, .commanded .low, .unset) := by decide
theorem test_setPinState_refused :
    refusalOf (exec (.setPinState 255#8 true) (port 0 0)) = some .pinOutOfRange := by decide

/-- V-READ rows 2 and 5. -/
theorem test_readPin :
    (nextOf (exec (.readPin 5#8) { port 0 0 with env := { Env.free with inputs := [0xDF#8] } })).map
      (fun t => (t.res, t.trace)) = some (.written false, [.rd .inp 0x0060#16 0xDF#8]) ∧
    (nextOf (exec (.readPin 7#8) { port 0 0 with env := { Env.free with inputs := [0x80#8] } })).map (fun t => t.res) =
      some (.written true) := by decide
/-- The reads of program P4: raw answers 0xFF, seen as 0xFF and as 0xF7. -/
theorem test_readPin_loopback :
    (nextOf (exec (.readPin 3#8) { looped 0x08#8 0x00#8 with env := { Env.free with inputs := [0xFF#8] } })).map
      (fun t => (t.res, t.trace)) = some (.written false, [.rd .inp 0x0060#16 0xF7#8]) := by decide

/-- V-DELAY rows 6, 3 and 7. -/
theorem test_delay :
    (nextOf (exec (.delay 10#32) State.reset)).map (fun t => (t.trace, t.pc)) = some ([.delay 10#32], 1#32) ∧
    countedLoop 3#32 5 0#32 = (3, 3#32) ∧
    refusalOf (exec (.delay 10#32) (capability [])) = some .wrongBinding := by decide

/-- V-DELAY rows 9 and 10. -/
theorem test_delayMs :
    (nextOf (exec (.delayMs 0#32) (capability []))).map (fun t => (t.trace, t.pc)) = some ([.delayMs 0#32], 1#32) ∧
    refusalOf (exec (.delayMs 500#32) State.reset) = some .wrongBinding := by decide

/-- V-TOG rows 3, 5, 6. -/
theorem test_toggle_port :
    (nextOf (exec (.toggle 5#8) (commandedPort 5 .high 0x20#8 0x62#8))).map (fun t => (t.out, levelOf t 5, t.trace)) =
      some (0x42#8, .commanded .low, [.rd .out 0x0050#16 0x62#8, .wr .out 0x0050#16 0x42#8]) ∧
    refusalOf (exec (.toggle 5#8) (port 0 0)) = some .toggleBeforeDrive ∧
    refusalOf (exec (.toggle 9#8) (port 0 0)) = some .pinOutOfRange := by decide
/-- V-TOG under the capability binding. -/
theorem test_toggle_capability :
    (nextOf (exec (.toggle 2#8) (capability [true]))).map (fun t => (levelOf t 2, t.trace, t.pc)) =
      some (.commanded .low, [.capToggle 2 true], 1#32) ∧
    (nextOf (exec (.toggle 2#8) (capability [false]))).map (fun t => (levelOf t 2, t.trace, t.halted, causeCode t.cause, t.pc)) =
      some (.commanded .high, [.capToggle 2 false, .halt .toggleFailed], true, 2#3, 0#32) := by decide

/-- V-CTL rows 1 and 3. -/
theorem test_jump :
    (nextOf (exec (.jump 3#32) { State.reset with pc := 7#32 })).map (fun t => (t.pc, t.trace, t.halted)) =
      some (3#32, [], false) ∧
    (nextOf (step (withProgram (programP6.take 3) { State.reset with pc := 3#32 }))).map
      (fun t => (t.pc, t.trace, t.halted, causeCode t.cause)) = some (3#32, [.halt .fetchOutOfRange], true, 4#3) := by
  decide

/-- V-CTL rows 4 and 5. -/
theorem test_halt :
    (nextOf (exec .halt { State.reset with pc := 3#32 })).map (fun t => (t.pc, t.trace, t.halted, causeCode t.cause)) =
      some (3#32, [.halt .softwareHalt], true, 1#3) ∧
    nextOf (step (withProgram programP1 { State.reset with halted := true, cause := .softwareHalt })) =
      some (withProgram programP1 { State.reset with halted := true, cause := .softwareHalt }) := by decide

/-- "Executing any of them", after V-ILL. -/
theorem test_illegal_word :
    (nextOf (step (withProgram [0x0200000000000502#64] State.reset))).map
      (fun t => (t.pc, t.trace, t.halted, causeCode t.cause, t.dir)) =
      some (0#32, [.halt .illegalCommand], true, 3#3, 0#8) := by decide

/-- R33: the write that no command performs. -/
theorem test_write_to_input : refusalOf (memWrite 0x0060#16 0#8 (port 0 0)) = some .writeToInputRegister := by decide

/-- `PAD[5]` between the two writes of program P1, and after them. -/
theorem test_pad : pad (port 0x20#8 0x00#8) 0xFF#8 5 = .low ∧ pad (port 0x20#8 0x20#8) 0x00#8 5 = .high ∧
    pad (port 0x00#8 0x20#8) 0x00#8 5 = .low := by decide

/-! ## The assembler (R63, R64; programs P1 and P2) -/

theorem test_assemble_P1 :
    (assemble .port "construct 0x0040, 0x0050, 0x0060 ; S1\nset_pin_mode 5, true\nset_pin_state 5, 1\nhalt".toList).map
      (fun is => is.map encode) = some programP1 := by decide

theorem test_assemble_pseudo :
    (assemble .port "loop_init 5\nL: loop_uniform 5, 1_000\njump L".toList).map (fun is => is.map encode) =
      some [0x0200000000000501#64, 0x0300000000000501#64, 0x0700000000000500#64, 0x05000000000003E8#64,
        0x0700000000000500#64, 0x05000000000003E8#64, 0x0800000000000002#64, 0x0800000000000002#64] := by decide

theorem test_assemble_rejects : assemble .port "jump nowhere".toList = none ∧
    assemble .capability "loop_init 5".toList = none := by decide

/-! ## Witnesses: each statement's hypotheses, met by concrete values -/

/-- A word of the first row and one of the last, a word with no row, a word with a must-be-zero bit set. -/
theorem witness_DecodeAndEncodeAgree :
    decode 0x020000000000FF01#64 = .command (.setPinMode 255#8 true) ∧
    decode 0x0900000000000000#64 = .command .halt ∧
    (rows.all fun r => r.op != opField 0x0A00000000000000#64) = true ∧
    (rows.any fun r => r.op == opField 0x0900000000000001#64) = true := by decide

/-- The bounds of the opcode clauses, one word for each must-be-zero clause, the step's hypotheses, pins 8 and 255. -/
theorem witness_IllegalWordsAreExactlyThese :
    opField 0x00FFFFFFFFFFFFFF#64 = 0x00#8 ∧ 0x0A#8 ≤ opField 0x0A00000000000000#64 ∧
    ¬ 0x0A#8 ≤ opField 0x0900000000000000#64 ∧
    (opField 0x0180004000500060#64 = 0x01#8 ∧ 0x0180004000500060#64 &&& 0x00FF000000000000#64 ≠ 0#64) ∧
    (opField 0x0300000000010000#64 = 0x03#8 ∧ 0x0300000000010000#64 &&& 0x00FFFFFFFFFF00FE#64 ≠ 0#64) ∧
    (opField 0x0700000000000080#64 = 0x07#8 ∧ 0x0700000000000080#64 &&& 0x00FFFFFFFFFF00FF#64 ≠ 0#64) ∧
    (opField 0x0800000100000000#64 = 0x08#8 ∧ 0x0800000100000000#64 &&& 0x00FFFFFF00000000#64 ≠ 0#64) ∧
    (opField 0x0980000000000000#64 = 0x09#8 ∧ 0x0980000000000000#64 &&& 0x00FFFFFFFFFFFFFF#64 ≠ 0#64) ∧
    ((withProgram [0#64] State.reset).halted = false ∧ (withProgram [0#64] State.reset).cfg.envFaults = false ∧
      (withProgram [0#64] State.reset).prog[(withProgram [0#64] State.reset).pc.toNat]? = some 0#64 ∧
      decode 0#64 = .invalid .undefinedOpcode) ∧
    ((faulty [0#64] [false]).halted = false ∧ (faulty [0#64] [false]).cfg.envFaults = true ∧
      (faulty [0#64] [false]).env.faults = false :: [] ∧ (faulty [0#64] [false]).prog[0]? = some 0#64) ∧
    7 < (8#8).toNat ∧ 7 < (255#8).toNat := by decide

theorem witness_OperandsAreTheFieldValues :
    Instr.wf (.setPinMode 8#8 true) = false ∧ Instr.wf (.toggle 255#8) = false ∧
    decode 0x0100FFFF00001234#64 = .command (.construct 0xFFFF#16 0x0000#16 0x1234#16) ∧
    decode 0x020000000000FF01#64 = .command (.setPinMode 255#8 true) ∧
    decode 0x0300000000000000#64 = .command (.setPinState 0#8 false) ∧
    decode 0x040000000000FF00#64 = .command (.readPin 255#8) ∧
    decode 0x0700000000000000#64 = .command (.toggle 0#8) ∧
    decode 0x05000000FFFFFFFF#64 = .command (.delay 4294967295#32) ∧
    decode 0x0600000000000000#64 = .command (.delayMs 0#32) ∧
    decode 0x08000000FFFFFFFF#64 = .command (.jump 4294967295#32) := by decide

theorem witness_ByteStreamsGiveTheProgramBack : (0 < 8 ∧ (wordBytes 0x0200000000000501#64)[0]? = some 0x01#8) ∧
    (7 < 8 ∧ (wordBytes 0x0200000000000501#64)[7]? = some 0x02#8) := by decide

/-- A running state whose next word is a command, for each of the three clauses. -/
theorem witness_StepRunsTheDecodedCommand :
    decode 0x0900000000000000#64 = .command .halt ∧
    ((withProgram [0x0900000000000000#64] State.reset).halted = false ∧
      (withProgram [0x0900000000000000#64] State.reset).prog[0]? = some 0x0900000000000000#64 ∧
      (withProgram [0x0900000000000000#64] State.reset).cfg.envFaults = false) ∧
    ((faulty [0x0900000000000000#64] [false]).halted = false ∧
      (faulty [0x0900000000000000#64] [false]).prog[0]? = some 0x0900000000000000#64 ∧
      (faulty [0x0900000000000000#64] [false]).cfg.envFaults = true ∧
      (faulty [0x0900000000000000#64] [false]).env.faults = false :: []) ∧
    ((faulty [0x0900000000000000#64] []).halted = false ∧
      (faulty [0x0900000000000000#64] []).prog[0]? = some 0x0900000000000000#64 ∧
      (faulty [0x0900000000000000#64] []).cfg.envFaults = true ∧
      (faulty [0x0900000000000000#64] []).env.faults = []) := by decide

theorem witness_BoundaryFaultsAreTakenInOrder :
    ((faulty [] [true]).halted = false ∧ (faulty [] [true]).cfg.envFaults = true ∧
      (faulty [] [true]).env.faults = true :: []) ∧
    (State.reset.halted = false ∧ State.reset.cfg.envFaults = false ∧ State.reset.prog.length ≤ State.reset.pc.toNat) ∧
    ((faulty [] [false]).cfg.envFaults = true ∧ (faulty [] [false]).env.faults = false :: [] ∧
      (faulty [] [false]).prog.length ≤ (faulty [] [false]).pc.toNat) ∧
    ((faulty [0#64] [false]).env.faults = false :: [] ∧ (faulty [0#64] [false]).prog[0]? = some 0#64) ∧
    ((faulty [] []).halted = false ∧ (faulty [] []).cfg.envFaults = true ∧ (faulty [] []).env.faults = [] ∧
      (faulty [] []).prog.length ≤ (faulty [] []).pc.toNat) ∧
    ((faulty [0#64] []).env.faults = [] ∧ (faulty [0#64] []).prog[0]? = some 0#64) ∧
    ((withProgram [0#64] State.reset).prog[0]? = some 0#64 ∧ decode 0#64 = .invalid .undefinedOpcode) := by decide

/-- An admitted binding and a refused one, each way round. -/
theorem witness_CommandWordsMatchTheirRow :
    refusalOf (exec (.readPin 0#8) (capability [])) = some .wrongBinding ∧
    refusalOf (exec (.delayMs 0#32) State.reset) = some .wrongBinding ∧
    (rows.all fun r => 0x0A00000000000000#64 &&& r.mask != r.bits) = true := by decide

theorem witness_HaltedForEver : (raiseFault .softwareHalt State.reset).halted = true := rfl

/-- Each cause by which a running block halts in one step. -/
theorem witness_FaultsArePrecise :
    (∃ t, step State.reset = .next t ∧ t.halted = true ∧ t.cause = .fetchOutOfRange) ∧
    (∃ t, step (withProgram [0#64] State.reset) = .next t ∧ t.halted = true ∧ t.cause = .illegalCommand) ∧
    (∃ t, step (withProgram [0x0900000000000000#64] State.reset) = .next t ∧ t.halted = true ∧
      t.cause = .softwareHalt) ∧
    (∃ t, step (faulty [] [true]) = .next t ∧ t.halted = true ∧ t.cause = .envFault) ∧
    (∃ t, step (withProgram programP6 (capability [false])) = .next t ∧ t.halted = true ∧ t.cause = .toggleFailed) ∧
    (withProgram programP6 (capability [false])).halted = false :=
  ⟨⟨_, rfl, rfl, rfl⟩, ⟨_, rfl, rfl, rfl⟩, ⟨_, rfl, rfl, rfl⟩, ⟨_, rfl, rfl, rfl⟩, ⟨_, rfl, rfl, rfl⟩, rfl⟩

theorem witness_StepsOnlyExtendHistory :
    (∃ t, step (withProgram [0x0200000000000501#64] (port 0 0)) = .next t ∧ t.trace ≠ []) ∧
    (withProgram [0x0200000000000501#64] (port 0 0)).bind.bound = true := ⟨⟨_, rfl, by decide⟩, rfl⟩

/-- A halting command, a jump, another command; a program of one command. -/
theorem witness_ProgramCounterRule :
    (∃ t, step State.reset = .next t ∧ t.halted = true) ∧ State.reset.prog.length ≤ State.reset.pc.toNat ∧
    (∃ t, exec .halt State.reset = .next t ∧ t.halted = true) ∧
    (∃ t, exec (.jump 0xFFFFFFFF#32) State.reset = .next t ∧ t.halted = false) ∧
    (∃ t, exec (.delay 1#32) State.reset = .next t ∧ t.halted = false) ∧ State.reset.halted = false ∧
    (withProgram [0#64] State.reset).prog.length ≤ 2 ^ 32 - 1 ∧
    (withProgram [0#64] State.reset).pc.toNat < (withProgram [0#64] State.reset).prog.length :=
  ⟨⟨_, rfl, rfl⟩, by decide, ⟨_, rfl, rfl⟩, ⟨_, rfl, rfl⟩, ⟨_, rfl, rfl⟩, rfl, by decide, by decide⟩

theorem witness_OnlyHaltEndsARunAsIntended :
    (withProgram [0x0900000000000000#64] State.reset).halted = false ∧
    ∃ t, step (withProgram [0x0900000000000000#64] State.reset) = .next t ∧ t.Final := ⟨rfl, _, rfl, rfl, rfl⟩

theorem witness_HaltedAndCause :
    ((raiseFault .softwareHalt State.reset).halted = true ∧
      ∃ t, step (raiseFault .softwareHalt State.reset) = .next t) ∧
    (State.reset.halted = false ↔ State.reset.cause = .noCause) ∧
    ∃ t, step State.reset = .next t ∧ t.halted = true := ⟨⟨rfl, _, rfl⟩, by decide, _, rfl, rfl⟩

/-- A next state of each kind of writer, from states whose binding is separate where it is bound. -/
theorem witness_EachRegisterHasItsWriters :
    synthetic.Separate ∧ State.reset.bind.bound = false ∧
    (∃ t, exec (.setPinMode 7#8 true) (port 0 0) = .next t ∧ t.dir ≠ 0#8) ∧
    (∃ t, exec (.setPinState 7#8 true) (port 0 0) = .next t ∧ t.out ≠ 0#8) ∧
    (∃ t, exec (.toggle 2#8) (capability [true]) = .next t) ∧
    (∃ t, exec (.readPin 0#8) (port 0 0) = .next t) ∧
    ∃ t, exec (.construct 0x0040#16 0x0050#16 0x0060#16) State.reset = .next t :=
  ⟨synthetic_separate, rfl, ⟨_, rfl, by decide⟩, ⟨_, rfl, by decide⟩, ⟨_, rfl⟩, ⟨_, rfl⟩, ⟨_, rfl⟩⟩

theorem witness_AccessesReadAndWriteTheRegisters :
    ((port 0xA5#8 0x5A#8).bind.bound = true ∧ (port 0xA5#8 0x5A#8).bind.Separate) ∧
    ({ port 0 0 with env := { Env.free with inputs := [0xDF#8] } } : State).env.inputs = 0xDF#8 :: [] ∧
    (port 0 0).env.inputs = [] ∧ (port 0 0).cfg.loopback = false ∧ (looped 0 0).cfg.loopback = true ∧
    (∃ v t, memRead 0x0060#16 (port 0 0) = .next (v, t)) ∧ ∃ t, memWrite 0x0050#16 1#8 (port 0 0) = .next t :=
  ⟨⟨rfl, synthetic_separate⟩, rfl, rfl, rfl, rfl, ⟨_, _, rfl⟩, ⟨_, rfl⟩⟩

theorem witness_ReadModifyWriteKeepsTheOtherBits :
    (port 0xA5#8 0x5A#8).bind.bound = true ∧ (port 0xA5#8 0x5A#8).bind.Separate ∧ (7 : Pin) ≠ 0 :=
  ⟨rfl, synthetic_separate, by decide⟩

/-- The five clauses, with each address invalid and each pair equal. -/
theorem witness_ConstructBindsOnce :
    ((State.reset.cfg.binding = .port ∧ State.reset.bind.bound = false) ∧
      (validAddress State.reset.cfg 0x0000#16 = true ∧ validAddress State.reset.cfg 0xFFFF#16 = true ∧
        validAddress State.reset.cfg 0x0060#16 = true) ∧
      (0x0000#16 ≠ 0xFFFF#16 ∧ 0x0000#16 ≠ 0x0060#16 ∧ 0xFFFF#16 ≠ 0x0060#16)) ∧
    (capability []).cfg.binding = .capability ∧
    ((port 0 0).cfg.binding = .port ∧ (port 0 0).bind.bound = true) ∧
    (narrow.cfg.binding = .port ∧ narrow.bind.bound = false ∧ validAddress narrow.cfg 0x0070#16 = false ∧
      validAddress narrow.cfg 0x0071#16 = true ∧ validAddress narrow.cfg 0x006F#16 = true ∧
      validAddress narrow.cfg 0x003F#16 = false) ∧
    (0x0040#16 = 0x0040#16 ∧ validAddress narrow.cfg 0x0040#16 = true) := by decide

/-- The hypotheses of the four pin commands: pins 0 and 7 inside, 8 and 255 outside. -/
theorem witness_SetPinModeWritesOneDirBit :
    ((port 0 0).cfg.binding = .port ∧ (port 0 0).bind.bound = true ∧ (0#8).toNat ≤ 7 ∧ (7#8).toNat ≤ 7) ∧
    (∃ t, exec (.setPinMode 7#8 false) (port 0x80#8 0) = .next t ∧ (7#8).toNat = (7 : Pin).val) ∧
    (capability []).cfg.binding = .capability ∧
    (State.reset.cfg.binding = .port ∧ State.reset.bind.bound = false) ∧ 7 < (8#8).toNat ∧ 7 < (255#8).toNat :=
  ⟨by decide, ⟨_, rfl, rfl⟩, by decide⟩

theorem witness_SetPinStateWritesOneOutBit :
    ((port 0 0).PortReady ∧ (0#8).toNat = (0 : Pin).val ∧ (7#8).toNat = (7 : Pin).val) ∧
    ((port 0 0).dir.getLsbD (7 : Pin).val = false ∧ ∃ t, exec (.setPinState 7#8 true) (port 0 0) = .next t) ∧
    (capability []).cfg.binding = .capability ∧
    (State.reset.cfg.binding = .port ∧ State.reset.bind.bound = false) ∧ 7 < (8#8).toNat :=
  ⟨⟨port_ready 0 0, rfl, rfl⟩, ⟨rfl, _, rfl⟩, rfl, ⟨rfl, rfl⟩, by decide⟩

/-- A scripted answer, a free one, and an answer under LOOPBACK. -/
theorem witness_ReadPinSamplesOneBit :
    ((port 0 0).PortReady ∧ (7#8).toNat ≤ 7) ∧
    ({ port 0 0 with env := { Env.free with inputs := [0xDF#8] } } : State).env.inputs = 0xDF#8 :: [] ∧
    ((port 0 0).env.inputs = [] ∧ Config.inputByte (port 0 0).env.draws = Config.inputByte 0) ∧
    (0xF7#8 = (if (looped 0x08#8 0x00#8).cfg.loopback then
      ((looped 0x08#8 0x00#8).out &&& (looped 0x08#8 0x00#8).dir) ||| (0xFF#8 &&& ~~~ (looped 0x08#8 0x00#8).dir)
      else 0xFF#8)) ∧
    (capability []).cfg.binding = .capability ∧
    (State.reset.cfg.binding = .port ∧ State.reset.bind.bound = false) ∧ 7 < (8#8).toNat :=
  ⟨⟨port_ready 0 0, by decide⟩, rfl, ⟨rfl, rfl⟩, by decide, rfl, ⟨rfl, rfl⟩, by decide⟩

theorem witness_SiblingsArePreserved : (port 0xA5#8 0xC3#8).PortReady ∧ (0 : Pin) ≠ 7 :=
  ⟨port_ready _ _, by decide⟩

theorem witness_SetPinStateIsIdempotent : (port 0xA4#8 0x43#8).PortReady := port_ready _ _

theorem witness_RoundTripUnderLoopback :
    ((looped 0x00#8 0x00#8).PortReady ∧ (looped 0x00#8 0x00#8).cfg.loopback = true) ∧
    (port 0x00#8 0x00#8).PortReady ∧ (port 0x00#8 0x00#8).cfg.loopback = false :=
  ⟨⟨looped_ready _ _, rfl⟩, port_ready _ _, rfl⟩

theorem witness_ReadsOfInAreFree :
    (port 0x08#8 0x08#8).PortReady ∧ (looped 0x08#8 0x08#8).PortReady ∧
    ((looped 0x08#8 0x08#8).cfg.loopback = true ∧
      ∀ q : Pin, (looped 0x08#8 0x08#8).dir.getLsbD q.val = true →
        (0xFF#8).getLsbD q.val = (looped 0x08#8 0x08#8).out.getLsbD q.val) :=
  ⟨port_ready _ _, looped_ready _ _, rfl, by decide⟩

theorem witness_PadsFollowDirAndOut :
    (port 0x80#8 0x00#8).dir.getLsbD (7 : Pin).val = true ∧ (port 0x80#8 0x00#8).dir.getLsbD (0 : Pin).val = false ∧
    (port 0x80#8 0x00#8).halted = false ∧ ∃ t, step (port 0x80#8 0x00#8) = .next t ∧ t.halted = true :=
  ⟨rfl, rfl, rfl, _, rfl, rfl⟩

theorem witness_DirectionBeforeLevelGlitch :
    (port 0x00#8 0x00#8).PortReady ∧ (port 0x00#8 0x00#8).dir.getLsbD (5 : Pin).val = false := ⟨port_ready _ _, rfl⟩

theorem witness_InputPinRemembersItsLevel :
    (port 0xFE#8 0x00#8).PortReady ∧ (port 0xFE#8 0x00#8).dir.getLsbD (0 : Pin).val = false := ⟨port_ready _ _, rfl⟩

theorem witness_PortCommandsRaiseNoFault :
    (∃ t, exec (.construct 0x0040#16 0x0050#16 0x0060#16) State.reset = .next t) ∧
    (∃ t, exec (.setPinMode 7#8 true) (port 0 0) = .next t) ∧
    (∃ t, exec (.setPinState 0#8 true) (port 0 0) = .next t) ∧ ∃ t, exec (.readPin 3#8) (port 0 0) = .next t :=
  ⟨⟨_, rfl⟩, ⟨_, rfl⟩, ⟨_, rfl⟩, ⟨_, rfl⟩⟩

theorem witness_DelayCountsAndRecords : State.reset.cfg.binding = .port ∧ (capability []).cfg.binding = .capability ∧
    (0#32).toNat ≤ 0 ∧ (3#32).toNat ≤ 3 ∧ (0xFFFFFFFF#32).toNat ≤ 4294967295 := by decide

theorem witness_ZeroDelayIsRecorded : State.reset.cfg.binding = .port := rfl

theorem witness_DelayIsMonotonic :
    State.reset.cfg.binding = .port ∧ 0#32 < 1#32 ∧ (0#32).toNat ≤ 0 ∧ (1#32).toNat ≤ 1 := by decide

theorem witness_DelayMsRecords : (capability []).cfg.binding = .capability ∧ State.reset.cfg.binding = .port := by
  decide

theorem witness_ToggleInvertsTheLevel_port :
    ((commandedPort 5 .high 0 0x20#8).PortReady ∧ (5#8).toNat = (5 : Pin).val ∧
      levelOf (commandedPort 5 .high 0 0x20#8) 5 = .commanded .high ∧
      levelOf (commandedPort 7 .low 0 0) 7 = .commanded .low) ∧
    State.reset.bind.bound = false ∧ 7 < (8#8).toNat ∧ levelOf (port 0 0) 0 = .unset ∧ (0#8).toNat = (0 : Pin).val :=
  ⟨⟨commandedPort_ready _ _ _ _, rfl, rfl, rfl⟩, rfl, by decide, rfl, rfl⟩

/-- Success, failure, a free result, a pin out of range, a pin never commanded. -/
theorem witness_ToggleInvertsTheLevel_capability :
    (capability [true]).cfg.binding = .capability ∧ (2#8).toNat = (2 : Pin).val ∧
    levelOf (capability [true]) 2 = .commanded .high ∧ (capability [true]).env.toggles = true :: [] ∧
    (capability [false]).env.toggles = false :: [] ∧ (capability []).env.toggles = [] ∧ 7 < (8#8).toNat ∧
    levelOf (capability []) 3 = .unset := by decide

theorem witness_ToggleIsSetPinStateNegated :
    (commandedPort 5 .high 0 0x20#8).cfg.binding = .port ∧ levelOf (commandedPort 5 .high 0 0x20#8) 5 = .commanded .high ∧
    levelOf (commandedPort 5 .low 0 0x00#8) 5 = .commanded .low := by decide

theorem witness_LoopInitDrivesHigh : (port 0x81#8 0x42#8).PortReady := port_ready _ _

theorem witness_LoopCommandsHaveTheRulesLength :
    Config.resetLaunch.binding = .port ∧ capabilityLaunch.binding = .capability ∧
    ((patternedSeq 1#32 9#32).steps[0]? = some ⟨true, 1#32⟩ ∧
      3 = 3 + 0 + (((patternedSeq 1#32 9#32).steps.take 0).filter fun st => st.transition).length) ∧
    ((patternedSeq 1#32 9#32).steps[4]? = some ⟨false, 9#32⟩ ∧
      11 = 3 + 4 + (((patternedSeq 1#32 9#32).steps.take 4).filter fun st => st.transition).length) := by decide

/-- R102 worked by hand: a configuration of a transition and a long hold, under both bindings. -/
theorem test_loopCommands :
    loopCommands { Config.resetLaunch with loopSeq := { first := ⟨true, 7#32⟩, rest := [⟨false, 9#32⟩] } }
        0x0040#16 0x0050#16 0x0060#16 =
      [.construct 0x0040#16 0x0050#16 0x0060#16, .setPinMode 0#8 true, .setPinState 0#8 true, .toggle 0#8, .delay 7#32,
        .delay 9#32, .jump 3#32] ∧
    loopCommands { capabilityLaunch with loopSeq := { first := ⟨false, 7#32⟩, rest := [⟨true, 9#32⟩] } }
        0x0040#16 0x0050#16 0x0060#16 =
      [.delayMs 7#32, .toggle 2#8, .delayMs 9#32, .jump 0#32] := by decide

theorem witness_UniformIteration :
    (commandedPort 5 .high 0xA1#8 0x62#8).PortReady ∧
    levelOf (commandedPort 5 .high 0xA1#8 0x62#8) 5 = .commanded .high ∧
    (commandedPort 5 .high 0xA1#8 0x62#8).out.getLsbD (5 : Pin).val = true :=
  ⟨commandedPort_ready _ _ _ _, rfl, rfl⟩

theorem witness_PatternedIteration :
    (commandedPort 5 .high 0x20#8 0x20#8).PortReady ∧
    levelOf (commandedPort 5 .high 0x20#8 0x20#8) 5 = .commanded .high ∧
    (commandedPort 5 .high 0x20#8 0x20#8).out.getLsbD (5 : Pin).val = true :=
  ⟨commandedPort_ready _ _ _ _, rfl, rfl⟩

theorem witness_ToggleOnAnInputPinReachesNoLine :
    (commandedPort 5 .low 0 0).PortReady ∧ levelOf (commandedPort 5 .low 0 0) 5 = .commanded .low :=
  ⟨commandedPort_ready _ _ _ _, rfl⟩

/-- The loop of `Config.resetLaunch`, about to run its command number `n`, with the pin's level remembered. -/
def inLoop (n : Pc) : State :=
  { commandedPort 0 .high 0x01#8 0x01#8 with
    prog := (loopCommands Config.resetLaunch 0x0040#16 0x0050#16 0x0060#16).map encode, pc := n }

theorem inLoop_holds (n : Pc) (short : n.toNat < 8) (started : 3 ≤ n.toNat) :
    (inLoop n).InLoop 0x0040#16 0x0050#16 0x0060#16 where
  running := rfl
  valid := fun _ => by
    show (validAddress Config.resetLaunch 0x0040#16 = true ∧ validAddress Config.resetLaunch 0x0050#16 = true ∧
      validAddress Config.resetLaunch 0x0060#16 = true) ∧ _
    decide
  prog := rfl
  short := by
    show ((loopCommands Config.resetLaunch 0x0040#16 0x0050#16 0x0060#16).map encode).length ≤ 2 ^ 32 - 1
    decide
  inside := short
  unbound := fun h => absurd (congrArg BitVec.toNat (show n = 0#32 from h rfl)) (by simp; omega)
  bound := fun _ _ => rfl
  driven := fun _ => by
    show levelOf (commandedPort 0 .high 0x01#8 0x01#8) 0 ≠ .unset
    decide

/-- The loop of program P6 at launch, with scripted toggle results. -/
def capabilityLoop (results : List Bool) : State :=
  State.launch capabilityLaunch
    ((loopCommands capabilityLaunch 0x0040#16 0x0050#16 0x0060#16).map encode) { Env.free with toggles := results }

theorem capabilityLoop_holds (results : List Bool) :
    (capabilityLoop results).InLoop 0x0040#16 0x0050#16 0x0060#16 where
  running := rfl
  valid := fun h => absurd (show Binding.capability = .port from h) (by decide)
  prog := rfl
  short := by
    show ((loopCommands capabilityLaunch 0x0040#16 0x0050#16 0x0060#16).map encode).length ≤ 2 ^ 32 - 1
    decide
  inside := by
    show 0 < ((loopCommands capabilityLaunch 0x0040#16 0x0050#16 0x0060#16).map encode).length
    decide
  unbound := fun _ => rfl
  bound := fun h => absurd (show Binding.capability = .port from h) (by decide)
  driven := fun _ => by
    show levelOf (capability []) 2 ≠ .unset
    decide

/-- The loop's first toggle, and its jump; the loop under the capability binding. -/
theorem witness_LoopNeverEnds :
    (inLoop 3#32).InLoop 0x0040#16 0x0050#16 0x0060#16 ∧ (inLoop 7#32).InLoop 0x0040#16 0x0050#16 0x0060#16 ∧
    (capabilityLoop []).InLoop 0x0040#16 0x0050#16 0x0060#16 :=
  ⟨inLoop_holds _ (by decide) (by decide), inLoop_holds _ (by decide) (by decide), capabilityLoop_holds _⟩

theorem witness_LoopStartsAtLaunch :
    Config.resetLaunch.binding = .port ∧
    (validAddress Config.resetLaunch 0x0040#16 = true ∧ validAddress Config.resetLaunch 0x0050#16 = true ∧
      validAddress Config.resetLaunch 0x0060#16 = true) ∧
    (0x0040#16 ≠ 0x0050#16 ∧ 0x0040#16 ≠ 0x0060#16 ∧ 0x0050#16 ≠ 0x0060#16) ∧
    (loopCommands Config.resetLaunch 0x0040#16 0x0050#16 0x0060#16).length ≤ 2 ^ 32 - 1 ∧
    capabilityLaunch.binding = .capability ∧
    (loopCommands capabilityLaunch 0x0040#16 0x0050#16 0x0060#16).length ≤ 2 ^ 32 - 1 := by decide

/-- The loop under the port binding, where no toggle can fail, and under the capability binding with a success scripted
next: NoToggleFailure there also speaks of free values, of which nothing can be shown. -/
theorem witness_LoopKeepsRunning :
    (inLoop 3#32).InLoop 0x0040#16 0x0050#16 0x0060#16 ∧ NoEnvFaults (inLoop 3#32).cfg ∧
    NoToggleFailure (inLoop 3#32).cfg (inLoop 3#32).env ∧
    (capabilityLoop [true]).InLoop 0x0040#16 0x0050#16 0x0060#16 ∧ NoEnvFaults (capabilityLoop [true]).cfg ∧
    (capabilityLoop [true]).cfg.binding = .capability ∧ ∃ rest, (capabilityLoop [true]).env.toggles = true :: rest :=
  ⟨inLoop_holds _ (by decide) (by decide), rfl, fun h => absurd h (by decide), capabilityLoop_holds _, rfl, rfl, [], rfl⟩

theorem witness_JumpSetsThePc :
    State.reset.halted = false ∧ State.reset.cfg.envFaults = false ∧
    (withProgram [0#64] State.reset).prog.length ≤ (1#32).toNat := by decide

/-- Each refusal of the table that a command can raise. -/
theorem witness_RefusalsAreTheContractViolations :
    refusalOf (exec (.delayMs 1#32) State.reset) = some .wrongBinding ∧
    refusalOf (exec (.setPinState 0#8 true) State.reset) = some .portNotConstructed ∧
    refusalOf (exec (.readPin 8#8) (port 0 0)) = some .pinOutOfRange ∧
    refusalOf (exec (.construct 0x0040#16 0x0050#16 0x0060#16) (port 0 0)) = some .secondConstruct ∧
    refusalOf (exec (.construct 0x0070#16 0x0050#16 0x0060#16) narrow) = some .invalidAddress ∧
    refusalOf (exec (.construct 0x0040#16 0x0060#16 0x0060#16) State.reset) = some .overlappingAddresses ∧
    refusalOf (exec (.toggle 7#8) (port 0 0)) = some .toggleBeforeDrive ∧
    ((port 0 0).bind.bound = true ∧ (port 0 0).bind = synthetic) := by decide

theorem witness_NotFaultedNotRefused :
    (port 0x80#8 0x00#8).PortReady ∧ (port 0x80#8 0x00#8).halted = false ∧
    (port 0x80#8 0x00#8).dir.getLsbD (0 : Pin).val = false ∧ (port 0x80#8 0x00#8).dir.getLsbD (7 : Pin).val = true :=
  ⟨port_ready _ _, rfl, rfl, rfl⟩

theorem witness_FrameOfSetPinMode :
    (∃ t, exec (.setPinMode 7#8 true) (port 0xA5#8 0xC3#8) = .next t) ∧ 0x0041#16 ≠ synthetic.dirAddr :=
  ⟨⟨_, rfl⟩, by decide⟩

theorem witness_FrameOfOutputStores :
    (port 0xA5#8 0xC3#8).bind.Separate ∧ (∃ t, exec (.setPinState 0#8 true) (port 0xA5#8 0xC3#8) = .next t) ∧
    (commandedPort 5 .high 0 0x20#8).cfg.binding = .port ∧
    (∃ t, exec (.toggle 5#8) (commandedPort 5 .high 0 0x20#8) = .next t) ∧ 0x0040#16 ≠ synthetic.outAddr :=
  ⟨synthetic_separate, ⟨_, rfl⟩, rfl, ⟨_, rfl⟩, by decide⟩

theorem witness_FrameOfNonStoringCommands :
    (∃ t, exec (.readPin 3#8) (port 0 0) = .next t) ∧ (∃ t, exec (.delay 5#32) State.reset = .next t) ∧
    (∃ t, exec (.delayMs 5#32) (capability []) = .next t) ∧ (∃ t, exec (.jump 5#32) State.reset = .next t) ∧
    ∃ t, exec .halt State.reset = .next t := ⟨⟨_, rfl⟩, ⟨_, rfl⟩, ⟨_, rfl⟩, ⟨_, rfl⟩, ⟨_, rfl⟩⟩

theorem witness_FrameOfConstruct :
    ∃ t, exec (.construct 0x0040#16 0x0050#16 0x0060#16) State.reset = .next t := ⟨_, rfl⟩

theorem witness_FrameOfCapabilityToggle :
    (capability [true]).cfg.binding = .capability ∧ (∃ t, exec (.toggle 2#8) (capability [true]) = .next t) ∧
    ∃ t, exec (.toggle 2#8) (capability [false]) = .next t := ⟨rfl, ⟨_, rfl⟩, ⟨_, rfl⟩⟩

/-- A next state for every command under a binding that admits it. -/
theorem witness_AccessTable :
    (port 0 0).bind.Separate ∧ (commandedPort 5 .high 0 0).bind.Separate ∧ State.reset.bind.bound = false ∧
    (∃ t, exec (.construct 0x0040#16 0x0050#16 0x0060#16) State.reset = .next t) ∧
    (∃ t, exec (.toggle 2#8) (capability [true]) = .next t) ∧ (∃ t, exec (.delayMs 0#32) (capability []) = .next t) ∧
    (∃ t, exec (.setPinMode 5#8 true) (port 0 0) = .next t) ∧
    (∃ t, exec (.setPinState 5#8 true) (port 0 0) = .next t) ∧
    (∃ t, exec (.toggle 5#8) (commandedPort 5 .high 0 0) = .next t) ∧
    (∃ t, exec (.readPin 5#8) (port 0 0) = .next t) ∧ (∃ t, exec (.delay 1#32) (port 0 0) = .next t) ∧
    (∃ t, exec (.jump 1#32) (port 0 0) = .next t) ∧ ∃ t, exec .halt (port 0 0) = .next t :=
  ⟨synthetic_separate, synthetic_separate, rfl, ⟨_, rfl⟩, ⟨_, rfl⟩, ⟨_, rfl⟩, ⟨_, rfl⟩, ⟨_, rfl⟩, ⟨_, rfl⟩, ⟨_, rfl⟩,
    ⟨_, rfl⟩, ⟨_, rfl⟩, ⟨_, rfl⟩⟩

theorem witness_LaunchState : Config.resetLaunch.binding = .port ∧ capabilityLaunch.binding = .capability := by decide

/-- A bound Port on which pin 5 was driven HIGH once, about to run a `toggle`. -/
def drivenOnce : State :=
  withProgram [0x0700000000000500#64]
    { commandedPort 5 .high 0x00#8 0x20#8 with
      trace := [.rd .out 0x0050#16 0x00#8, .wr .out 0x0050#16 0x20#8] }

theorem drivenOnce_inv : drivenOnce.Inv where
  bind := fun _ => ⟨synthetic_separate, fun r => by cases r <;> decide⟩
  unbound := fun _ h => absurd h (by decide)
  capability := fun h => absurd h (by decide)
  level := fun _ => by
    intro p l
    revert p
    cases l <;> decide
  cause := by unfold State.CauseInv; decide
  trace := by
    intro e he
    simp only [drivenOnce, withProgram, List.mem_cons, List.not_mem_nil, or_false] at he
    rcases he with rfl | rfl
    · exact ⟨rfl, rfl⟩
    · exact ⟨rfl, rfl, by decide⟩
  readBack := ⟨rfl, rfl⟩
  halt := ⟨fun _ => by decide, fun h => absurd h (by decide)⟩

theorem witness_InvariantIsKept : drivenOnce.Inv ∧ ∃ t, step drivenOnce = .next t ∧ t.out = 0x00#8 :=
  ⟨drivenOnce_inv, _, rfl, rfl⟩

theorem witness_ReadsReturnTheLastWrite : drivenOnce.Inv ∧ drivenOnce.bind.bound = true := ⟨drivenOnce_inv, rfl⟩

/-- A well-formed program that runs on, and one that jumps back to its `construct` and is refused there. -/
theorem witness_WellFormedProgramsKeepTheContract :
    WellFormed Config.resetLaunch programP1 ∧
    (∃ t, runFor 1 (State.launch Config.resetLaunch programP1 Env.free) = .next t ∧ t.bind = synthetic) ∧
    WellFormed Config.resetLaunch [0x0100004000500060#64, 0x0800000000000000#64] ∧
    runFor 3 (State.launch Config.resetLaunch [0x0100004000500060#64, 0x0800000000000000#64] Env.free) =
      .refused .secondConstruct :=
  ⟨by unfold WellFormed; decide, ⟨_, rfl, rfl⟩, by unfold WellFormed; decide, rfl⟩

/-- A program that jumps back to its `construct`, and the state just after that jump. -/
def backToConstruct : State := { port 0 0 with prog := [0x0100004000500060#64, 0x0800000000000000#64] }

/-- A launch on its path; a `construct` reached again, whose step is refused; a run that has ended. -/
theorem witness_WellFormedStepsStayInTheContract :
    WellFormed capabilityLaunch programP6 ∧
    backToConstruct.InContract ∧ step backToConstruct = .refused .secondConstruct ∧
    (raiseFault .softwareHalt State.reset).InContract :=
  ⟨by unfold WellFormed; decide,
    .inl ⟨by unfold WellFormed; decide, ⟨rfl, rfl⟩, by decide, fun _ h => absurd rfl h,
      fun _ => ⟨[], fun _ h => absurd h (by simp), togglesDriven_any_fuel (by decide)⟩, fun h => absurd h (by decide)⟩,
    rfl, .inr ⟨rfl, by decide, by decide, fun h => absurd h (by decide)⟩⟩

end Sys2Proof.Tests
end

-- The family of 10_state.md: how control moves (R19, R21), the pads (R17), the start state (R25).
section
/-!
PROOFS. What one command and one step can do to `pc`, `HALTED` and `CAUSE`, and the start state's remembered levels;
from these, the statements O12, O14, O26 and O53.
-/

namespace Sys2Proof.Machine

/-! ## Control: `pc`, `HALTED` and `CAUSE` -/

theorem rmw_keeps_control {a : Addr} {p : Pin} {set : Bool} {s u : State} (h : rmw a p set s = .next u) :
    u.halted = s.halted ∧ u.cause = s.cause ∧ u.pc = s.pc := by
  obtain ⟨-, ⟨-, rfl⟩ | ⟨-, -, rfl⟩⟩ := rmw_eq_next h
  · exact ⟨rfl, rfl, rfl⟩
  · exact ⟨rfl, rfl, rfl⟩

theorem memRead_keeps_control {a : Addr} {v : Byte} {s u : State} (h : memRead a s = .next (v, u)) :
    u.halted = s.halted ∧ u.cause = s.cause ∧ u.pc = s.pc := by
  obtain ⟨-, r, e, -, rfl⟩ := memRead_eq_next h
  exact ⟨rfl, rfl, rfl⟩

/-- From `s`, the command `i` ended in `t` without a fault: the status is kept, and control goes to the target of a
`jump`, to the next command otherwise (R19). -/
structure CompletesIn (i : Instr) (s t : State) : Prop where
  halted : t.halted = s.halted
  cause : t.cause = s.cause
  pc : i = .jump t.pc ∨ (∀ n, i ≠ .jump n) ∧ t.pc = s.pc + 1#32

theorem completesIn_advance {i : Instr} {s u : State} (noJump : ∀ n, i ≠ .jump n)
    (h : u.halted = s.halted ∧ u.cause = s.cause ∧ u.pc = s.pc) : CompletesIn i s (advance u) := by
  obtain ⟨halted, cause, pc⟩ := h
  exact ⟨halted, cause, .inr ⟨noJump, by rw [advance_pc, pc]⟩⟩

/-- A command that answers a next state completes, or takes one of the two faults that commands raise (R112, R121). -/
theorem exec_completes_or_faults {i : Instr} {s t : State} (h : exec i s = .next t) :
    CompletesIn i s t ∨ (i = .halt ∧ t = raiseFault .softwareHalt s) ∨
      ∃ p e, i = .toggle (pinOperand p) ∧ t = raiseFault .toggleFailed (emit (.capToggle p false) (setEnv e s)) := by
  rcases exec_next h with ⟨d, o, n, rfl, -, -, -, -, rfl⟩ | ⟨p, b, rfl, -, -, rfl⟩ | ⟨p, b, u, rfl, -, hu, rfl⟩ |
    ⟨p, v, u, rfl, -, hu, rfl⟩ | ⟨n, rfl, -, rfl⟩ | ⟨n, rfl, -, rfl⟩ | ⟨p, l, u, rfl, -, -, hu, rfl⟩ |
    ⟨p, l, e, rfl, -, -, (rfl | rfl)⟩ | ⟨n, rfl, rfl⟩ | ⟨rfl, rfl⟩
  · exact .inl (completesIn_advance nofun ⟨rfl, rfl, rfl⟩)
  · exact .inl (completesIn_advance nofun ⟨rfl, rfl, rfl⟩)
  · exact .inl (completesIn_advance nofun (by simpa using rmw_keeps_control hu))
  · exact .inl (completesIn_advance nofun (by simpa using memRead_keeps_control hu))
  · exact .inl (completesIn_advance nofun ⟨rfl, rfl, rfl⟩)
  · exact .inl (completesIn_advance nofun ⟨rfl, rfl, rfl⟩)
  · exact .inl (completesIn_advance nofun (by simpa using rmw_keeps_control hu))
  · exact .inl (completesIn_advance nofun ⟨rfl, rfl, rfl⟩)
  · exact .inr (.inr ⟨p, e, rfl, rfl⟩)
  · exact .inl ⟨rfl, rfl, .inl rfl⟩
  · exact .inr (.inl ⟨rfl, rfl⟩)

/-- A step of a running block leaves it running with its `CAUSE`, or is a fault entry from a state that differs from
`s` in the environment's answers and the trace at most (R129, R130). -/
theorem step_runs_on_or_faults {s t : State} (running : s.halted = false) (h : step s = .next t) :
    (t.halted = false ∧ t.cause = s.cause) ∨
      ∃ c e es, c ≠ .noCause ∧ t = raiseFault c { s with env := e, trace := es } := by
  rcases step_next h with ⟨halted, -⟩ | ⟨-, e, ⟨c, rfl, hc⟩ | ⟨w, i, -, -, hx⟩⟩
  · simp [running] at halted
  · exact .inr ⟨c, e, s.trace, by rcases hc with rfl | rfl | rfl <;> decide, rfl⟩
  · rcases exec_completes_or_faults hx with done | ⟨-, rfl⟩ | ⟨p, e', -, rfl⟩
    · exact .inl ⟨done.halted.trans running, done.cause⟩
    · exact .inr ⟨_, e, s.trace, by decide, rfl⟩
    · exact .inr ⟨_, e', s.trace ++ [.capToggle p false], by decide, rfl⟩

/-- A running block that halts in a step has taken a fault entry. -/
theorem step_halts {s t : State} (running : s.halted = false) (h : step s = .next t) (halts : t.halted = true) :
    ∃ c e es, c ≠ .noCause ∧ t = raiseFault c { s with env := e, trace := es } := by
  rcases step_runs_on_or_faults running h with ⟨runs, -⟩ | fault
  · simp [runs] at halts
  · exact fault

/-- A halted block stays as it is (R21). -/
theorem step_of_halted {s : State} (halted : s.halted = true) : step s = .next s := by
  rcases step_cases s with ⟨-, stays⟩ | ⟨running, -⟩ | ⟨running, -⟩
  · exact stays
  · simp [running] at halted
  · simp [running] at halted

/-- At or past the end of the program every step of a running block is a fault: the environment's or the fetch's
(R110, R122). -/
theorem step_past_end_faults {s : State} (running : s.halted = false) (past : s.prog.length ≤ s.pc.toNat) :
    ∃ t, step s = .next t ∧ t.Faulted := by
  have noWord : s.prog[s.pc.toNat]? = none := List.getElem?_eq_none past
  rcases step_cases s with ⟨halted, -⟩ | ⟨-, -, -, hs⟩ |
    ⟨-, u, -, ⟨-, hs⟩ | ⟨w, -, hw, -⟩ | ⟨w, -, hw, -⟩⟩
  · simp [running] at halted
  · exact ⟨_, hs, rfl, nofun⟩
  · exact ⟨_, hs, rfl, nofun⟩
  · simp [noWord] at hw
  · simp [noWord] at hw

/-! ## The levels remembered at launch (R20, R25) -/

theorem levelOf_launch_port {cfg : Launch} (h : cfg.binding = .port) (prog : List CmdWord) (env : Env) (p : Pin) :
    levelOf (State.launch cfg prog env) p = .unset := by
  simp [levelOf, State.launch, launchLevels, h, Vector.get_eq_getElem]

theorem levelOf_launch_capability {cfg : Launch} (h : cfg.binding = .capability) (prog : List CmdWord) (env : Env)
    (p : Pin) : levelOf (State.launch cfg prog env) p =
      if p = cfg.loopPin then .commanded cfg.level0 else .unset := by
  simp [levelOf, State.launch, launchLevels, h, Vector.get_eq_getElem, Vector.getElem_set, Fin.ext_iff,
    eq_comm (a := cfg.loopPin.val)]

/-! ## The obligations -/

/-- Settles O53: the fields of `State.launch`, and its levels under each binding. -/
theorem launchState : Obligations.LaunchState := by
  intro cfg prog env
  exact ⟨rfl, rfl, rfl, rfl, rfl, fun h => levelOf_launch_port h prog env,
    fun h => levelOf_launch_capability h prog env, rfl, rfl, rfl⟩

/-- Settles O12: a fault entry keeps `pc`, a completed command moves it as `CompletesIn` says. -/
theorem programCounterRule : Obligations.ProgramCounterRule := by
  refine ⟨fun _ _ _ => rfl, ?_, fun s => step_past_end_faults, ?_, ?_⟩
  · intro s t running h halts
    obtain ⟨c, e, es, -, rfl⟩ := step_halts running h halts
    rfl
  · intro i s t running h
    rcases exec_completes_or_faults h with done | ⟨-, rfl⟩ | ⟨p, e, -, rfl⟩
    · refine ⟨fun halts => by simp [done.halted, running] at halts, fun _ => ?_⟩
      rcases done.pc with jumps | ⟨noJump, next⟩
      · exact ⟨fun n hn => Instr.jump.inj (jumps.symm.trans hn), fun noJump => absurd jumps (noJump _)⟩
      · exact ⟨fun n hn => absurd hn (noJump n), fun _ => next⟩
    · exact ⟨fun _ => rfl, nofun⟩
    · exact ⟨fun _ => rfl, nofun⟩
  · intro s short inside
    exact BitVec.toNat_add_of_lt (by change s.pc.toNat + 1 < 2 ^ 32; omega)

/-- Settles O14: the only step that writes `HALTED` or `CAUSE` is a fault entry of a running block. -/
theorem haltedAndCause : Obligations.HaltedAndCause := by
  refine ⟨fun _ _ _ => ⟨rfl, rfl⟩, ?_, ?_, rfl, rfl, rfl, rfl, rfl, rfl⟩
  · intro s t halted h
    rw [step_of_halted halted] at h
    cases h; rfl
  · intro s t agree h
    cases halted : s.halted with
    | true =>
      rw [step_of_halted halted] at h
      cases h
      exact ⟨agree, fun _ => rfl, nofun⟩
    | false =>
      rcases step_runs_on_or_faults halted h with ⟨runs, kept⟩ | ⟨c, e, es, hc, rfl⟩
      · exact ⟨by simp [runs, kept, agree.1 halted], fun _ => kept, fun _ halts => by simp [runs] at halts⟩
      · exact ⟨by simp [hc], nofun, fun _ _ => by simp⟩

/-- Settles O26: `PAD` is `OUT` or the outside by `DIR`, and a fault entry keeps both registers. -/
theorem padsFollowDirAndOut : Obligations.PadsFollowDirAndOut := by
  intro s outside p
  refine ⟨fun output => ?_, fun input => ?_, fun t running h halts => ?_⟩
  · rw [pad_eq, output]; rfl
  · rw [pad_eq, input]; rfl
  · obtain ⟨c, e, es, -, rfl⟩ := step_halts running h halts
    rfl

end Sys2Proof.Machine
end

-- The family of 20_memory.md: the two hardware accesses (R32, R33).
section
/-!
PROOFS. What the environment answers to a read of `IN`, and everything a write can answer; from these, the statement O16.
-/

namespace Sys2Proof.Machine

/-! ## Reading `IN` -/

/-- The environment's next answer to a read of `IN` is `raw` and leaves it as `after`: the next scripted byte, or a free
value where the script has run out (R23). -/
def AnswersInput (env : Env) (raw : Byte) (after : Env) : Prop :=
  (∃ rest, env.inputs = raw :: rest ∧ after = { env with inputs := rest }) ∨
    (env.inputs = [] ∧ raw = Config.inputByte env.draws ∧ after = { env with draws := env.draws + 1 })

theorem drawInput_of_answersInput {s : State} {raw : Byte} {after : Env} (h : AnswersInput s.env raw after) :
    drawInput s = (raw, setEnv after s) := by
  obtain ⟨rest, scripted, rfl⟩ | ⟨exhausted, rfl, rfl⟩ := h
  · simp [drawInput, scripted]
  · simp [drawInput, exhausted]

/-- A read of `IN` returns what the register shows of the environment's answer, and records it (R32). -/
theorem memRead_inp_of_answersInput {s : State} {raw : Byte} {after : Env} (hb : s.bind.bound = true)
    (hd : s.bind.inAddr ≠ s.bind.dirAddr) (ho : s.bind.inAddr ≠ s.bind.outAddr)
    (h : AnswersInput s.env raw after) :
    memRead s.bind.inAddr s =
      .next (inputShown s raw, emit (.rd .inp s.bind.inAddr (inputShown s raw)) (setEnv after s)) := by
  rw [memRead_inp hb hd ho, drawInput_of_answersInput h]

/-- A read answers at the three bound addresses of a constructed Port only (R32). -/
theorem memRead_next_address {a : Addr} {v : Byte} {s t : State} (h : memRead a s = .next (v, t)) :
    s.bind.bound = true ∧ (a = s.bind.dirAddr ∨ a = s.bind.outAddr ∨ a = s.bind.inAddr) := by
  obtain ⟨hb, r, -, ha, -⟩ := memRead_eq_next h
  refine ⟨hb, ?_⟩
  cases r with
  | dir => exact .inl ha
  | out => exact .inr (.inl ha)
  | inp => exact .inr (.inr ha)

/-! ## Writing -/

/-- The input register cannot be written (R33). -/
theorem memWrite_inp_refused {s : State} (hb : s.bind.bound = true) (hd : s.bind.inAddr ≠ s.bind.dirAddr)
    (ho : s.bind.inAddr ≠ s.bind.outAddr) (v : Byte) :
    memWrite s.bind.inAddr v s = .refused .writeToInputRegister := by
  simp [memWrite, hb, hd, ho]

/-- Everything a write can answer (R33): it needs a constructed Port and stores in the register whose address it names. -/
theorem memWrite_eq_next {a : Addr} {v : Byte} {s t : State} (h : memWrite a v s = .next t) :
    s.bind.bound = true ∧
      ((a = s.bind.dirAddr ∧ t = emit (.wr .dir a v) (writeDir v s)) ∨
        (a ≠ s.bind.dirAddr ∧ a = s.bind.outAddr ∧ t = emit (.wr .out a v) (writeOut v s))) := by
  cases hb : s.bind.bound with
  | false => simp [memWrite, hb] at h
  | true =>
    refine ⟨rfl, ?_⟩
    by_cases hd : a = s.bind.dirAddr
    · subst hd
      rw [memWrite_dir hb] at h
      cases h
      exact .inl ⟨rfl, rfl⟩
    · by_cases ho : a = s.bind.outAddr
      · subst ho
        rw [memWrite_out hb hd] at h
        cases h
        exact .inr ⟨hd, rfl, rfl⟩
      · by_cases hi : a = s.bind.inAddr
        · subst hi
          simp [memWrite_inp_refused hb hd ho] at h
        · simp [memWrite, hb, hd, ho, hi] at h

/-! ## The obligation -/

/-- Settles O16: the accesses at each of the three addresses, and the inversions of a read and of a write. -/
theorem accessesReadAndWriteTheRegisters : Obligations.AccessesReadAndWriteTheRegisters := by
  intro s
  refine ⟨fun hb ⟨dirNeOut, dirNeIn, outNeIn⟩ => ⟨memRead_dir hb, memRead_out hb dirNeOut.symm, ?_, fun v =>
    ⟨memWrite_dir hb v, memWrite_out hb dirNeOut.symm v, memWrite_inp_refused hb dirNeIn.symm outNeIn.symm v⟩⟩,
    fun _ _ _ => memRead_next_address, ?_⟩
  · rintro raw v after answer rfl
    exact memRead_inp_of_answersInput hb dirNeIn.symm outNeIn.symm answer
  · intro a v t h
    obtain ⟨hb, ⟨ha, -⟩ | ⟨-, ha, -⟩⟩ := memWrite_eq_next h
    · exact ⟨hb, .inl ha⟩
    · exact ⟨hb, .inr ha⟩

end Sys2Proof.Machine
end

-- The family of 30_encoding.md, first part: words, fields and rows (R51 to R62, R65).
section
/-!
PROOFS. How a word is made of its fields, when it meets a row of the opcode map, and which words meet none; from these,
the statement O1.
-/

namespace Sys2Proof

/-! ## A word is made of its fields (R52 to R58) -/

/-- A word of format C with its must-be-zero bits zero (R53). -/
theorem formatC_eq {w : CmdWord} {op : Byte} (hop : opField w = op) (hz : w.extractLsb' 48 8 = 0#8) :
    op ++ 0#8 ++ daddrField w ++ oaddrField w ++ iaddrField w = w := by
  simp only [← hop, ← hz, opField, daddrField, oaddrField, iaddrField,
    BitVec.extractLsb'_append_extractLsb'_eq_extractLsb']
  exact BitVec.extractLsb'_eq_self

/-- A word of format P with its must-be-zero bits zero (R54). -/
theorem formatP_eq {w : CmdWord} {op : Byte} (hop : opField w = op) (hz : w.extractLsb' 16 40 = 0#40)
    (hz' : w.extractLsb' 1 7 = 0#7) :
    op ++ 0#40 ++ pinField w ++ 0#7 ++ BitVec.ofBool (valField w) = w := by
  have val : BitVec.ofBool (valField w) = w.extractLsb' 0 1 := by
    rw [valField, ← BitVec.setWidth_one, BitVec.setWidth_eq_extractLsb' (by decide)]
  simp only [← hop, ← hz, ← hz', val, opField, pinField, BitVec.extractLsb'_append_extractLsb'_eq_extractLsb']
  exact BitVec.extractLsb'_eq_self

/-- A word of format R with its must-be-zero bits zero (R55). -/
theorem formatR_eq {w : CmdWord} {op : Byte} (hop : opField w = op) (hz : w.extractLsb' 16 40 = 0#40)
    (hz' : w.extractLsb' 0 8 = 0#8) : op ++ 0#40 ++ pinField w ++ 0#8 = w := by
  simp only [← hop, ← hz, ← hz', opField, pinField, BitVec.extractLsb'_append_extractLsb'_eq_extractLsb']
  exact BitVec.extractLsb'_eq_self

/-- A word of format N or J with its must-be-zero bits zero (R56, R57). -/
theorem formatN_eq {w : CmdWord} {op : Byte} (hop : opField w = op) (hz : w.extractLsb' 32 24 = 0#24) :
    op ++ 0#24 ++ countField w = w := by
  simp only [← hop, ← hz, opField, countField, BitVec.extractLsb'_append_extractLsb'_eq_extractLsb']
  exact BitVec.extractLsb'_eq_self

/-- Every word is its opcode and the 56 bits below it (R52). -/
theorem opField_append_rest (w : CmdWord) : opField w ++ w.extractLsb' 0 56 = w := by
  simp only [opField, BitVec.extractLsb'_append_extractLsb'_eq_extractLsb']
  exact BitVec.extractLsb'_eq_self

/-- Bits that the mask covers are zero in the word when they are zero in the `match` value. -/
theorem extractLsb'_eq_zero_of_match {w m b : CmdWord} {start len : Nat} (h : w &&& m = b)
    (zeros : m.extractLsb' start len = BitVec.allOnes len ∧ b.extractLsb' start len = 0#len) :
    w.extractLsb' start len = 0#len := by
  obtain ⟨covered, zero⟩ := zeros
  rw [← zero, ← h, BitVec.extractLsb'_and, covered, BitVec.and_allOnes]

/-! ## Encoding after decoding, decoding after encoding (R65) -/

/-- The command read from a word by the row it matches is encoded as that word. -/
theorem encode_read {w : CmdWord} {r : Row} (hr : r ∈ rows) (hm : w &&& r.mask = r.bits) :
    encode (r.read w) = w := by
  have op := opField_of_match hr hm
  simp only [rows, List.mem_cons, List.not_mem_nil, or_false] at hr
  rcases hr with rfl | rfl | rfl | rfl | rfl | rfl | rfl | rfl | rfl
  · exact formatC_eq op (extractLsb'_eq_zero_of_match hm (by decide))
  · exact formatP_eq op (extractLsb'_eq_zero_of_match hm (by decide)) (extractLsb'_eq_zero_of_match hm (by decide))
  · exact formatP_eq op (extractLsb'_eq_zero_of_match hm (by decide)) (extractLsb'_eq_zero_of_match hm (by decide))
  · exact formatR_eq op (extractLsb'_eq_zero_of_match hm (by decide)) (extractLsb'_eq_zero_of_match hm (by decide))
  · exact formatN_eq op (extractLsb'_eq_zero_of_match hm (by decide))
  · exact formatN_eq op (extractLsb'_eq_zero_of_match hm (by decide))
  · exact formatR_eq op (extractLsb'_eq_zero_of_match hm (by decide)) (extractLsb'_eq_zero_of_match hm (by decide))
  · exact formatN_eq op (extractLsb'_eq_zero_of_match hm (by decide))
  · exact hm.symm.trans BitVec.and_allOnes

/-- The fields a row reads from a command's word are the command's operands (R53 to R59). -/
theorem read_encode (i : Instr) : ∀ r ∈ rows, opField (encode i) = r.op → r.read (encode i) = i := by
  cases i <;> simp [rows, opField_encode]

/-- The word of every command matches its own row (R60). -/
theorem encode_matches (i : Instr) : Laws.RowMatch.Statement i := by
  cases i with
  | construct d o n => exact Laws.RowMatch.construct d o n
  | setPinMode p b => exact Laws.RowMatch.setPinMode p b
  | setPinState p b => exact Laws.RowMatch.setPinState p b
  | readPin p => exact Laws.RowMatch.readPin p
  | delay n => exact Laws.RowMatch.delay n
  | delayMs n => exact Laws.RowMatch.delayMs n
  | toggle p => exact Laws.RowMatch.toggle p
  | jump t => exact Laws.RowMatch.jump t
  | halt => exact Laws.RowMatch.halt

/-- A word that matches a row is decoded by it. -/
theorem decode_of_match {w : CmdWord} {r : Row} (hr : r ∈ rows) (hm : w &&& r.mask = r.bits) :
    decode w = .command (r.read w) := by
  rw [decode_of_row (find?_row hr (opField_of_match hr hm)), if_pos hm]

theorem decode_encode (i : Instr) : decode (encode i) = .command i := by
  obtain ⟨r, hr, op, hm⟩ := encode_matches i
  rw [decode_of_match hr hm, read_encode i r hr op]

theorem encode_of_decode {w : CmdWord} {i : Instr} (h : decode w = .command i) : encode i = w := by
  rcases decode_cases w with ⟨r, hr, -, hm, hd⟩ | ⟨r, -, -, -, hd⟩ | ⟨-, hd⟩
  · cases h.symm.trans hd
    exact encode_read hr hm
  · cases h.symm.trans hd
  · cases h.symm.trans hd

/-- An opcode of no row is invalid (R61 (a)). -/
theorem decode_of_no_row {w : CmdWord} (h : ∀ r ∈ rows, r.op ≠ opField w) : decode w = .invalid .undefinedOpcode := by
  rcases decode_cases w with ⟨r, hr, op, -⟩ | ⟨r, hr, op, -⟩ | ⟨-, hd⟩
  · exact absurd op.symm (h r hr)
  · exact absurd op.symm (h r hr)
  · exact hd

/-! ## Matching a row (R60, R61) -/

/-- The illegal words, by `mask` and `match` (R60). -/
theorem invalid_iff_no_match (w : CmdWord) :
    (∃ why, decode w = .invalid why) ↔ ∀ r ∈ rows, w &&& r.mask ≠ r.bits := by
  constructor
  · rintro ⟨why, h⟩ r hr hm
    rw [decode_of_match hr hm] at h
    cases h
  · intro none
    rcases decode_cases w with ⟨r, hr, -, hm, -⟩ | ⟨r, -, -, -, hd⟩ | ⟨-, hd⟩
    · exact absurd hm (none r hr)
    · exact ⟨_, hd⟩
    · exact ⟨_, hd⟩

/-- A row's must-be-zero bits: those of its mask below the opcode (R61 (b)). -/
def Row.mustBeZero (r : Row) : CmdWord := 0#8 ++ r.mask.extractLsb' 0 56

/-- A row's `match` value is its opcode alone (R60). -/
theorem rows_bits : ∀ r ∈ rows, r.bits = r.op ++ 0#56 := by
  decide

/-- A word with a row's opcode matches the row exactly when none of the row's must-be-zero bits is set (R61). -/
theorem match_iff_of_opField {w : CmdWord} {r : Row} (hr : r ∈ rows) (op : opField w = r.op) :
    w &&& r.mask = r.bits ↔ w &&& r.mustBeZero = 0#64 := by
  obtain ⟨rest, rfl⟩ : ∃ rest : BitVec 56, w = r.op ++ rest := ⟨_, op ▸ (opField_append_rest w).symm⟩
  have mask : r.mask = 0xFF#8 ++ r.mask.extractLsb' 0 56 := by
    rw [← (rows_cover_opcode r hr).1, opField_append_rest]
  calc (r.op ++ rest) &&& r.mask = r.bits
      ↔ r.op ++ (rest &&& r.mask.extractLsb' 0 56) = r.op ++ 0#56 := by
        conv_lhs => rw [mask, rows_bits r hr, BitVec.and_append, show 0xFF#8 = BitVec.allOnes 8 from rfl,
          BitVec.and_allOnes]
    _ ↔ rest &&& r.mask.extractLsb' 0 56 = 0#56 := BitVec.append_right_inj _
    _ ↔ 0#8 ++ (rest &&& r.mask.extractLsb' 0 56) = 0#8 ++ 0#56 := (BitVec.append_right_inj _).symm
    _ ↔ (r.op ++ rest) &&& r.mustBeZero = 0#64 := by
        rw [Row.mustBeZero, BitVec.and_append, BitVec.and_zero]; rfl

/-- The illegal words, by opcode and must-be-zero bits (R61). -/
theorem invalid_iff (w : CmdWord) :
    (∃ why, decode w = .invalid why) ↔
      (∀ r ∈ rows, opField w ≠ r.op) ∨ ∃ r ∈ rows, opField w = r.op ∧ w &&& r.mustBeZero ≠ 0#64 := by
  constructor
  · rintro ⟨why, h⟩
    rcases decode_cases w with ⟨r, -, -, -, hd⟩ | ⟨r, hr, op, hm, -⟩ | ⟨noRow, -⟩
    · cases h.symm.trans hd
    · exact .inr ⟨r, hr, op, mt (match_iff_of_opField hr op).2 hm⟩
    · exact .inl noRow
  · rintro (noRow | ⟨r, hr, op, set⟩)
    · exact ⟨_, decode_of_no_row fun r hr => (noRow r hr).symm⟩
    · exact ⟨_, by rw [decode_of_row (find?_row hr op), if_neg (mt (match_iff_of_opField hr op).1 set)]⟩

/-- The opcodes that have a row are 0x01 to 0x09 (R61 (a)). -/
theorem opcode_without_row_iff (op : Byte) : (∀ r ∈ rows, op ≠ r.op) ↔ op = 0x00#8 ∨ 0x0A#8 ≤ op := by
  simp only [rows, List.forall_mem_cons, List.not_mem_nil, false_imp_iff, implies_true, and_true]
  bv_omega

/-- The must-be-zero bits by format, one clause each (R61 (b)). -/
theorem mustBeZero_by_format (w : CmdWord) (op : Byte) :
    (∃ r ∈ rows, op = r.op ∧ w &&& r.mustBeZero ≠ 0#64) ↔
      (op = 0x01#8 ∧ w &&& 0x00FF000000000000#64 ≠ 0#64) ∨
      ((op = 0x02#8 ∨ op = 0x03#8) ∧ w &&& 0x00FFFFFFFFFF00FE#64 ≠ 0#64) ∨
      ((op = 0x04#8 ∨ op = 0x07#8) ∧ w &&& 0x00FFFFFFFFFF00FF#64 ≠ 0#64) ∨
      ((op = 0x05#8 ∨ op = 0x06#8 ∨ op = 0x08#8) ∧ w &&& 0x00FFFFFF00000000#64 ≠ 0#64) ∨
      (op = 0x09#8 ∧ w &&& 0x00FFFFFFFFFFFFFF#64 ≠ 0#64) := by
  simp only [rows, Row.mustBeZero, List.exists_mem_cons_iff, List.not_mem_nil, false_and, exists_false, or_false]
  grind

/-- A command with the opcode of row `k` is decoded only from a word that matches the row (R60). -/
theorem match_of_decode {w : CmdWord} {i : Instr} {r : Row} {k : Nat} (hr : rows[k]? = some r)
    (h : decode w = .command i) (op : opField (encode i) = r.op) : w &&& r.mask = r.bits := by
  rw [encode_of_decode h] at op
  by_contra hm
  rw [decode_of_row (find?_row (List.mem_of_getElem? hr) op), if_neg hm] at h
  cases h

/-- A word that matches row `k` is decoded by it (R60). -/
theorem decode_of_match_at {w : CmdWord} {r : Row} {k : Nat} (hr : rows[k]? = some r) (hm : w &&& r.mask = r.bits) :
    decode w = .command (r.read w) :=
  decode_of_match (List.mem_of_getElem? hr) hm

/-! ## The fields as numbers (R59) -/

theorem toNat_extractLsb' (w : CmdWord) (start len : Nat) :
    (w.extractLsb' start len).toNat = w.toNat / 2 ^ start % 2 ^ len := by
  rw [BitVec.extractLsb'_toNat, Nat.shiftRight_eq_div_pow]

theorem daddrField_toNat (w : CmdWord) : (daddrField w).toNat = w.toNat / 2 ^ 32 % 2 ^ 16 := toNat_extractLsb' w 32 16

theorem oaddrField_toNat (w : CmdWord) : (oaddrField w).toNat = w.toNat / 2 ^ 16 % 2 ^ 16 := toNat_extractLsb' w 16 16

theorem iaddrField_toNat (w : CmdWord) : (iaddrField w).toNat = w.toNat % 2 ^ 16 :=
  (toNat_extractLsb' w 0 16).trans (by rw [pow_zero, Nat.div_one])

theorem pinField_toNat (w : CmdWord) : (pinField w).toNat = w.toNat / 2 ^ 8 % 2 ^ 8 := toNat_extractLsb' w 8 8

theorem countField_toNat (w : CmdWord) : (countField w).toNat = w.toNat % 2 ^ 32 :=
  (toNat_extractLsb' w 0 32).trans (by rw [pow_zero, Nat.div_one])

theorem valField_iff (w : CmdWord) : valField w = true ↔ w.toNat % 2 = 1 := by
  simp [valField, BitVec.getLsbD, Nat.testBit_zero]

/-! ## The obligation -/

/-- Settles O1: a word is the row of its fields, and the fields of an encoded word are the operands. -/
theorem decodeAndEncodeAgree : Obligations.DecodeAndEncodeAgree :=
  ⟨decode_encode, fun _ _ => encode_of_decode, fun _ => decode_of_no_row,
    fun _ _ hr op => decode_of_row (find?_row hr op.symm)⟩

end Sys2Proof
end

-- The family of 30_encoding.md, second part: what executing a word does (R59 to R61).
section
/-!
PROOFS. When a command is refused, and what the step does at an illegal word; from these, the statements O2 to O4.
-/

namespace Sys2Proof.Machine

/-! ## When an operation refuses (R70 to R72, R95, R124) -/

section
variable {α β : Type} {reason : Refusal}

theorem andThen_eq_refused {x : Result α} {k : α → Result β} :
    andThen x k = .refused reason ↔ x = .refused reason ∨ ∃ a, x = .next a ∧ k a = .refused reason := by
  cases x <;> simp [andThen]

theorem require_eq_refused {c : Bool} {r : Refusal} {k : Result α} :
    require c r k = .refused reason ↔ (c = false ∧ r = reason) ∨ (c = true ∧ k = .refused reason) := by
  cases c <;> simp [require]

theorem requireBinding_eq_refused {b : Binding} {s : State} {k : Result α} :
    requireBinding b s k = .refused reason ↔
      (s.cfg.binding ≠ b ∧ .wrongBinding = reason) ∨ (s.cfg.binding = b ∧ k = .refused reason) := by
  simp [requireBinding, require_eq_refused]

theorem requireBound_eq_refused {s : State} {k : Result α} :
    requireBound s k = .refused reason ↔
      (s.bind.bound = false ∧ .portNotConstructed = reason) ∨ (s.bind.bound = true ∧ k = .refused reason) := by
  simp [requireBound, require_eq_refused]

theorem requirePin_eq_refused {b : Byte} {k : Pin → Result α} :
    requirePin b k = .refused reason ↔
      (7 < b.toNat ∧ .pinOutOfRange = reason) ∨ ∃ p, pinOf b = some p ∧ k p = .refused reason := by
  rw [← pinOf_eq_none]
  unfold requirePin
  cases pinOf b <;> simp

theorem requireLevel_eq_refused {p : Pin} {s : State} {k : Level → Result α} :
    requireLevel p s k = .refused reason ↔
      (levelOf s p = .unset ∧ .toggleBeforeDrive = reason) ∨
        ∃ l, levelOf s p = .commanded l ∧ k l = .refused reason := by
  unfold requireLevel
  cases levelOf s p <;> simp

theorem requirePort_eq_refused {b : Byte} {s : State} {k : Pin → Result α} :
    requirePort b s k = .refused reason ↔
      (s.cfg.binding ≠ .port ∧ .wrongBinding = reason) ∨
        (s.cfg.binding = .port ∧ ((s.bind.bound = false ∧ .portNotConstructed = reason) ∨
          (s.bind.bound = true ∧ ((7 < b.toNat ∧ .pinOutOfRange = reason) ∨
            ∃ p, pinOf b = some p ∧ k p = .refused reason)))) := by
  simp only [requirePort, requireBinding_eq_refused, requireBound_eq_refused, requirePin_eq_refused]

end

/-- No read refuses (R32). -/
theorem memRead_ne_refused (a : Addr) (s : State) (reason : Refusal) : memRead a s ≠ .refused reason := by
  unfold memRead
  split_ifs <;> nofun

/-- A write refuses at `IN_ADDR` only (R33). -/
theorem memWrite_eq_refused {a : Addr} {v : Byte} {s : State} {reason : Refusal}
    (h : memWrite a v s = .refused reason) : reason = .writeToInputRegister := by
  unfold memWrite at h
  split_ifs at h
  cases h
  rfl

theorem rmw_eq_refused {a : Addr} {p : Pin} {set : Bool} {s : State} {reason : Refusal}
    (h : rmw a p set s = .refused reason) : reason = .writeToInputRegister := by
  rcases andThen_eq_refused.1 h with hr | ⟨r, -, hw⟩
  · exact absurd hr (memRead_ne_refused a s reason)
  · exact memWrite_eq_refused hw

/-! ## The last column of R60 -/

theorem rmw_ne_wrongBinding (a : Addr) (p : Pin) (set : Bool) (s : State) : rmw a p set s ≠ .refused .wrongBinding :=
  fun h => nomatch rmw_eq_refused h

/-- `toggle` belongs to both bindings (R95). -/
theorem execToggle_ne_wrongBinding (pin : Byte) (s : State) : execToggle pin s ≠ .refused .wrongBinding := by
  unfold execToggle
  cases s.cfg.binding with
  | port =>
    simp [togglePort, requireBound_eq_refused, requirePin_eq_refused, requireLevel_eq_refused, andThen_eq_refused,
      rmw_ne_wrongBinding]
  | capability =>
    cases h : (drawToggle s).1 <;> simp [toggleCapability, requirePin_eq_refused, requireLevel_eq_refused, h]

/-- A command is refused for the binding exactly where its row does not admit it: that test comes first, and no other
test refuses so (R124). -/
theorem exec_eq_wrongBinding_iff (i : Instr) (s : State) :
    exec i s = .refused .wrongBinding ↔ i.admittedBy s.cfg.binding = false := by
  cases i with
  | construct d o n => simp [exec, execConstruct, requireBinding_eq_refused, require_eq_refused, Instr.admittedBy]
  | setPinMode p b =>
    simp [exec, execSetPinMode, requirePort_eq_refused, andThen_eq_refused, rmw_ne_wrongBinding, Instr.admittedBy]
  | setPinState p b =>
    simp [exec, execSetPinState, requirePort_eq_refused, andThen_eq_refused, rmw_ne_wrongBinding, Instr.admittedBy]
  | readPin p =>
    simp [exec, execReadPin, requirePort_eq_refused, andThen_eq_refused, memRead_ne_refused, Instr.admittedBy]
  | delay n => simp [exec, execDelay, requireBinding_eq_refused, Instr.admittedBy]
  | delayMs n => simp [exec, execDelayMs, requireBinding_eq_refused, Instr.admittedBy]
  | toggle p => simp [exec, execToggle_ne_wrongBinding, Instr.admittedBy]
  | jump t => simp [exec, execJump, Instr.admittedBy]
  | halt => simp [exec, execHalt, Instr.admittedBy]

/-- The commands that a binding does not admit (R60). -/
theorem admittedBy_eq_false_iff (i : Instr) (b : Binding) :
    i.admittedBy b = false ↔
      (b = .capability ∧ ((∃ d o n, i = .construct d o n) ∨ (∃ p v, i = .setPinMode p v) ∨
        (∃ p v, i = .setPinState p v) ∨ (∃ p, i = .readPin p) ∨ ∃ n, i = .delay n)) ∨
      (b = .port ∧ ∃ n, i = .delayMs n) := by
  cases i <;> cases b <;> simp [Instr.admittedBy]

/-! ## Pins above 7 (R59, R61, R70) -/

theorem requirePin_of_gt {α : Type} {pin : Byte} (h : 7 < pin.toNat) (k : Pin → Result α) :
    requirePin pin k = .refused .pinOutOfRange :=
  requirePin_eq_refused.2 (.inl ⟨h, rfl⟩)

/-- A test before an operation that refuses gives a refusal, its own or the operation's. -/
theorem require_refuses {α : Type} {c : Bool} {reason : Refusal} {k : Result α} (h : ∃ r, k = .refused r) :
    ∃ r, require c reason k = .refused r := by
  cases c with
  | false => exact ⟨reason, rfl⟩
  | true => exact h

theorem requirePort_of_gt {α : Type} {pin : Byte} (h : 7 < pin.toNat) (s : State) (k : Pin → Result α) :
    ∃ r, requirePort pin s k = .refused r :=
  require_refuses (require_refuses ⟨_, requirePin_of_gt h k⟩)

theorem execToggle_of_gt {pin : Byte} (h : 7 < pin.toNat) (s : State) : ∃ r, execToggle pin s = .refused r := by
  unfold execToggle
  cases s.cfg.binding with
  | port => exact require_refuses ⟨_, requirePin_of_gt h _⟩
  | capability => exact ⟨_, requirePin_of_gt h _⟩

/-- A command whose pin operand is above 7 is refused in every state: by the pin test, or by one before it. -/
theorem exec_of_not_wf {i : Instr} (h : i.wf = false) (s : State) : ∃ r, exec i s = .refused r := by
  cases i with
  | construct | delay | delayMs | jump | halt => cases h
  | setPinMode p b => exact requirePort_of_gt (by simpa [Instr.wf] using h) s _
  | setPinState p b => exact requirePort_of_gt (by simpa [Instr.wf] using h) s _
  | readPin p => exact requirePort_of_gt (by simpa [Instr.wf] using h) s _
  | toggle p => exact execToggle_of_gt (by simpa [Instr.wf] using h) s

/-! ## Executing an illegal word (R61, R110) -/

theorem fetchAt_of_invalid {s : State} {w : CmdWord} {why : Invalid} (hw : s.prog[s.pc.toNat]? = some w)
    (hd : decode w = .invalid why) : fetchAt s = .trap .illegalCommand s := by
  simp [fetchAt, hw, hd]

theorem step_of_invalid {s : State} {w : CmdWord} {why : Invalid} (running : s.halted = false)
    (quiet : s.cfg.envFaults = false) (hw : s.prog[s.pc.toNat]? = some w) (hd : decode w = .invalid why) :
    step s = .next (raiseFault .illegalCommand s) := by
  simp [step, fetch, running, quiet, fetchAt_of_invalid hw hd]

/-- The environment's scripted "no fault" is used up, and the fetch goes on (R110). -/
theorem drawFault_scripted {s : State} {b : Bool} {rest : List Bool} (h : s.env.faults = b :: rest) :
    drawFault s = (b, setEnv { s.env with faults := rest } s) := by
  simp [drawFault, h]

theorem step_of_invalid_scripted {s : State} {w : CmdWord} {why : Invalid} {rest : List Bool}
    (running : s.halted = false) (faulty : s.cfg.envFaults = true) (script : s.env.faults = false :: rest)
    (hw : s.prog[s.pc.toNat]? = some w) (hd : decode w = .invalid why) :
    step s = .next (raiseFault .illegalCommand (setEnv { s.env with faults := rest } s)) := by
  have fetched : fetchAt (setEnv { s.env with faults := rest } s) = .trap .illegalCommand _ := fetchAt_of_invalid hw hd
  simp [step, fetch, running, faulty, drawFault_scripted script, fetched]

/-! ## The obligations -/

/-- Settles O2: a command of a row's opcode is decoded from a word that matches the row, and a word that matches is read
by it; the binding is tested first, and by no other test. -/
theorem commandWordsMatchTheirRow : Obligations.CommandWordsMatchTheirRow := by
  refine ⟨fun i s => (exec_eq_wrongBinding_iff i s).trans (admittedBy_eq_false_iff i s.cfg.binding), fun w =>
    ⟨invalid_iff_no_match w, ?_, ?_, ?_, ?_, ?_, ?_, ?_, ?_, ?_⟩⟩
  · exact ⟨fun ⟨_, _, _, h⟩ => match_of_decode (k := 0) rfl h (opField_encode _),
      fun hm => ⟨_, _, _, decode_of_match_at (k := 0) rfl hm⟩⟩
  · exact ⟨fun ⟨_, _, h⟩ => match_of_decode (k := 1) rfl h (opField_encode _),
      fun hm => ⟨_, _, decode_of_match_at (k := 1) rfl hm⟩⟩
  · exact ⟨fun ⟨_, _, h⟩ => match_of_decode (k := 2) rfl h (opField_encode _),
      fun hm => ⟨_, _, decode_of_match_at (k := 2) rfl hm⟩⟩
  · exact ⟨fun ⟨_, h⟩ => match_of_decode (k := 3) rfl h (opField_encode _),
      fun hm => ⟨_, decode_of_match_at (k := 3) rfl hm⟩⟩
  · exact ⟨fun ⟨_, h⟩ => match_of_decode (k := 4) rfl h (opField_encode _),
      fun hm => ⟨_, decode_of_match_at (k := 4) rfl hm⟩⟩
  · exact ⟨fun ⟨_, h⟩ => match_of_decode (k := 5) rfl h (opField_encode _),
      fun hm => ⟨_, decode_of_match_at (k := 5) rfl hm⟩⟩
  · exact ⟨fun ⟨_, h⟩ => match_of_decode (k := 6) rfl h (opField_encode _),
      fun hm => ⟨_, decode_of_match_at (k := 6) rfl hm⟩⟩
  · exact ⟨fun ⟨_, h⟩ => match_of_decode (k := 7) rfl h (opField_encode _),
      fun hm => ⟨_, decode_of_match_at (k := 7) rfl hm⟩⟩
  · exact ⟨fun h => match_of_decode (k := 8) rfl h (opField_encode _), fun hm => decode_of_match_at (k := 8) rfl hm⟩

/-- Settles O3: the illegal words by opcode and must-be-zero bits, their fault at the fetch, and the refused pins. -/
theorem illegalWordsAreExactlyThese : Obligations.IllegalWordsAreExactlyThese := by
  refine ⟨fun w => ?_, ⟨_, rfl⟩, ⟨_, rfl⟩, fun _ _ _ => step_of_invalid, fun _ _ _ _ => step_of_invalid_scripted, ?_⟩
  · rw [invalid_iff, opcode_without_row_iff, mustBeZero_by_format, or_assoc]
  · intro pin b s above i hi
    have notWf : i.wf = false := by
      simp only [List.mem_cons, List.not_mem_nil, or_false] at hi
      rcases hi with rfl | rfl | rfl | rfl <;> simpa [Instr.wf] using above
    exact ⟨decode_encode i, exec_of_not_wf notWf s⟩

/-- Settles O4: a decoded command is the one its word encodes, so its operands are the word's fields. -/
theorem operandsAreTheFieldValues : Obligations.OperandsAreTheFieldValues := by
  refine ⟨fun i s h => ⟨decode_encode i, exec_of_not_wf h s⟩, fun w => ⟨?_, ?_, ?_, ?_⟩⟩
  · intro d o i h
    obtain rfl := encode_of_decode h
    rw [← daddrField_toNat, ← oaddrField_toNat, ← iaddrField_toNat, daddrField_construct, oaddrField_construct,
      iaddrField_construct]
    exact ⟨rfl, rfl, rfl⟩
  · rintro p v (h | h)
    · obtain rfl := encode_of_decode h
      rw [← pinField_toNat, ← valField_iff, pinField_setPinMode, valField_setPinMode]
      exact ⟨rfl, Iff.rfl⟩
    · obtain rfl := encode_of_decode h
      rw [← pinField_toNat, ← valField_iff, pinField_setPinState, valField_setPinState]
      exact ⟨rfl, Iff.rfl⟩
  · rintro p (h | h)
    · rw [← encode_of_decode h, ← pinField_toNat, pinField_readPin]
    · rw [← encode_of_decode h, ← pinField_toNat, pinField_toggle]
  · rintro n (h | h | h)
    · rw [← encode_of_decode h, ← countField_toNat, countField_delay]
    · rw [← encode_of_decode h, ← countField_toNat, countField_delayMs]
    · rw [← encode_of_decode h, ← countField_toNat, countField_jump]

end Sys2Proof.Machine
end

-- The family of 40_port_ops.md: the read-modify-write and the Port commands (R71 to R80).
section
/-!
PROOFS. The read-modify-writes as one record update, the refusals the Port commands share, the conditions of `construct`,
and what a read of `IN` shows of a driven pin; from these, the statements O17 to O22, O24 and O29.
-/

namespace Sys2Proof.Machine

/-! ## The read-modify-write (R71) -/

/-- The two events of a read-modify-write of `DIR` stand next to each other in the trace. -/
theorem emit_wr_writeDir_emit_rd (a : Addr) (old new : Byte) (s : State) :
    emit (.wr .dir a new) (writeDir new (emit (.rd .dir a old) s)) =
      { s with dir := new, trace := s.trace ++ [.rd .dir a old, .wr .dir a new] } := by
  simp [emit, writeDir]

/-- The two events of a read-modify-write of `OUT` stand next to each other in the trace. -/
theorem emit_wr_writeOut_emit_rd (a : Addr) (old new : Byte) (s : State) :
    emit (.wr .out a new) (writeOut new (emit (.rd .out a old) s)) =
      { s with out := new, trace := s.trace ++ [.rd .out a old, .wr .out a new] } := by
  simp [emit, writeOut]

theorem withBit_getLsbD_self (old : Byte) (p : Pin) (set : Bool) : (withBit old p set).getLsbD p.val = set := by
  rw [withBit_getLsbD old p set p.isLt, if_pos rfl]

theorem withBit_getLsbD_of_ne (old : Byte) {p q : Pin} (h : q ≠ p) (set : Bool) :
    (withBit old p set).getLsbD q.val = old.getLsbD q.val := by
  rw [withBit_getLsbD old p set q.isLt, if_neg fun e => h (Fin.ext e)]

/-- Writing the `OUT` bit of an input pin moves no line (R17, R75). -/
theorem pad_withBit_of_input {s t : State} {p : Pin} {b : Bool} (input : s.dir.getLsbD p.val = false)
    (dir : t.dir = s.dir) (out : t.out = withBit s.out p b) (outside : Byte) (q : Pin) :
    pad t outside q = pad s outside q := by
  rw [pad_eq, pad_eq, dir, out]
  by_cases same : q = p
  · simp only [same, input, Bool.false_eq_true, if_false]
  · rw [withBit_getLsbD_of_ne s.out same]

/-! ## The refusals of the shared precondition (R72) -/

/-- The three refusals of `requirePort`, each under its own condition and none of those tested before it. -/
theorem requirePort_refuses {α : Type} (pin : Byte) (s : State) (k : Pin → Result α) :
    (s.cfg.binding = .capability → requirePort pin s k = .refused .wrongBinding) ∧
    (s.cfg.binding = .port → s.bind.bound = false → requirePort pin s k = .refused .portNotConstructed) ∧
    (s.cfg.binding = .port → s.bind.bound = true → 7 < pin.toNat →
      requirePort pin s k = .refused .pinOutOfRange) :=
  ⟨fun capability => requirePort_eq_refused.2 (.inl ⟨by simp [capability], rfl⟩),
    fun port unbound => requirePort_eq_refused.2 (.inr ⟨port, .inl ⟨unbound, rfl⟩⟩),
    fun port bound above => requirePort_eq_refused.2 (.inr ⟨port, .inr ⟨bound, .inl ⟨above, rfl⟩⟩⟩)⟩

/-! ## `construct` (R73) -/

theorem distinctAddrs_eq_false {d o i : Addr} : distinctAddrs d o i = false ↔ d = o ∨ d = i ∨ o = i := by
  simp [distinctAddrs, imp_iff_not_or, or_assoc]

/-- `construct` refuses at the first of its four conditions that does not hold. -/
theorem execConstruct_eq_refused {d o i : Addr} {s : State} {reason : Refusal} :
    execConstruct d o i s = .refused reason ↔
      (s.cfg.binding ≠ .port ∧ .wrongBinding = reason) ∨
      (s.cfg.binding = .port ∧
        ((s.bind.bound = true ∧ .secondConstruct = reason) ∨
         (s.bind.bound = false ∧
          (((validAddress s.cfg d = false ∨ validAddress s.cfg o = false ∨ validAddress s.cfg i = false) ∧
              .invalidAddress = reason) ∨
           ((validAddress s.cfg d = true ∧ validAddress s.cfg o = true ∧ validAddress s.cfg i = true) ∧
              (d = o ∨ d = i ∨ o = i) ∧ .overlappingAddresses = reason))))) := by
  simp only [execConstruct, requireBinding_eq_refused, require_eq_refused, reduceCtorEq, and_false, or_false,
    Bool.not_eq_false', Bool.not_eq_true', Bool.and_eq_true, Bool.and_eq_false_iff, distinctAddrs_eq_false, and_assoc,
    or_assoc]

/-! ## What a read of `IN` shows (R23, R76) -/

theorem exists_answersInput (env : Env) : ∃ raw after, AnswersInput env raw after := by
  cases h : env.inputs with
  | nil => exact ⟨_, _, .inr ⟨h, rfl, rfl⟩⟩
  | cons raw rest => exact ⟨raw, _, .inl ⟨rest, h, rfl⟩⟩

/-- On an output pin `IN` shows the pin's bit of `OUT` under LOOPBACK, the environment's bit otherwise. -/
theorem testBit_inputShown_of_output {s : State} {p : Pin} (output : s.dir.getLsbD p.val = true) (raw : Byte) :
    testBit (inputShown s raw) p = if s.cfg.loopback then s.out.getLsbD p.val else raw.getLsbD p.val := by
  rw [testBit_eq, inputShown]
  split
  · rw [padByte_getLsbD _ _ _ p.isLt, if_pos output]
  · rfl

/-- Making a pin an output leaves the Port ready and the environment as it was. -/
theorem makeOutput_ready {s : State} (ready : s.PortReady) (p : Pin) :
    ∃ t, exec (.setPinMode (pinOperand p) true) s = .next t ∧ t.PortReady ∧ t.dir.getLsbD p.val = true ∧
      t.cfg = s.cfg ∧ t.env = s.env :=
  ⟨_, setPinMode_ready ready p true, portReady_congr ready rfl rfl, withBit_getLsbD_self s.dir p true, rfl, rfl⟩

/-- Commanding a level leaves the Port ready, the directions and the environment as they were. -/
theorem drive_ready {s : State} (ready : s.PortReady) (p : Pin) (b : Bool) :
    ∃ t, exec (.setPinState (pinOperand p) b) s = .next t ∧ t.PortReady ∧ t.out.getLsbD p.val = b ∧
      t.dir = s.dir ∧ t.cfg = s.cfg ∧ t.env = s.env :=
  ⟨_, setPinState_ready ready p b, portReady_congr ready rfl rfl, withBit_getLsbD_self s.out p b, rfl, rfl, rfl⟩

/-- Reading an output pin: the result is its bit of `OUT` under LOOPBACK, the environment's bit otherwise. -/
theorem readOutput_ready {s : State} (ready : s.PortReady) {p : Pin} (output : s.dir.getLsbD p.val = true)
    {raw : Byte} {after : Env} (answer : AnswersInput s.env raw after) :
    ∃ t, exec (.readPin (pinOperand p)) s = .next t ∧ t.PortReady ∧
      t.res = .written (if s.cfg.loopback then s.out.getLsbD p.val else raw.getLsbD p.val) ∧
      t.dir = s.dir ∧ t.cfg = s.cfg ∧ t.env = after := by
  have read := readPin_ready ready p
  rw [drawInput_of_answersInput answer, testBit_inputShown_of_output output] at read
  exact ⟨_, read, portReady_congr ready rfl rfl, rfl, rfl, rfl, rfl⟩

/-- Driving an output pin and reading it back: the result is the level driven under LOOPBACK, the environment's bit
otherwise. -/
theorem driveThenRead_ready {s : State} (ready : s.PortReady) {p : Pin} (output : s.dir.getLsbD p.val = true) (b : Bool)
    {raw : Byte} {after : Env} (answer : AnswersInput s.env raw after) :
    ∃ t, execSeq [.setPinState (pinOperand p) b, .readPin (pinOperand p)] s = .next t ∧ t.PortReady ∧
      t.res = .written (if s.cfg.loopback then b else raw.getLsbD p.val) ∧
      t.dir = s.dir ∧ t.cfg = s.cfg ∧ t.env = after := by
  obtain ⟨u, driven, readyU, level, dirU, cfgU, envU⟩ := drive_ready ready p b
  obtain ⟨t, read, readyT, res, dirT, cfgT, envT⟩ := readOutput_ready readyU (by rwa [dirU]) (by rwa [envU])
  rw [cfgU, level] at res
  exact ⟨t, by rw [execSeq_cons, driven, andThen_next, execSeq_cons, read, andThen_next, execSeq_nil], readyT, res,
    dirT.trans dirU, cfgT.trans cfgU, envT⟩

/-- The round trip of R80 for the environment's next two answers: under LOOPBACK the levels driven, otherwise the
answers. -/
theorem roundTrip {s : State} (ready : s.PortReady) (p : Pin) {raw raw' : Byte} {after after' : Env}
    (answer : AnswersInput s.env raw after) (answer' : AnswersInput after raw' after') :
    ∃ t u, execSeq [.setPinMode (pinOperand p) true, .setPinState (pinOperand p) true, .readPin (pinOperand p)] s =
        .next t ∧ t.res = .written (if s.cfg.loopback then true else raw.getLsbD p.val) ∧
      execSeq [.setPinState (pinOperand p) false, .readPin (pinOperand p)] t = .next u ∧
      u.res = .written (if s.cfg.loopback then false else raw'.getLsbD p.val) := by
  obtain ⟨m, hm, readyM, output, cfgM, envM⟩ := makeOutput_ready ready p
  obtain ⟨t, ht, readyT, resT, dirT, cfgT, envT⟩ := driveThenRead_ready readyM output true (by rwa [envM])
  obtain ⟨u, hu, -, resU, -⟩ := driveThenRead_ready readyT (by rwa [dirT]) false (by rwa [envT])
  rw [cfgM] at resT
  rw [cfgT, cfgM] at resU
  exact ⟨t, u, by rw [execSeq_cons, hm, andThen_next, ht], resT, hu, resU⟩

/-! ## No fault (R79) -/

section
variable {α β : Type} {fault : Fault}

theorem require_eq_fault {c : Bool} {r : Refusal} {k : Result α} :
    require c r k = .fault fault ↔ c = true ∧ k = .fault fault := by
  cases c <;> simp [require]

theorem requirePin_eq_fault {b : Byte} {k : Pin → Result α} :
    requirePin b k = .fault fault ↔ ∃ p, pinOf b = some p ∧ k p = .fault fault := by
  unfold requirePin
  cases pinOf b <;> simp

/-- Past the shared precondition the Port is constructed, and a fault is the operation's own. -/
theorem requirePort_ne_fault {b : Byte} {s : State} {k : Pin → Result α}
    (h : s.bind.bound = true → ∀ p, k p ≠ .fault fault) : requirePort b s k ≠ .fault fault := by
  intro faults
  obtain ⟨-, faults⟩ := require_eq_fault.1 faults
  obtain ⟨bound, faults⟩ := require_eq_fault.1 faults
  obtain ⟨p, -, faults⟩ := requirePin_eq_fault.1 faults
  exact h bound p faults

/-- An operation that completes, followed by an update of the state, raises no fault. -/
theorem andThen_next_ne_fault {x : Result α} (completes : ∃ a, x = .next a) (f : α → β) :
    andThen x (fun a => .next (f a)) ≠ .fault fault := by
  obtain ⟨a, rfl⟩ := completes
  nofun

end

theorem execConstruct_ne_fault (d o i : Addr) (s : State) (fault : Fault) : execConstruct d o i s ≠ .fault fault := by
  simp [execConstruct, requireBinding, require_eq_fault]

/-! ## The obligations -/

/-- Settles O17: the new values are `withBit` of the old ones. -/
theorem readModifyWriteKeepsTheOtherBits : Obligations.ReadModifyWriteKeepsTheOtherBits := by
  intro s p b bound ⟨dirNeOut, _⟩
  refine ⟨withBit s.dir p b, withBit s.out p b, rfl, rfl, ?_, ?_,
    withBit_getLsbD_self _ p b, withBit_getLsbD_self _ p b,
    fun q other => ⟨withBit_getLsbD_of_ne _ other b, withBit_getLsbD_of_ne _ other b⟩⟩
  · rw [rmw_dir bound, emit_wr_writeDir_emit_rd]
  · rw [rmw_out bound dirNeOut.symm, emit_wr_writeOut_emit_rd]

/-- Settles O18: the inversions of `construct`, for its next state and for its refusals. -/
theorem constructBindsOnce : Obligations.ConstructBindsOnce := fun s d o i =>
  ⟨fun port unbound valid distinct => execConstruct_eq_next.2 ⟨port, unbound, valid, distinct, rfl⟩,
    fun capability => execConstruct_eq_refused.2 (.inl ⟨by simp [capability], rfl⟩),
    fun port bound => execConstruct_eq_refused.2 (.inr ⟨port, .inl ⟨bound, rfl⟩⟩),
    fun port unbound invalid => execConstruct_eq_refused.2 (.inr ⟨port, .inr ⟨unbound, .inl ⟨invalid, rfl⟩⟩⟩),
    fun port unbound valid equal =>
      execConstruct_eq_refused.2 (.inr ⟨port, .inr ⟨unbound, .inr ⟨valid, equal, rfl⟩⟩⟩)⟩

/-- Settles O19: the read-modify-write of `DIR`, and the line by the pin's new direction. -/
theorem setPinModeWritesOneDirBit : Obligations.SetPinModeWritesOneDirBit := by
  intro s pin b
  refine ⟨fun port bound inRange => ?_, fun t outside p named h => ?_, requirePort_refuses pin s _⟩
  · refine execSetPinMode_eq_next.2 ⟨port, bound, ⟨pin.toNat, by omega⟩, pinOf_eq_some.2 rfl, ?_⟩
    rw [emit_wr_writeDir_emit_rd]
    rfl
  · obtain ⟨-, -, q, hq, rfl⟩ := execSetPinMode_eq_next.1 h
    obtain rfl : p = q := Option.some.inj ((pinOf_eq_some.2 named).symm.trans hq)
    rw [pad_eq]
    simp only [advance_dir, advance_out, emit_dir, emit_out, writeDir_dir, writeDir_out, withBit_getLsbD_self]

/-- Settles O20: the read-modify-write of `OUT`, whose new bit reaches no line while the pin is an input. -/
theorem setPinStateWritesOneOutBit : Obligations.SetPinStateWritesOneOutBit := by
  intro s pin b
  refine ⟨fun p port bound ⟨dirNeOut, _⟩ named => ?_, fun t outside p q ⟨dirNeOut, _⟩ named input h => ?_,
    requirePort_refuses pin s _⟩
  · refine (execSetPinState_eq_next dirNeOut.symm).2 ⟨port, bound, p, pinOf_eq_some.2 named, ?_⟩
    rw [emit_wr_writeOut_emit_rd, named]
    rfl
  · obtain ⟨-, -, r, hr, rfl⟩ := (execSetPinState_eq_next dirNeOut.symm).1 h
    obtain rfl : p = r := Option.some.inj ((pinOf_eq_some.2 named).symm.trans hr)
    refine pad_withBit_of_input (b := b) input ?_ ?_ outside q
    · rfl
    · rfl

/-- Settles O21: the read of `IN` for the environment's answer, and the pin's bit of the byte read. -/
theorem readPinSamplesOneBit : Obligations.ReadPinSamplesOneBit := by
  refine fun s pin => ⟨?_, requirePort_refuses pin s _⟩
  rintro raw v after ⟨port, bound, -, dirNeIn, outNeIn⟩ inRange answer rfl
  refine (execReadPin_eq_next dirNeIn.symm outNeIn.symm).2
    ⟨port, bound, ⟨pin.toNat, by omega⟩, pinOf_eq_some.2 rfl, ?_⟩
  rw [drawInput_of_answersInput answer, testBit_eq]
  rfl

/-- Settles O22: both commands store `withBit` of the old value. -/
theorem siblingsArePreserved : Obligations.SiblingsArePreserved := fun s p b ready =>
  ⟨⟨_, setPinMode_ready ready p b, withBit_getLsbD_self s.dir p b,
      fun _ other => withBit_getLsbD_of_ne s.dir other b, rfl⟩,
    ⟨_, setPinState_ready ready p b, withBit_getLsbD_self s.out p b,
      fun _ other => withBit_getLsbD_of_ne s.out other b, rfl⟩⟩

/-- Settles O24: the round trip for whatever the environment answers, and for the two answers that hold the results
asked for. -/
theorem roundTripUnderLoopback : Obligations.RoundTripUnderLoopback := by
  refine fun s p ready => ⟨fun looped => ?_, fun unlooped first second => ?_⟩
  · obtain ⟨raw, after, answer⟩ := exists_answersInput s.env
    obtain ⟨raw', after', answer'⟩ := exists_answersInput after
    simpa only [looped, if_true] using roundTrip ready p answer answer'
  · have trip := roundTrip (s := setEnv { s.env with inputs := [withBit 0#8 p first, withBit 0#8 p second] } s)
      (portReady_congr ready rfl rfl) p (.inl ⟨_, rfl, rfl⟩) (.inl ⟨_, rfl, rfl⟩)
    simp only [setEnv_cfg, unlooped, Bool.false_eq_true, if_false, withBit_getLsbD_self] at trip
    exact ⟨_, trip⟩

/-- Settles O29: the accesses of a constructed Port complete, and only `halt` and `toggle` take a fault entry. -/
theorem portCommandsRaiseNoFault : Obligations.PortCommandsRaiseNoFault := by
  refine fun i s port => ⟨fun r => ?_, fun t h => ?_⟩
  · rcases port with ⟨d, o, n, rfl⟩ | ⟨pin, b, rfl⟩ | ⟨pin, b, rfl⟩ | ⟨pin, rfl⟩
    · exact execConstruct_ne_fault d o n s r
    · exact requirePort_ne_fault fun bound p => andThen_next_ne_fault (rmw_completes bound p b).1 _
    · exact requirePort_ne_fault fun bound p => andThen_next_ne_fault (rmw_completes bound p b).2 _
    · exact requirePort_ne_fault fun bound p => andThen_next_ne_fault (memRead_inAddr_completes bound) _
  · rcases exec_completes_or_faults h with done | ⟨rfl, -⟩ | ⟨p, e, rfl, -⟩
    · exact ⟨done.halted, done.cause⟩
    · simp at port
    · simp at port

end Sys2Proof.Machine
end

-- The family of 41_delay.md: the counted delay (R86, R87, R88).
section
/-!
PROOFS. The counted loop of R86 ends after `count` iterations, by induction on its fuel; with what one `delay` does, the
statements O30 to O32.
-/

namespace Sys2Proof.Machine

/-! ## The counted loop (R86, R92) -/

/-- The increment of R92 does not wrap: `CNT` is below a count of its own width. -/
theorem toNat_add_one_of_lt {cnt count : Count} (h : cnt < count) : (cnt + 1#32).toNat = cnt.toNat + 1 := by
  bv_omega

/-- One iteration of the loop of R86. -/
theorem countedLoop_succ_of_lt {count cnt : Count} (h : cnt < count) (fuel : Nat) :
    countedLoop count (fuel + 1) cnt =
      ((countedLoop count fuel (cnt + 1#32)).1 + 1, (countedLoop count fuel (cnt + 1#32)).2) :=
  if_pos h

/-- With `CNT = count` the loop of R86 has ended, whatever the fuel. -/
theorem countedLoop_self (count : Count) (fuel : Nat) : countedLoop count fuel count = (0, count) := by
  cases fuel with
  | zero => rfl
  | succ fuel => exact if_neg (BitVec.lt_irrefl count)

/-- From a `CNT` that is not past `count`, the loop makes the iterations that are missing and ends at `count`. -/
theorem countedLoop_of_le {count : Count} :
    ∀ {fuel : Nat} {cnt : Count}, cnt.toNat ≤ count.toNat → count.toNat - cnt.toNat ≤ fuel →
      countedLoop count fuel cnt = (count.toNat - cnt.toNat, count) := by
  intro fuel
  induction fuel with
  | zero =>
    intro cnt le enough
    obtain rfl : cnt = count := BitVec.eq_of_toNat_eq (by omega)
    rw [countedLoop_self, Nat.sub_self]
  | succ fuel ih =>
    intro cnt le enough
    by_cases more : cnt < count
    · have below : cnt.toNat < count.toNat := BitVec.lt_def.1 more
      have next := toNat_add_one_of_lt more
      rw [countedLoop_succ_of_lt more, ih (by omega) (by omega), next]
      exact Prod.ext (by dsimp only; omega) rfl
    · obtain rfl : cnt = count := BitVec.eq_of_toNat_eq (Nat.le_antisymm le (BitVec.not_lt.1 more))
      rw [countedLoop_self, Nat.sub_self]

theorem countedLoop_zero {count : Count} {fuel : Nat} (enough : count.toNat ≤ fuel) :
    countedLoop count fuel 0#32 = (count.toNat, count) :=
  countedLoop_of_le (cnt := 0#32) (Nat.zero_le _) enough

/-- What `delay` records is the number of iterations its loop makes (R88). -/
theorem toNat_iterations_eq_countedLoop {count : Count} {fuel : Nat} (enough : count.toNat ≤ fuel) :
    (iterations count).toNat = (countedLoop count fuel 0#32).1 := by
  rw [countedLoop_zero enough, iterations]

/-! ## One `delay` -/

/-- `delay` needs no constructed Port and no register of it: only the trace and `pc` change. -/
theorem exec_delay_of_port {s : State} (port : s.cfg.binding = .port) (count : Count) :
    exec (.delay count) s =
      .next { s with trace := s.trace ++ [.delay (iterations count)], pc := s.pc + 1#32 } :=
  execDelay_eq_next.2 ⟨port, rfl⟩

/-! ## The obligations -/

/-- Settles O30: the next state of `delay`, its refusal, and its loop from `CNT = 0`. -/
theorem delayCountsAndRecords : Obligations.DelayCountsAndRecords := fun s count =>
  ⟨fun port => exec_delay_of_port port count,
    fun capability => (exec_eq_wrongBinding_iff (.delay count) s).2 (by rw [capability]; rfl),
    fun _ enough => countedLoop_zero enough⟩

/-- Settles O31: the count 0 of O30, for which every fuel is enough. -/
theorem zeroDelayIsRecorded : Obligations.ZeroDelayIsRecorded :=
  ⟨fun _ port => exec_delay_of_port port 0#32, fun fuel => countedLoop_zero (Nat.zero_le fuel)⟩

/-- Settles O32: the two delays complete and record their `iterations`, which their loops make. -/
theorem delayIsMonotonic : Obligations.DelayIsMonotonic := fun _ a b port =>
  ⟨iterations a, iterations b, _, _, exec_delay_of_port port a, rfl, exec_delay_of_port port b, rfl, rfl, rfl, rfl,
    fun _ enough => toNat_iterations_eq_countedLoop enough, fun _ enough => toNat_iterations_eq_countedLoop enough, id⟩

end Sys2Proof.Machine
end

-- The family of 42_toggle_loop.md: the toggle command and the Timed Toggle Loop (R95, R98, R100, R101, R103).
section
/-!
PROOFS. The toggle under each binding, the initial sequence, one HIGH, LOW, HIGH swing of the loop's pin, the command at
each place of the loop and the state it leads to; from these, the statements O34, O36, O38, O39 and O41.
-/

namespace Sys2Proof.Machine

/-! ## The toggle under each binding (R95) -/

theorem exec_toggle_of_port {s : State} (port : s.cfg.binding = .port) (pin : Byte) :
    exec (.toggle pin) s = togglePort pin s := by
  simp only [exec, execToggle, port]

theorem exec_toggle_of_capability {s : State} (capability : s.cfg.binding = .capability) (pin : Byte) :
    exec (.toggle pin) s = toggleCapability pin s := by
  simp only [exec, execToggle, capability]

/-- The collaborator's next toggle result is `ok` and leaves the environment as `after`: the next scripted result, or a
free value where the script has run out (R95). -/
def AnswersToggle (env : Env) (ok : Bool) (after : Env) : Prop :=
  (∃ rest, env.toggles = ok :: rest ∧ after = { env with toggles := rest }) ∨
    (env.toggles = [] ∧ ok = Config.toggleResult env.draws ∧ after = { env with draws := env.draws + 1 })

theorem drawToggle_of_answersToggle {s : State} {ok : Bool} {after : Env} (h : AnswersToggle s.env ok after) :
    drawToggle s = (ok, setEnv after s) := by
  obtain ⟨rest, scripted, rfl⟩ | ⟨exhausted, rfl, rfl⟩ := h
  · simp [drawToggle, scripted]
  · simp [drawToggle, exhausted]

theorem withBit_bitOfLevel_invert (old : Byte) (p : Pin) (l : Level) :
    withBit old p (bitOfLevel (invert l)) =
      if l = .low then old ||| 1#8 <<< p.val else old &&& ~~~ (1#8 <<< p.val) := by
  cases l <;> rfl

theorem withBit_false (old : Byte) (p : Pin) : withBit old p false = old &&& ~~~ (1#8 <<< p.val) := rfl

theorem invert_eq_ite (l : Level) : invert l = if l = .low then .high else .low := by
  cases l <;> rfl

/-! ## The initial sequence (R98) -/

/-- Making a pin an output writes its bit of `DIR` and leaves the Port ready with `OUT` as it was. -/
theorem makeOutput_ready_keeps_out {s : State} (ready : s.PortReady) (p : Pin) :
    ∃ t, exec (.setPinMode (pinOperand p) true) s = .next t ∧ t.PortReady ∧ t.dir = withBit s.dir p true ∧
      t.out = s.out ∧ t.bind = s.bind ∧
      t.trace = s.trace ++ [.rd .dir s.bind.dirAddr s.dir, .wr .dir s.bind.dirAddr (withBit s.dir p true)] :=
  ⟨_, setPinMode_ready ready p true, portReady_congr ready rfl rfl, rfl, rfl, rfl, by simp⟩

/-- Commanding a level writes the pin's bit of `OUT` and remembers the level; `DIR` is as it was. -/
theorem drive_ready_keeps_dir {s : State} (ready : s.PortReady) (p : Pin) (b : Bool) :
    ∃ t, exec (.setPinState (pinOperand p) b) s = .next t ∧ t.dir = s.dir ∧ t.out = withBit s.out p b ∧
      levelOf t p = .commanded (levelOfBit b) ∧
      t.trace = s.trace ++ [.rd .out s.bind.outAddr s.out, .wr .out s.bind.outAddr (withBit s.out p b)] :=
  ⟨_, setPinState_ready ready p b, rfl, rfl, levelOf_writeLevel_self p _ _, by simp⟩

/-! ## One swing of the loop's pin (R100, R101) -/

theorem loopUniform_port (p : Byte) (d : Count) (here : Pc) :
    loopUniform .port p d here = [.toggle p, .delay d, .toggle p, .delay d, .jump here] := rfl

theorem loopPatterned_port (p : Byte) (d l : Count) (here : Pc) :
    loopPatterned .port p d l here = [.toggle p, .delay d, .toggle p, .delay d, .toggle p, .delay d,
      .toggle p, .delay d, .delay l, .jump here] := rfl

/-- Two commands, then the rest. -/
theorem execSeq_cons_cons (i j : Instr) (is : List Instr) (s : State) :
    execSeq (i :: j :: is) s = andThen (execSeq [i, j] s) (execSeq is) :=
  execSeq_append [i, j] is s

/-- Two toggles, each with its hold, from HIGH with the `OUT` bit 1: LOW is visited once, and the level, `OUT` and `DIR`
are back where they were. -/
theorem swing_ready {s : State} (ready : s.PortReady) {p : Pin} (high : levelOf s p = .commanded .high)
    (bit : s.out.getLsbD p.val = true) (n : Count) :
    ∃ t u, execSeq [.toggle (pinOperand p), .delay n] s = .next t ∧ levelOf t p = .commanded .low ∧
      execSeq [.toggle (pinOperand p), .delay n] t = .next u ∧ levelOf u p = .commanded .high ∧
      u.PortReady ∧ u.out = s.out ∧ u.dir = s.dir ∧ u.halted = s.halted ∧ u.bind = s.bind ∧
      u.trace = s.trace ++ [.rd .out s.bind.outAddr s.out, .wr .out s.bind.outAddr (withBit s.out p false), .delay n,
        .rd .out s.bind.outAddr (withBit s.out p false), .wr .out s.bind.outAddr s.out, .delay n] := by
  obtain ⟨t, ht, readyT, levelT, outT, dirT, haltedT, bindT, traceT⟩ := toggle_delay_ready ready p high n
  obtain ⟨u, hu, readyU, levelU, outU, dirU, haltedU, bindU, traceU⟩ := toggle_delay_ready readyT p levelT n
  have low : t.out = withBit s.out p false := outT
  have restored : withBit t.out p true = s.out := by rw [low, withBit_withBit, withBit_same bit]
  refine ⟨t, u, ht, levelT, hu, levelU, readyU, outU.trans restored, dirU.trans dirT, haltedU.trans haltedT,
    bindU.trans bindT, ?_⟩
  rw [traceU, traceT, bindT, List.append_assoc, low]
  simp [invert, bitOfLevel, withBit_same bit]

/-! ## The commands of the loop, place by place (R102, R104) -/

/-- Every place of a body that its jump ends holds the jump, or a toggle or a hold with a command after it. -/
theorem getElem?_loopBody_jump {b : Binding} {p : Byte} {seq : LoopSeq} {target : Pc} {k : Nat} {c : Instr}
    (h : (loopBody b p seq ++ [.jump target])[k]? = some c) :
    c = .jump target ∨ ((c = .toggle p ∨ ∃ n, c = holdCommand b n) ∧ k < (loopBody b p seq).length) := by
  by_cases inBody : k < (loopBody b p seq).length
  · rw [List.getElem?_append_left inBody] at h
    exact .inr ⟨mem_loopBody (List.mem_of_getElem? h), inBody⟩
  · rw [List.getElem?_append_right (by omega)] at h
    exact .inl (by simpa using List.mem_of_getElem? h)

theorem loopCommands_of_capability {cfg : Launch} (capability : cfg.binding = .capability) (d o i : Addr) :
    loopCommands cfg d o i = loopBody .capability (pinOperand cfg.loopPin) cfg.loopSeq ++ [Instr.jump 0#32] := by
  simp [loopCommands, capability]

theorem loopCommands_of_port {cfg : Launch} (port : cfg.binding = .port) (d o i : Addr) :
    loopCommands cfg d o i =
      .construct d o i :: .setPinMode (pinOperand cfg.loopPin) true :: .setPinState (pinOperand cfg.loopPin) true ::
        (loopBody .port (pinOperand cfg.loopPin) cfg.loopSeq ++ [Instr.jump 3#32]) := by
  simp [loopCommands, loopInit, port]

/-- The loop's command at index `k` under the capability binding. -/
theorem loopCommand_of_capability {cfg : Launch} (capability : cfg.binding = .capability) {d o i : Addr} {k : Nat}
    {c : Instr} (h : (loopCommands cfg d o i)[k]? = some c) :
    c = .jump 0#32 ∨
      ((c = .toggle (pinOperand cfg.loopPin) ∨ ∃ n, c = .delayMs n) ∧ k + 1 < (loopCommands cfg d o i).length) := by
  rw [loopCommands_of_capability capability] at h ⊢
  simpa [holdCommand] using getElem?_loopBody_jump h

/-- The loop's command at index `k` under the port binding. -/
theorem loopCommand_of_port {cfg : Launch} (port : cfg.binding = .port) {d o i : Addr} {k : Nat} {c : Instr}
    (h : (loopCommands cfg d o i)[k]? = some c) :
    (c = .jump 3#32 ∧ 3 ≤ k) ∨
      (((k = 0 ∧ c = .construct d o i) ∨ (k = 1 ∧ c = .setPinMode (pinOperand cfg.loopPin) true) ∨
          (k = 2 ∧ c = .setPinState (pinOperand cfg.loopPin) true) ∨
          (3 ≤ k ∧ (c = .toggle (pinOperand cfg.loopPin) ∨ ∃ n, c = .delay n))) ∧
        k + 1 < (loopCommands cfg d o i).length) := by
  rw [loopCommands_of_port port] at h ⊢
  match k with
  | 0 => exact .inr ⟨.inl ⟨rfl, by simpa using h.symm⟩, by simp⟩
  | 1 => exact .inr ⟨.inr (.inl ⟨rfl, by simpa using h.symm⟩), by simp⟩
  | 2 => exact .inr ⟨.inr (.inr (.inl ⟨rfl, by simpa using h.symm⟩)), by simp⟩
  | k + 3 =>
    rcases getElem?_loopBody_jump (k := k) h with jump | ⟨body, inBody⟩
    · exact .inl ⟨jump, by omega⟩
    · exact .inr ⟨.inr (.inr (.inr ⟨by omega, body⟩)), by simpa using inBody⟩

/-! ## Moving within the loop (R103) -/

section
variable {s t : State} {d o i : Addr}

theorem State.InLoop.withEnv (h : s.InLoop d o i) (e : Env) : (setEnv e s).InLoop d o i :=
  ⟨h.running, h.valid, h.prog, h.short, h.inside, h.unbound, h.bound, h.driven⟩

/-- The word at `pc` is that of the loop's command there. -/
theorem State.InLoop.fetched (h : s.InLoop d o i) :
    ∃ c, (loopCommands s.cfg d o i)[s.pc.toNat]? = some c ∧ s.prog[s.pc.toNat]? = some (encode c) := by
  have inside := h.inside
  rw [h.prog, List.length_map] at inside
  exact ⟨_, List.getElem?_eq_getElem inside, by rw [h.prog, List.getElem?_map, List.getElem?_eq_getElem inside]; rfl⟩

theorem State.InLoop.length_prog (h : s.InLoop d o i) : s.prog.length = (loopCommands s.cfg d o i).length := by
  rw [h.prog, List.length_map]

theorem State.InLoop.toNat_pc_add_one (h : s.InLoop d o i) : (s.pc + 1#32).toNat = s.pc.toNat + 1 :=
  BitVec.toNat_add_of_lt (by have := h.inside; have := h.short; change s.pc.toNat + 1 < 2 ^ 32; omega)

theorem State.InLoop.portReady (h : s.InLoop d o i) (port : s.cfg.binding = .port) (past : s.pc ≠ 0#32) :
    s.PortReady := by
  obtain ⟨-, distinct⟩ := h.valid port
  unfold State.PortReady Bind.Separate
  rw [h.bound port past]
  exact ⟨port, rfl, distinct⟩

/-- A running state further along the same loop, under the port binding. -/
theorem State.InLoop.move_of_port (h : s.InLoop d o i) (port : s.cfg.binding = .port)
    (kept : t.cfg = s.cfg ∧ t.prog = s.prog ∧ t.halted = s.halted) (started : 0 < t.pc.toNat)
    (inside : t.pc.toNat < s.prog.length) (bind : t.bind = { bound := true, dirAddr := d, outAddr := o, inAddr := i })
    (driven : 3 ≤ t.pc.toNat → levelOf t s.cfg.loopPin ≠ .unset) : t.InLoop d o i := by
  obtain ⟨cfg, prog, halted⟩ := kept
  have past : t.pc ≠ 0#32 := fun zero => by simp [zero] at started
  exact
    { running := halted.trans h.running
      valid := by rw [cfg]; exact h.valid
      prog := by rw [cfg, prog]; exact h.prog
      short := by rw [prog]; exact h.short
      inside := by rw [prog]; exact inside
      unbound := fun atStart => absurd (atStart (by rw [cfg, port])) past
      bound := fun _ _ => bind
      driven := fun reached => by rw [cfg]; exact driven (reached (by rw [cfg, port])) }

/-- The command after this one of the same loop, under the port binding. -/
theorem State.InLoop.advance_of_port (h : s.InLoop d o i) (port : s.cfg.binding = .port)
    (more : s.pc.toNat + 1 < (loopCommands s.cfg d o i).length)
    (kept : t.cfg = s.cfg ∧ t.prog = s.prog ∧ t.halted = s.halted ∧ t.pc = s.pc)
    (bind : t.bind = { bound := true, dirAddr := d, outAddr := o, inAddr := i })
    (driven : 2 ≤ s.pc.toNat → levelOf t s.cfg.loopPin ≠ .unset) : (advance t).InLoop d o i := by
  obtain ⟨cfg, prog, halted, pc⟩ := kept
  have next : (advance t).pc.toNat = s.pc.toNat + 1 := by rw [advance_pc, pc, h.toNat_pc_add_one]
  exact h.move_of_port port ⟨cfg, prog, halted⟩ (by omega) (by rw [next, h.length_prog]; exact more) bind
    fun reached => driven (by omega)

/-- A running state further along the same loop, under the capability binding. -/
theorem State.InLoop.move_of_capability (h : s.InLoop d o i) (capability : s.cfg.binding = .capability)
    (kept : t.cfg = s.cfg ∧ t.prog = s.prog ∧ t.halted = s.halted) (inside : t.pc.toNat < s.prog.length)
    (bind : t.bind = s.bind) (driven : levelOf t s.cfg.loopPin ≠ .unset) : t.InLoop d o i := by
  obtain ⟨cfg, prog, halted⟩ := kept
  have notPort : t.cfg.binding ≠ .port := by rw [cfg, capability]; decide
  exact
    { running := halted.trans h.running
      valid := fun port => absurd port notPort
      prog := by rw [cfg, prog]; exact h.prog
      short := by rw [prog]; exact h.short
      inside := by rw [prog]; exact inside
      unbound := fun _ => by rw [bind]; exact h.unbound fun port => by simp [port] at capability
      bound := fun port => absurd port notPort
      driven := fun _ => by rw [cfg]; exact driven }

end

/-! ## One command of the loop (R103) -/

theorem levelOf_ne_unset_iff {s : State} {p : Pin} : levelOf s p ≠ .unset ↔ ∃ l, levelOf s p = .commanded l := by
  cases levelOf s p <;> simp

theorem levelOf_writeLevel_ne_unset (p : Pin) (l : Level) (s : State) : levelOf (writeLevel p l s) p ≠ .unset :=
  levelOf_ne_unset_iff.2 ⟨l, levelOf_writeLevel_self p l s⟩

section
variable {s : State} {d o i : Addr} {c : Instr}

/-- Under the port binding the loop's command at `pc` leads to a state of the loop. -/
theorem State.InLoop.exec_of_port (h : s.InLoop d o i) (port : s.cfg.binding = .port)
    (hc : (loopCommands s.cfg d o i)[s.pc.toNat]? = some c) : ∃ t, exec c s = .next t ∧ t.InLoop d o i := by
  have past : 0 < s.pc.toNat → s.pc ≠ 0#32 := fun started zero => by simp [zero] at started
  rcases loopCommand_of_port port hc with ⟨rfl, reached⟩ | ⟨place, more⟩
  · exact ⟨_, rfl, h.move_of_port port ⟨rfl, rfl, rfl⟩ (show 0 < 3 by decide) (reached.trans_lt h.inside)
      (h.bound port (past (by omega))) fun _ => h.driven fun _ => reached⟩
  · rcases place with ⟨first, rfl⟩ | ⟨second, rfl⟩ | ⟨third, rfl⟩ | ⟨reached, rfl | ⟨n, rfl⟩⟩
    · obtain ⟨valid, distinct⟩ := h.valid port
      have unbound := h.unbound fun _ => BitVec.eq_of_toNat_eq first
      exact ⟨_, execConstruct_eq_next.2 ⟨port, unbound, valid, distinct, rfl⟩,
        h.advance_of_port port more ⟨rfl, rfl, rfl, rfl⟩ rfl (by omega)⟩
    · have started := past (by omega)
      exact ⟨_, setPinMode_ready (h.portReady port started) _ _,
        h.advance_of_port port more ⟨rfl, rfl, rfl, rfl⟩ (h.bound port started) (by omega)⟩
    · have started := past (by omega)
      exact ⟨_, setPinState_ready (h.portReady port started) _ _,
        h.advance_of_port port more ⟨rfl, rfl, rfl, rfl⟩ (h.bound port started) fun _ =>
          levelOf_writeLevel_ne_unset _ _ _⟩
    · have started := past (by omega)
      obtain ⟨l, hl⟩ := levelOf_ne_unset_iff.1 (h.driven fun _ => reached)
      exact ⟨_, toggle_ready (h.portReady port started) _ hl,
        h.advance_of_port port more ⟨rfl, rfl, rfl, rfl⟩ (h.bound port started) fun _ =>
          levelOf_writeLevel_ne_unset _ _ _⟩
    · exact ⟨_, execDelay_eq_next.2 ⟨port, rfl⟩,
        h.advance_of_port port more ⟨rfl, rfl, rfl, rfl⟩ (h.bound port (past (by omega))) fun _ =>
          h.driven fun _ => reached⟩

/-- Under the capability binding the loop's command at `pc` leads to a state of the loop, or the collaborator's toggle
fails (R104, R121). -/
theorem State.InLoop.exec_of_capability (h : s.InLoop d o i) (capability : s.cfg.binding = .capability)
    (hc : (loopCommands s.cfg d o i)[s.pc.toNat]? = some c) :
    (∃ t, exec c s = .next t ∧ t.InLoop d o i) ∨
      ((drawToggle s).1 = false ∧ exec c s =
        .next (raiseFault .toggleFailed (emit (.capToggle s.cfg.loopPin false) (drawToggle s).2))) := by
  have driven : levelOf s s.cfg.loopPin ≠ .unset := h.driven fun port => by simp [port] at capability
  have next := h.toNat_pc_add_one
  rcases loopCommand_of_capability capability hc with rfl | ⟨place, more⟩
  · exact .inl ⟨_, rfl, h.move_of_capability capability ⟨rfl, rfl, rfl⟩ (Nat.zero_lt_of_lt h.inside) rfl driven⟩
  · rw [← h.length_prog, ← next] at more
    rcases place with rfl | ⟨n, rfl⟩
    · obtain ⟨l, hl⟩ := levelOf_ne_unset_iff.1 driven
      rw [exec_toggle_of_capability capability]
      cases ok : (drawToggle s).1 with
      | true =>
        refine .inl ⟨_, toggleCapability_eq_next.2 ⟨_, pinOf_pinOperand _, l, hl, .inl ⟨ok, rfl⟩⟩, ?_⟩
        rw [drawToggle_snd]
        exact h.move_of_capability capability ⟨rfl, rfl, rfl⟩ more rfl (levelOf_writeLevel_ne_unset _ _ _)
      | false => exact .inr ⟨rfl, toggleCapability_eq_next.2 ⟨_, pinOf_pinOperand _, l, hl, .inr ⟨ok, rfl⟩⟩⟩
    · exact .inl ⟨_, execDelayMs_eq_next.2 ⟨capability, rfl⟩,
        h.move_of_capability capability ⟨rfl, rfl, rfl⟩ more rfl driven⟩

/-- A step of the loop is the environment's fault, or executes the loop's command at `pc` from a state that differs in
the environment's answers at most. -/
theorem State.InLoop.step_executes_or_envFault (h : s.InLoop d o i) :
    (s.cfg.envFaults = true ∧ step s = .next (raiseFault .envFault (drawFault s).2)) ∨
      ∃ e c, (loopCommands s.cfg d o i)[s.pc.toNat]? = some c ∧ step s = exec c (setEnv e s) := by
  obtain ⟨c, command, word⟩ := h.fetched
  rcases step_cases s with ⟨halted, -⟩ | ⟨-, faulty, -, hs⟩ |
    ⟨-, u, hu, ⟨past, -⟩ | ⟨w, why, hw, hd, -⟩ | ⟨w, c', hw, hd, hs⟩⟩
  · simp [h.running] at halted
  · exact .inl ⟨faulty, hs⟩
  · exact absurd h.inside (by omega)
  · rw [← Option.some.inj (word.symm.trans hw), decode_encode] at hd
    cases hd
  · rw [← Option.some.inj (word.symm.trans hw), decode_encode] at hd
    cases hd
    refine .inr ⟨u.env, c, command, ?_⟩
    rw [hs]
    rcases hu with ⟨-, -, rfl⟩ | ⟨-, rfl⟩
    · rw [← drawFault_snd]
    · rfl

end

/-! ## The obligations -/

/-- Settles O34: the inversions of the toggle under each binding, with the level, its bit and the environment's answer
written out. -/
theorem toggleInvertsTheLevel : Obligations.ToggleInvertsTheLevel := by
  refine ⟨fun s pin port => ?_, fun s pin capability => ?_⟩
  · rw [exec_toggle_of_port port]
    refine ⟨fun p l bound ⟨dirNeOut, _⟩ named hl => ?_, fun unbound => ?_, fun bound above => ?_,
      fun p bound named unset => ?_⟩
    · refine (togglePort_eq_next dirNeOut.symm).2 ⟨bound, p, pinOf_eq_some.2 named, l, hl, ?_⟩
      rw [emit_wr_writeOut_emit_rd, withBit_bitOfLevel_invert, invert_eq_ite, named]
      rfl
    · exact requireBound_eq_refused.2 (.inl ⟨unbound, rfl⟩)
    · exact requireBound_eq_refused.2 (.inr ⟨bound, requirePin_of_gt above _⟩)
    · exact requireBound_eq_refused.2 (.inr ⟨bound, requirePin_eq_refused.2 (.inr ⟨p, pinOf_eq_some.2 named,
        requireLevel_eq_refused.2 (.inl ⟨unset, rfl⟩)⟩)⟩)
  · rw [exec_toggle_of_capability capability]
    refine ⟨fun p l ok after named hl answer => ?_, fun above => requirePin_of_gt above _, fun p named unset => ?_⟩
    · have draw := drawToggle_of_answersToggle answer
      rw [← invert_eq_ite]
      cases ok with
      | true =>
        refine toggleCapability_eq_next.2 ⟨p, pinOf_eq_some.2 named, l, hl, .inl ⟨by rw [draw], ?_⟩⟩
        rw [draw]
        rfl
      | false =>
        refine toggleCapability_eq_next.2 ⟨p, pinOf_eq_some.2 named, l, hl, .inr ⟨by rw [draw], ?_⟩⟩
        rw [draw]
        simp [raiseFault, emit, setEnv]
    · exact requirePin_eq_refused.2 (.inr ⟨p, pinOf_eq_some.2 named, requireLevel_eq_refused.2 (.inl ⟨unset, rfl⟩)⟩)

/-- Settles O36: the read-modify-write of `DIR` leaves the Port ready with the old `OUT`, then that of `OUT`. -/
theorem loopInitDrivesHigh : Obligations.LoopInitDrivesHigh := by
  intro s p outside ready
  obtain ⟨t, mode, readyT, dirT, outT, bindT, traceT⟩ := makeOutput_ready_keeps_out ready p
  obtain ⟨u, state, dirU, outU, levelU, traceU⟩ := drive_ready_keeps_dir readyT p true
  rw [outT] at outU traceU
  have outputT : t.dir.getLsbD p.val = true := by rw [dirT, withBit_getLsbD_self]
  have outputU : u.dir.getLsbD p.val = true := by rw [dirU, outputT]
  have highU : u.out.getLsbD p.val = true := by rw [outU, withBit_getLsbD_self]
  refine ⟨t, u, rfl, mode, ?_, ?_, outputU, highU, levelU, ?_, fun q other => ?_, ?_⟩
  · rw [pad_eq, outputT, outT, if_pos rfl]
  · rw [loopInit, execSeq_cons, mode, andThen_next, execSeq_cons, state, andThen_next, execSeq_nil]
  · rw [pad_eq, outputU, highU]
    rfl
  · rw [dirU, dirT, outU, withBit_getLsbD_of_ne s.dir other, withBit_getLsbD_of_ne s.out other]
    exact ⟨rfl, rfl⟩
  · rw [traceU, traceT, bindT, List.append_assoc]
    rfl

/-- Settles O38: one swing, and the jump. -/
theorem uniformIteration : Obligations.UniformIteration := by
  refine ⟨fun p d here => ⟨rfl, loopUniform_port p d here⟩, fun s p d here ready high bit => ?_⟩
  obtain ⟨t, u, ht, levelT, hu, levelU, -, outU, dirU, haltedU, -, traceU⟩ := swing_ready ready high bit d
  refine ⟨t, setPc here u, ht, levelT, ?_, levelU, outU, dirU, rfl, haltedU, ?_⟩
  · rw [loopUniform_port, execSeq_cons_cons, ht, andThen_next, execSeq_cons_cons, hu]
    rfl
  · rw [setPc_trace, traceU, withBit_false]

/-- Settles O39: two swings, the long hold, and the jump. -/
theorem patternedIteration : Obligations.PatternedIteration := by
  refine ⟨fun p d l here => ⟨rfl, loopPatterned_port p d l here⟩, fun s p short long here ready high bit => ?_⟩
  obtain ⟨t1, t2, h1, level1, h2, level2, ready2, out2, dir2, -, bind2, trace2⟩ := swing_ready ready high bit short
  obtain ⟨t3, t4, h3, level3, h4, level4, ready4, out4, dir4, -, -, trace4⟩ :=
    swing_ready ready2 level2 (by rwa [out2]) short
  refine ⟨t1, t2, t3, t4, setPc here (advance (emit (.delay long) t4)), h1, h2, h3, h4, level1, level2, level3, level4,
    ?_, level4, out4.trans out2, dir4.trans dir2, rfl, ?_⟩
  · rw [loopPatterned_port, execSeq_cons_cons, h1, andThen_next, execSeq_cons_cons, h2, andThen_next,
      execSeq_cons_cons, h3, andThen_next, execSeq_cons_cons, h4, andThen_next, execSeq_cons,
      exec_delay_of_port ready4.1]
    rfl
  · rw [setPc_trace, advance_trace, emit_trace, trace4, trace2, out2, bind2, withBit_false]
    simp

/-- Settles O41: a step of the loop executes the command at `pc`, and every command of the loop leads back into it. -/
theorem loopNeverEnds : Obligations.LoopNeverEnds := by
  intro s d o i h
  rcases h.step_executes_or_envFault with ⟨faulty, hs⟩ | ⟨e, c, hc, hs⟩
  · rw [drawFault_snd] at hs
    exact ⟨_, hs, .inr ⟨⟨rfl, nofun⟩, fun _ _ => rfl, .inl ⟨rfl, faulty⟩⟩⟩
  · rw [hs]
    cases binding : s.cfg.binding with
    | port =>
      obtain ⟨t, ht, inLoop⟩ := (h.withEnv e).exec_of_port binding hc
      exact ⟨t, ht, .inl inLoop⟩
    | capability =>
      rcases (h.withEnv e).exec_of_capability binding hc with ⟨t, ht, inLoop⟩ | ⟨-, fails⟩
      · exact ⟨t, ht, .inl inLoop⟩
      · rw [drawToggle_snd] at fails
        exact ⟨_, fails, .inr ⟨⟨rfl, nofun⟩, fun _ _ => rfl, .inr ⟨rfl, rfl⟩⟩⟩

end Sys2Proof.Machine
end

-- The family of 43_control.md: the jump (R111) and the halt (R112).
section
/-!
PROOFS. The step of a quiet block whose `pc` is past its program; with it, the statements O43 and O44.
-/

namespace Sys2Proof.Machine

/-- Where the environment raises no faults, the fault past the end of the program is the fetch's own (R110, R122). -/
theorem step_past_end_of_quiet {s : State} (running : s.halted = false) (quiet : s.cfg.envFaults = false)
    (past : s.prog.length ≤ s.pc.toNat) : step s = .next (raiseFault .fetchOutOfRange s) := by
  have noWord : s.prog[s.pc.toNat]? = none := List.getElem?_eq_none past
  rcases step_cases s with ⟨halted, -⟩ | ⟨-, faulty, -⟩ | ⟨-, u, ⟨faulty, -⟩ | ⟨-, rfl⟩, outcome⟩
  · simp [running] at halted
  · simp [quiet] at faulty
  · simp [quiet] at faulty
  · rcases outcome with ⟨-, hs⟩ | ⟨w, -, hw, -⟩ | ⟨w, -, hw, -⟩
    · exact hs
    · simp [noWord] at hw
    · simp [noWord] at hw

/-! ## The obligations -/

/-- Settles O43: `jump` sets `pc`, and the next fetch is past the end of the program. -/
theorem jumpSetsThePc : Obligations.JumpSetsThePc := fun _ _ =>
  ⟨execJump_eq_next.2 rfl, fun running quiet past => step_past_end_of_quiet running quiet past⟩

/-- Settles O44: `halt` is a fault entry, which keeps `DIR` and `OUT`, and its state is halted. -/
theorem haltIsTerminal : Obligations.HaltIsTerminal := by
  refine fun s => ⟨raiseFault .softwareHalt s, execHalt_eq_next.2 rfl, rfl, rfl, fun outside p => ?_, fun u h => ?_⟩
  · rw [pad_eq, pad_eq, raiseFault_dir, raiseFault_out]
  · rw [step_of_halted (raiseFault_halted _ s)] at h
    cases h; rfl

end Sys2Proof.Machine
end

-- The family of 60_exceptions.md: the refusals (R124) and what is neither a fault nor a refusal (R125).
section
/-!
PROOFS. A refusal comes from one of a command's tests, whose condition is in the table of R124, and a condition of the
table makes its test, or one before it, refuse; from these, the statements O45 and O46.
-/

namespace Sys2Proof.Machine

/-! ## From a refusal to its condition (R124) -/

/-- An operation that completes, followed by an update of the state, does not refuse. -/
theorem andThen_next_ne_refused {α β : Type} {x : Result α} (completes : ∃ a, x = .next a) (f : α → β)
    (reason : Refusal) : andThen x (fun a => .next (f a)) ≠ .refused reason := by
  obtain ⟨a, rfl⟩ := completes
  nofun

/-- A Port command on a pin, whose accesses do not refuse, is refused by its shared precondition (R72). -/
theorem contractBroken_of_requirePort {α : Type} {i : Instr} {pin : Byte} {s : State} {k : Pin → Result α} {r : Refusal}
    (portCommand : (∃ b, i = .setPinMode pin b) ∨ (∃ b, i = .setPinState pin b) ∨ i = .readPin pin)
    (completes : s.bind.bound = true → ∀ p, k p ≠ .refused r) (h : requirePort pin s k = .refused r) :
    contractBroken s i r := by
  rcases requirePort_eq_refused.1 h with ⟨notPort, rfl⟩ | ⟨-, ⟨unbound, rfl⟩ | ⟨bound, ⟨above, rfl⟩ | ⟨p, -, hk⟩⟩⟩
  · rcases portCommand with ⟨b, rfl⟩ | ⟨b, rfl⟩ | rfl <;> simp [contractBroken, Instr.admittedBy, notPort]
  · rcases portCommand with ⟨b, rfl⟩ | ⟨b, rfl⟩ | rfl <;> simp [contractBroken, unbound]
  · rcases portCommand with ⟨b, rfl⟩ | ⟨b, rfl⟩ | rfl <;> simp [contractBroken, Instr.wf, above]
  · exact absurd hk (completes bound p)

theorem contractBroken_of_execConstruct {d o n : Addr} {s : State} {r : Refusal}
    (h : execConstruct d o n s = .refused r) : contractBroken s (.construct d o n) r := by
  rcases execConstruct_eq_refused.1 h with
    ⟨notPort, rfl⟩ | ⟨-, ⟨bound, rfl⟩ | ⟨-, ⟨invalid, rfl⟩ | ⟨-, overlapping, rfl⟩⟩⟩
  · simp [contractBroken, Instr.admittedBy, notPort]
  · exact ⟨bound, d, o, n, rfl⟩
  · exact ⟨d, o, n, rfl, invalid⟩
  · exact ⟨d, o, n, rfl, overlapping⟩

/-- The two tests of `toggle` under both bindings: the pin's range, and its remembered level (R95). -/
theorem contractBroken_of_requireLevel {α : Type} {pin : Byte} {s : State} {k : Pin → Level → Result α} {r : Refusal}
    (completes : ∀ p l, k p l ≠ .refused r)
    (h : requirePin pin (fun p => requireLevel p s (k p)) = .refused r) : contractBroken s (.toggle pin) r := by
  rcases requirePin_eq_refused.1 h with ⟨above, rfl⟩ | ⟨p, named, h⟩
  · simp [contractBroken, Instr.wf, above]
  · rcases requireLevel_eq_refused.1 h with ⟨unset, rfl⟩ | ⟨l, -, h⟩
    · exact ⟨pin, rfl, p, pinOf_eq_some.1 named, unset⟩
    · exact absurd h (completes p l)

theorem contractBroken_of_execToggle {pin : Byte} {s : State} {r : Refusal} (h : execToggle pin s = .refused r) :
    contractBroken s (.toggle pin) r := by
  cases binding : s.cfg.binding with
  | port =>
    rw [execToggle, binding] at h
    rcases requireBound_eq_refused.1 h with ⟨unbound, rfl⟩ | ⟨bound, h⟩
    · simp [contractBroken, unbound, binding]
    · exact contractBroken_of_requireLevel (fun p _ => andThen_next_ne_refused (rmw_completes bound p _).2 _ r) h
  | capability =>
    rw [execToggle, binding] at h
    refine contractBroken_of_requireLevel (fun p l => ?_) h
    cases (drawToggle s).1 <;> simp

/-- Every refusal of a command meets the condition of its reason. -/
theorem contractBroken_of_exec {i : Instr} {s : State} {r : Refusal} (h : exec i s = .refused r) :
    contractBroken s i r := by
  cases i with
  | construct d o n => exact contractBroken_of_execConstruct h
  | setPinMode pin b =>
    exact contractBroken_of_requirePort (.inl ⟨b, rfl⟩)
      (fun bound p => andThen_next_ne_refused (rmw_completes bound p b).1 _ r) h
  | setPinState pin b =>
    exact contractBroken_of_requirePort (.inr (.inl ⟨b, rfl⟩))
      (fun bound p => andThen_next_ne_refused (rmw_completes bound p b).2 _ r) h
  | readPin pin =>
    exact contractBroken_of_requirePort (.inr (.inr rfl))
      (fun bound _ => andThen_next_ne_refused (memRead_inAddr_completes bound) _ r) h
  | delay n =>
    obtain ⟨notPort, rfl⟩ | ⟨-, h⟩ := requireBinding_eq_refused.1 h
    · simp [contractBroken, Instr.admittedBy, notPort]
    · cases h
  | delayMs n =>
    obtain ⟨notCapability, rfl⟩ | ⟨-, h⟩ := requireBinding_eq_refused.1 h
    · simp [contractBroken, Instr.admittedBy, notCapability]
    · cases h
  | toggle pin => exact contractBroken_of_execToggle h
  | jump target => cases h
  | halt => cases h

/-! ## From a condition to a refusal (R124) -/

theorem requireBound_of_unbound {α : Type} {s : State} (unbound : s.bind.bound = false) (k : Result α) :
    ∃ r, requireBound s k = .refused r :=
  ⟨_, requireBound_eq_refused.2 (.inl ⟨unbound, rfl⟩)⟩

/-- The last three tests of `construct`: one that does not hold gives a refusal, after whatever is tested before it. -/
theorem execConstruct_refuses {d o n : Addr} {s : State}
    (broken : s.bind.bound = true ∨
      (validAddress s.cfg d = false ∨ validAddress s.cfg o = false ∨ validAddress s.cfg n = false) ∨
      (d = o ∨ d = n ∨ o = n)) : ∃ r, execConstruct d o n s = .refused r := by
  refine require_refuses ?_
  rcases broken with bound | invalid | overlapping
  · exact ⟨_, require_eq_refused.2 (.inl ⟨by simp only [bound, Bool.not_true], rfl⟩)⟩
  · exact require_refuses ⟨_, require_eq_refused.2 (.inl ⟨by simpa only [Bool.and_eq_false_iff, or_assoc] using invalid, rfl⟩)⟩
  · exact require_refuses (require_refuses
      ⟨_, require_eq_refused.2 (.inl ⟨distinctAddrs_eq_false.2 overlapping, rfl⟩)⟩)

theorem execToggle_of_unset {pin : Byte} {s : State} {p : Pin} (named : pin.toNat = p.val)
    (unset : levelOf s p = .unset) : ∃ r, execToggle pin s = .refused r := by
  have refuses : ∀ k : Pin → Level → Result State,
      requirePin pin (fun p => requireLevel p s (k p)) = .refused .toggleBeforeDrive := fun k =>
    requirePin_eq_refused.2 (.inr ⟨p, pinOf_eq_some.2 named, requireLevel_eq_refused.2 (.inl ⟨unset, rfl⟩)⟩)
  unfold execToggle
  cases s.cfg.binding with
  | port => exact require_refuses ⟨_, refuses _⟩
  | capability => exact ⟨_, refuses _⟩

/-- Where the condition of some reason holds, the command is refused, for that reason or for one tested before it. -/
theorem exec_refuses_of_contractBroken {i : Instr} {s : State} {r : Refusal} (broken : contractBroken s i r) :
    ∃ r', exec i s = .refused r' := by
  cases r with
  | notModelled => exact broken.elim
  | writeToInputRegister => exact broken.elim
  | pinOutOfRange => exact exec_of_not_wf broken s
  | wrongBinding => exact ⟨_, (exec_eq_wrongBinding_iff i s).2 broken⟩
  | portNotConstructed =>
    obtain ⟨unbound, ⟨p, b, rfl⟩ | ⟨p, b, rfl⟩ | ⟨p, rfl⟩ | ⟨⟨p, rfl⟩, port⟩⟩ := broken
    · exact require_refuses (requireBound_of_unbound unbound _)
    · exact require_refuses (requireBound_of_unbound unbound _)
    · exact require_refuses (requireBound_of_unbound unbound _)
    · rw [exec_toggle_of_port port]
      exact requireBound_of_unbound unbound _
  | secondConstruct =>
    obtain ⟨bound, d, o, n, rfl⟩ := broken
    exact execConstruct_refuses (.inl bound)
  | invalidAddress =>
    obtain ⟨d, o, n, rfl, invalid⟩ := broken
    exact execConstruct_refuses (.inr (.inl invalid))
  | overlappingAddresses =>
    obtain ⟨d, o, n, rfl, overlapping⟩ := broken
    exact execConstruct_refuses (.inr (.inr overlapping))
  | toggleBeforeDrive =>
    obtain ⟨pin, rfl, p, named, unset⟩ := broken
    exact execToggle_of_unset named unset

/-! ## The obligations -/

/-- Settles O45: each refusal traced to its test, each condition to a refusal, and the write to `IN_ADDR`. -/
theorem refusalsAreTheContractViolations : Obligations.RefusalsAreTheContractViolations :=
  ⟨fun _ _ => ⟨fun _ => contractBroken_of_exec, fun ⟨_, broken⟩ => exec_refuses_of_contractBroken broken⟩,
    fun _ v bound ⟨_, dirNeIn, outNeIn⟩ => memWrite_inp_refused bound dirNeIn.symm outNeIn.symm v⟩

/-- Settles O46: the next state of each command on a ready Port; no Port command changes `HALTED`, and rewriting a bit
that is already there leaves `DIR` as it was. -/
theorem notFaultedNotRefused : Obligations.NotFaultedNotRefused := by
  intro s p b ready running
  refine ⟨fun _ => ⟨_, setPinState_ready ready p b, running, withBit_getLsbD_self s.out p b⟩, fun _ => ?_,
    fun same => ⟨_, setPinMode_ready ready p b, running, withBit_same same⟩,
    ⟨_, exec_delay_of_port ready.1 0#32, running⟩,
    fun _ => ⟨_, setPinMode_ready ready p false, running, withBit_getLsbD_self s.dir p false⟩,
    execJump_eq_next.2 rfl⟩
  have read := readPin_ready ready p
  have keeps := (portCommandsRaiseNoFault _ s (.inr (.inr (.inr ⟨_, rfl⟩)))).2 _ read
  exact ⟨_, read, keeps.1.trans running⟩

end Sys2Proof.Machine
end

-- The invariant at every command boundary: O54, O55, O57.
section
/-!
PROOFS. The remaining operations that keep `State.Inv` (the binding, a level under the capability binding), with them
every command and every step; from these, the statements O54, O55 and O57.
-/

namespace Sys2Proof.Machine

/-! ## The operations that keep the invariant -/

/-- An unbound Port has had no access, so what it has recorded is in place for any binding (R16, R39). -/
theorem eventInPlace_of_unbound {b : Bind} (unbound : b.bound = false) (b' : Bind) {e : Event}
    (h : eventInPlace b e) : eventInPlace b' e := by
  cases e with
  | rd r a v => exact absurd h.1 (by simp [unbound])
  | wr r a v => exact absurd h.1 (by simp [unbound])
  | delay n => trivial
  | delayMs n => trivial
  | capToggle p ok => trivial
  | halt c => trivial

theorem inv_bindPort {s : State} (h : s.Inv) (port : s.cfg.binding = .port) (unbound : s.bind.bound = false)
    {d o i : Addr}
    (valid : validAddress s.cfg d = true ∧ validAddress s.cfg o = true ∧ validAddress s.cfg i = true)
    (distinct : d ≠ o ∧ d ≠ i ∧ o ≠ i) : (bindPort d o i s).Inv where
  bind := fun _ => ⟨distinct, fun r => by
    cases r with
    | dir => exact valid.1
    | out => exact valid.2.1
    | inp => exact valid.2.2⟩
  unbound := fun _ => nofun
  capability := fun capability => nomatch port.symm.trans capability
  level := h.level
  cause := h.cause
  trace := fun e he => eventInPlace_of_unbound unbound _ (h.trace e he)
  readBack := h.readBack
  halt := h.halt

/-- Under the capability binding a level that is set stays set, whatever it becomes (R95). -/
theorem inv_writeLevel_of_capability {s : State} (h : s.Inv) (capability : s.cfg.binding = .capability) {p : Pin}
    (set : levelOf s p ≠ .unset) (l : Level) : (writeLevel p l s).Inv where
  bind := h.bind
  unbound := fun port => nomatch capability.symm.trans port
  capability := fun _ => by
    obtain ⟨unbound, unset_iff⟩ := h.capability capability
    refine ⟨unbound, fun q => ?_⟩
    by_cases same : q = p
    · subst same
      exact iff_of_false (levelOf_writeLevel_ne_unset q l s) (mt (unset_iff q).2 set)
    · rw [levelOf_writeLevel_of_ne same]
      exact unset_iff q
  level := fun port => nomatch capability.symm.trans port
  cause := h.cause
  trace := h.trace
  readBack := h.readBack
  halt := h.halt

/-- A read of a bound register, with its event (R32). -/
theorem inv_memRead {a : Addr} {v : Byte} {s u : State} (h : s.Inv) (running : s.halted = false)
    (read : memRead a s = .next (v, u)) : u.Inv := by
  obtain ⟨bound, r, e, place, rfl⟩ := memRead_eq_next read
  refine inv_emit (inv_setEnv h e) running (fun _ _ _ => lastWrite_snoc _ _ _ _) rfl ⟨bound, ?_⟩
  cases r with
  | dir => exact place
  | out => exact place
  | inp => exact place

/-- The read-modify-write of `OUT` together with the level it commands (R71, R75, R95). -/
theorem inv_rmw_out {p : Pin} {l : Level} {s u : State} (h : s.Inv) (running : s.halted = false)
    (port : s.cfg.binding = .port) (write : rmw s.bind.outAddr p (bitOfLevel l) s = .next u) :
    (writeLevel p l u).Inv := by
  obtain ⟨bound, -⟩ := rmw_eq_next write
  have outNeDir := (h.bind bound).1.1.symm
  rw [rmw_out bound outNeDir] at write
  cases write
  exact inv_driveOut (inv_memRead h running (memRead_out bound outNeDir)) running port bound p l

/-- One toggle invocation on the capability pin, with the environment's answer used up (R95). -/
theorem inv_capToggle {s : State} (h : s.Inv) (running : s.halted = false) (e : Env) (p : Pin) (ok : Bool) :
    (emit (.capToggle p ok) (setEnv e s)).Inv :=
  inv_emit (inv_setEnv h e) running (fun _ _ _ => lastWrite_snoc _ _ _ _) rfl trivial

/-! ## Commands and steps -/

/-- Every command of a running block keeps the invariant. -/
theorem inv_exec {i : Instr} {s t : State} (h : s.Inv) (running : s.halted = false) (hx : exec i s = .next t) :
    t.Inv := by
  rcases exec_next hx with ⟨d, o, n, -, port, unbound, valid, distinct, rfl⟩ | ⟨p, b, -, -, bound, rfl⟩ |
    ⟨p, b, u, -, port, write, rfl⟩ | ⟨p, v, u, -, -, read, rfl⟩ | ⟨n, -, -, rfl⟩ | ⟨n, -, -, rfl⟩ |
    ⟨p, l, u, -, port, -, write, rfl⟩ | ⟨p, l, e, -, capability, set, rfl | rfl⟩ | ⟨n, -, rfl⟩ | ⟨-, rfl⟩
  · exact inv_advance (inv_bindPort h port unbound valid distinct)
  · exact inv_advance (inv_writeDir (inv_memRead h running (memRead_dir bound)) running bound _)
  · exact inv_advance (inv_rmw_out h running port (by rwa [bitOfLevel_levelOfBit]))
  · exact inv_advance (inv_writeRes (inv_memRead h running read) _)
  · exact inv_advance (inv_emit h running (fun _ _ _ => lastWrite_snoc _ _ _ _) rfl trivial)
  · exact inv_advance (inv_emit h running (fun _ _ _ => lastWrite_snoc _ _ _ _) rfl trivial)
  · exact inv_advance (inv_rmw_out h running port write)
  · exact inv_advance (inv_writeLevel_of_capability (inv_capToggle h running e p true) capability
      (levelOf_ne_unset_iff.2 ⟨l, set⟩) _)
  · exact inv_raiseFault (inv_capToggle h running e p false) running (by decide)
  · exact inv_setPc h n
  · exact inv_raiseFault h running (by decide)

theorem inv_launch (cfg : Launch) (prog : List CmdWord) (env : Env) : (State.launch cfg prog env).Inv where
  bind := nofun
  unbound := fun port _ => levelOf_launch_port port prog env
  capability := fun capability => ⟨rfl, fun p => by
    rw [levelOf_launch_capability (cfg := cfg) capability]
    by_cases same : p = cfg.loopPin <;> simp [same, State.launch]⟩
  level := fun port p l set => by
    rw [levelOf_launch_port (cfg := cfg) port] at set
    cases set
  cause := iff_of_true rfl rfl
  trace := nofun
  readBack := ⟨rfl, rfl⟩
  halt := ⟨fun _ => nofun, nofun⟩

/-! ## The obligations -/

/-- Settles O55: a step stays, takes a fault entry, or executes one command, after at most one draw. -/
theorem invariantIsKept : Obligations.InvariantIsKept := by
  intro s t h hs
  rcases step_next hs with ⟨-, rfl⟩ | ⟨running, e, ⟨c, rfl, cause⟩ | ⟨w, i, -, -, hx⟩⟩
  · exact h
  · exact inv_raiseFault (inv_setEnv h e) running (by rcases cause with rfl | rfl | rfl <;> decide)
  · exact inv_exec (inv_setEnv h e) running hx

/-- Settles O54: every launch holds the invariant, and reset is one. -/
theorem invariantHoldsAtLaunch : Obligations.InvariantHoldsAtLaunch :=
  ⟨inv_launch, inv_launch _ _ _, rfl, rfl, rfl⟩

/-- Settles O57: a read answers the register, and the invariant says what it holds. -/
theorem readsReturnTheLastWrite : Obligations.ReadsReturnTheLastWrite := by
  intro s h bound
  obtain ⟨dir, out⟩ := h.readBack
  rw [← dir, ← out]
  exact ⟨⟨_, memRead_dir bound⟩, ⟨_, memRead_out bound (h.bind bound).1.1.symm⟩⟩

end Sys2Proof.Machine
end

-- The step and its history: R110, R113, R128, R130, R131.
section
/-!
PROOFS. The fetch when the environment is not asked and when it is, and what follows from a fetch; what any step leaves
alone; from these, the statements O7 to O11 and O13.
-/

namespace Sys2Proof.Machine

/-! ## From a fetch to the step (R110) -/

section
variable {s t : State} {c : Cause} {i : Instr} {w : CmdWord}

theorem step_of_trap (h : fetch s = .trap c t) : step s = .next (raiseFault c t) := by
  simp only [step, h]

theorem step_of_command (h : fetch s = .command i t) : step s = exec i t := by
  simp only [step, h]

theorem fetchAt_of_command (hw : s.prog[s.pc.toNat]? = some w) (hd : decode w = .command i) :
    fetchAt s = .command i s := by
  simp only [fetchAt, hw, hd]

theorem fetchAt_of_past (past : s.prog.length ≤ s.pc.toNat) : fetchAt s = .trap .fetchOutOfRange s := by
  simp only [fetchAt, List.getElem?_eq_none past]

theorem fetch_of_quiet (running : s.halted = false) (quiet : s.cfg.envFaults = false) : fetch s = fetchAt s := by
  simp [fetch, running, quiet]

/-- The environment's next answer to the fault question is `faults` and leaves it as `after`: the next scripted answer,
or a free value where the script has run out (R110). -/
def AnswersFault (env : Env) (faults : Bool) (after : Env) : Prop :=
  (∃ rest, env.faults = faults :: rest ∧ after = { env with faults := rest }) ∨
    (env.faults = [] ∧ faults = Config.envFault env.draws ∧ after = { env with draws := env.draws + 1 })

theorem drawFault_of_answersFault {faults : Bool} {after : Env} (h : AnswersFault s.env faults after) :
    drawFault s = (faults, setEnv after s) := by
  obtain ⟨rest, scripted, rfl⟩ | ⟨exhausted, rfl, rfl⟩ := h
  · simp [drawFault, scripted]
  · simp [drawFault, exhausted]

/-- Under ENV_FAULTS the environment's answer decides between its fault and the fetch. -/
theorem fetch_of_answersFault (running : s.halted = false) (faulty : s.cfg.envFaults = true) {faults : Bool}
    {after : Env} (answer : AnswersFault s.env faults after) :
    fetch s = if faults then .trap .envFault (setEnv after s) else fetchAt (setEnv after s) := by
  simp [fetch, running, faulty, drawFault_of_answersFault answer]

theorem step_of_envFault (running : s.halted = false) (faulty : s.cfg.envFaults = true) {after : Env}
    (answer : AnswersFault s.env true after) : step s = .next (raiseFault .envFault (setEnv after s)) :=
  step_of_trap (fetch_of_answersFault running faulty answer)

/-! ## The command at `pc`, and the two faults of the fetch -/

theorem step_of_command_quiet (running : s.halted = false) (quiet : s.cfg.envFaults = false)
    (hw : s.prog[s.pc.toNat]? = some w) (hd : decode w = .command i) : step s = exec i s :=
  step_of_command ((fetch_of_quiet running quiet).trans (fetchAt_of_command hw hd))

theorem step_of_command_asked (running : s.halted = false) (faulty : s.cfg.envFaults = true) {after : Env}
    (answer : AnswersFault s.env false after) (hw : s.prog[s.pc.toNat]? = some w) (hd : decode w = .command i) :
    step s = exec i (setEnv after s) :=
  step_of_command ((fetch_of_answersFault running faulty answer).trans (fetchAt_of_command hw hd))

/-- What the fetch itself finds wrong at `pc`: nothing to fetch, or a word that spells no command (R122). -/
def FetchFault (s : State) (c : Cause) : Prop :=
  (c = .fetchOutOfRange ∧ s.prog.length ≤ s.pc.toNat) ∨
    (c = .illegalCommand ∧ ∃ w why, s.prog[s.pc.toNat]? = some w ∧ decode w = .invalid why)

theorem fetchAt_of_fetchFault (h : FetchFault s c) : fetchAt s = .trap c s := by
  obtain ⟨rfl, past⟩ | ⟨rfl, w, why, hw, hd⟩ := h
  · exact fetchAt_of_past past
  · exact fetchAt_of_invalid hw hd

theorem step_of_fetchFault_quiet (running : s.halted = false) (quiet : s.cfg.envFaults = false)
    (h : FetchFault s c) : step s = .next (raiseFault c s) :=
  step_of_trap ((fetch_of_quiet running quiet).trans (fetchAt_of_fetchFault h))

theorem step_of_fetchFault_asked (running : s.halted = false) (faulty : s.cfg.envFaults = true) {after : Env}
    (answer : AnswersFault s.env false after) (h : FetchFault s c) :
    step s = .next (raiseFault c (setEnv after s)) :=
  step_of_trap ((fetch_of_answersFault running faulty answer).trans (fetchAt_of_fetchFault (s := setEnv after s) h))

/-! ## What every step leaves alone (R10, R24, R27, R44) -/

theorem step_keeps (h : step s = .next t) :
    t.cfg = s.cfg ∧ t.prog = s.prog ∧ (s.bind.bound = true → t.bind = s.bind) ∧
      ∃ events, t.trace = s.trace ++ events := by
  rcases step_next h with ⟨-, rfl⟩ | ⟨-, e, ⟨c, rfl, -⟩ | ⟨w, i, -, -, hx⟩⟩
  · exact ⟨rfl, rfl, fun _ => rfl, [], (List.append_nil _).symm⟩
  · exact ⟨rfl, rfl, fun _ => rfl, _, rfl⟩
  · obtain ⟨cfg, prog, bind, trace, -⟩ := exec_keeps hx
    exact ⟨cfg, prog, bind, trace⟩

end

/-! ## The obligations -/

/-- Settles O8: the environment's fault comes first, then the fetch's own. -/
theorem boundaryFaultsAreTakenInOrder : Obligations.BoundaryFaultsAreTakenInOrder := by
  intro s running
  refine ⟨fun rest faulty script => step_of_envFault running faulty (.inl ⟨rest, script, rfl⟩),
    fun faulty free yes => step_of_envFault running faulty (.inr ⟨free, yes.symm, rfl⟩), fun c found => ?_⟩
  refine ⟨fun quiet => step_of_fetchFault_quiet running quiet found,
    fun rest faulty script => step_of_fetchFault_asked running faulty (.inl ⟨rest, script, rfl⟩) found,
    fun faulty free => ?_⟩
  split
  next yes => exact step_of_envFault running faulty (.inr ⟨free, yes.symm, rfl⟩)
  next no => exact step_of_fetchFault_asked running faulty (.inr ⟨free, (Bool.eq_false_of_not_eq_true no).symm, rfl⟩) found

/-- Settles O10: a step halts by a fault of the boundary, or by a command that halts (`exec_keeps`). -/
theorem faultsArePrecise : Obligations.FaultsArePrecise := by
  intro s t running h halts
  rcases step_next h with ⟨halted, -⟩ | ⟨-, e, ⟨c, rfl, cause⟩ | ⟨w, i, -, -, hx⟩⟩
  · simp [running] at halted
  · have recorded : c ≠ .noCause ∧ c ≠ .toggleFailed := by rcases cause with rfl | rfl | rfl <;> decide
    exact ⟨rfl, rfl, rfl, rfl, rfl, rfl, rfl, rfl, recorded.1, .inl ⟨recorded.2, rfl⟩⟩
  · obtain ⟨cfg, prog, -, -, ⟨runs, -⟩ | ⟨-, dir, out, res, lvl, bind, pc, fault⟩⟩ := exec_keeps hx
    · simp [runs, running] at halts
    · refine ⟨dir, out, res, lvl, bind, pc, cfg, prog, ?_⟩
      rcases fault with ⟨-, cause, trace⟩ | ⟨cause, p, trace⟩
      · exact ⟨by rw [cause]; decide, .inl ⟨by rw [cause]; decide, by rw [cause]; exact trace⟩⟩
      · exact ⟨by rw [cause]; decide, .inr ⟨cause, p, trace⟩⟩

/-- Settles O11: a step stays, takes a fault entry, or executes one command. -/
theorem stepsOnlyExtendHistory : Obligations.StepsOnlyExtendHistory := fun _ _ => step_keeps

/-- Settles O13: the faults of the boundary and the failed toggle have other causes. -/
theorem onlyHaltEndsARunAsIntended : Obligations.OnlyHaltEndsARunAsIntended := by
  refine fun s t running h => ⟨Iff.rfl, fun ⟨halts, intended⟩ => ?_⟩
  rcases step_next h with ⟨halted, -⟩ | ⟨-, e, ⟨c, rfl, cause⟩ | ⟨w, i, hw, hd, hx⟩⟩
  · simp [running] at halted
  · rw [raiseFault_cause] at intended
    subst intended
    simp at cause
  · rcases exec_completes_or_faults hx with done | ⟨rfl, -⟩ | ⟨p, e', -, rfl⟩
    · simp [done.halted, running] at halts
    · exact ⟨w, hw, hd⟩
    · simp at intended

/-- Settles O7: the environment is asked first, then the command at `pc` executes. -/
theorem stepRunsTheDecodedCommand : Obligations.StepRunsTheDecodedCommand := by
  intro s w i running hw hd
  refine ⟨fun quiet => step_of_command_quiet running quiet hw hd,
    fun rest faulty script => step_of_command_asked running faulty (.inl ⟨rest, script, rfl⟩) hw hd,
    fun faulty free => ?_⟩
  split
  next yes => exact step_of_envFault running faulty (.inr ⟨free, yes.symm, rfl⟩)
  next no => exact step_of_command_asked running faulty (.inr ⟨free, (Bool.eq_false_of_not_eq_true no).symm, rfl⟩) hw hd

/-- Settles O9: a halted block answers itself, any number of times. -/
theorem haltedForEver : Obligations.HaltedForEver := by
  intro s k halted
  induction k with
  | zero => rfl
  | succ k ih => rw [runFor, step_of_halted halted, andThen_next, ih]

end Sys2Proof.Machine
end

-- The checks of 30_encoding.md R66 at work.
section
/-!
PROOFS. What the eight checks say of one command in its place; that a command on the path of a well-formed program meets
no condition of R124 but that of a second `construct`, and leads to a state on the path or to its end; from these, the
statements O56 and O59.
-/

namespace Sys2Proof.Machine

/-! ## The checks, for one command (R66) -/

theorem WellFormed.holds {cfg : Launch} {prog : List CmdWord} (h : WellFormed cfg prog) (c : Check) :
    c.holds cfg prog = true :=
  List.all_eq_true.1 h c (by cases c <;> decide)

theorem wordPasses_of_mem {check : Instr → Bool} {prog : List CmdWord} {w : CmdWord} {i : Instr}
    (h : prog.all (wordPasses check) = true) (hw : w ∈ prog) (hd : decode w = .command i) : check i = true := by
  simpa [wordPasses, hd] using List.all_eq_true.1 h w hw

theorem WellFormed.decodes {cfg : Launch} {prog : List CmdWord} (h : WellFormed cfg prog) {w : CmdWord}
    (hw : w ∈ prog) : ∃ i, decode w = .command i := by
  have passes := List.all_eq_true.1 (h.holds .decodes) w hw
  cases hd : decode w with
  | command i => exact ⟨i, rfl⟩
  | invalid why => simp [hd] at passes

/-- `WF_LEN`, upper half: every index of the program is a `pc`. -/
theorem WellFormed.short {cfg : Launch} {prog : List CmdWord} (h : WellFormed cfg prog) : prog.length ≤ 2 ^ 32 - 1 := by
  have len := h.holds .len
  simp only [Check.holds, Bool.and_eq_true, decide_eq_true_eq] at len
  exact len.2

/-- `WF_CONSTRUCT_FIRST`: under the port binding the first command, and no other, is a `construct`. -/
theorem WellFormed.isConstruct_iff {cfg : Launch} {prog : List CmdWord} (h : WellFormed cfg prog)
    (port : cfg.binding = .port) {k : Nat} {w : CmdWord} {i : Instr} (hw : prog[k]? = some w)
    (hd : decode w = .command i) : i.isConstruct = true ↔ k = 0 := by
  have first := h.holds .constructFirst
  simp only [Check.holds, port] at first
  cases prog with
  | nil => simp at hw
  | cons w' rest =>
    rw [Bool.and_eq_true] at first
    obtain ⟨head, tail⟩ := first
    cases k with
    | zero =>
      obtain rfl : w' = w := Option.some.inj hw
      exact iff_of_true (by simpa [hd] using head) rfl
    | succ k =>
      have other := wordPasses_of_mem tail (List.mem_of_getElem? hw) hd
      exact iff_of_false (by simpa using other) (Nat.succ_ne_zero k)

/-- What the checks that look at one command say of the command at index `k`. -/
structure WellPlaced (cfg : Launch) (prog : List CmdWord) (k : Nat) (i : Instr) : Prop where
  admitted : i.admittedBy cfg.binding = true
  pin : i.wf = true
  addr : i.addrWf cfg = true
  target : i.targetWf prog.length = true
  construct : cfg.binding = .port → (i.isConstruct = true ↔ k = 0)
  loopPin : cfg.binding = .capability → i.togglesOnly cfg.loopPin = true

theorem WellFormed.wellPlaced {cfg : Launch} {prog : List CmdWord} (h : WellFormed cfg prog) {k : Nat} {w : CmdWord}
    {i : Instr} (hw : prog[k]? = some w) (hd : decode w = .command i) : WellPlaced cfg prog k i where
  admitted := wordPasses_of_mem (h.holds .binding) (List.mem_of_getElem? hw) hd
  pin := wordPasses_of_mem (h.holds .pinRange) (List.mem_of_getElem? hw) hd
  addr := wordPasses_of_mem (h.holds .addr) (List.mem_of_getElem? hw) hd
  target := wordPasses_of_mem (h.holds .jumpTarget) (List.mem_of_getElem? hw) hd
  construct := fun port => h.isConstruct_iff port hw hd
  loopPin := fun capability => by
    have toggles := h.holds .toggleAfterDrive
    simp only [Check.holds, capability] at toggles
    exact wordPasses_of_mem toggles (List.mem_of_getElem? hw) hd

/-! ## `WF_TOGGLE_AFTER_DRIVE` from any place of the path -/

/-- What the check passes from a place on, whatever its fuel, it passes from the next place on. -/
theorem togglesDriven_next {prog : List CmdWord} {a b : Nat} {pins pins' : List Byte}
    (h : ∀ fuel, togglesDriven prog fuel a pins = true) (next : pathStep prog a pins = some (b, pins')) (fuel : Nat) :
    togglesDriven prog fuel b pins' = true :=
  togglesDriven_of_path (fun n _ _ _ _ hp hw hd =>
    togglesDriven_path (h (n + 2)) (Nat.lt_succ_self (n + 1)) ((pathFrom_cons next n).trans hp) hw hd) fuel

/-- Where a command that completes leads is the next place of the path, and the pins it adds are those it drives. -/
theorem pathStep_of_completesIn {i : Instr} {s t : State} {w : CmdWord} (hw : s.prog[s.pc.toNat]? = some w)
    (hd : decode w = .command i) (done : CompletesIn i s t) (goesOn : i ≠ .halt)
    (noWrap : (s.pc + 1#32).toNat = s.pc.toNat + 1) :
    ∃ added, (∀ pins, pathStep s.prog s.pc.toNat pins = some (t.pc.toNat, added ++ pins)) ∧
      ∀ p ∈ added, ∃ b, i = .setPinState p b := by
  have forward : (∀ n, i ≠ .jump n) → t.pc.toNat = s.pc.toNat + 1 := fun noJump => by
    rcases done.pc with jumps | ⟨-, next⟩
    · exact absurd jumps (noJump _)
    · rw [next, noWrap]
  cases i with
  | halt => exact absurd rfl goesOn
  | jump n =>
    obtain rfl : n = t.pc := by
      rcases done.pc with jumps | ⟨noJump, -⟩
      · exact Instr.jump.inj jumps
      · exact absurd rfl (noJump n)
    exact ⟨[], fun pins => by simp only [pathStep, hw, hd, List.nil_append], nofun⟩
  | setPinState p b =>
    refine ⟨[p], fun pins => ?_, fun q hq => ⟨b, by rw [List.mem_singleton.1 hq]⟩⟩
    simp only [pathStep, hw, hd, forward nofun, List.singleton_append]
  | construct | setPinMode | readPin | delay | delayMs | toggle =>
    exact ⟨[], fun pins => by simp only [pathStep, hw, hd, forward nofun, List.nil_append], nofun⟩

/-! ## Levels are never forgotten (R20) -/

theorem levelOf_writeLevel_keeps_set {p q : Pin} {l : Level} {s : State} (set : levelOf s q ≠ .unset) :
    levelOf (writeLevel p l s) q ≠ .unset := by
  by_cases same : q = p
  · subst same
    exact levelOf_writeLevel_ne_unset q l s
  · rwa [levelOf_writeLevel_of_ne same]

theorem rmw_keeps_levels {a : Addr} {p : Pin} {b : Bool} {s u : State} (h : rmw a p b s = .next u) (q : Pin) :
    levelOf u q = levelOf s q := by
  obtain ⟨-, ⟨-, rfl⟩ | ⟨-, -, rfl⟩⟩ := rmw_eq_next h
  · rfl
  · rfl

/-- A level that is set stays set. -/
theorem exec_keeps_set {i : Instr} {s t : State} (h : exec i s = .next t) {q : Pin} (set : levelOf s q ≠ .unset) :
    levelOf t q ≠ .unset := by
  rcases exec_next h with ⟨d, o, n, -, -, -, -, -, rfl⟩ | ⟨p, b, -, -, -, rfl⟩ | ⟨p, b, u, -, -, write, rfl⟩ |
    ⟨p, v, u, -, -, read, rfl⟩ | ⟨n, -, -, rfl⟩ | ⟨n, -, -, rfl⟩ | ⟨p, l, u, -, -, -, write, rfl⟩ |
    ⟨p, l, e, -, -, -, rfl | rfl⟩ | ⟨n, -, rfl⟩ | ⟨-, rfl⟩
  · exact set
  · exact set
  · exact levelOf_writeLevel_keeps_set (by rwa [rmw_keeps_levels write])
  · obtain ⟨-, r, e, -, rfl⟩ := memRead_eq_next read
    exact set
  · exact set
  · exact set
  · exact levelOf_writeLevel_keeps_set (by rwa [rmw_keeps_levels write])
  · exact levelOf_writeLevel_keeps_set set
  · exact set
  · exact set
  · exact set

/-- `set_pin_state` sets the level of its pin (R75). -/
theorem exec_setPinState_sets {s t : State} {q : Pin} {b : Bool}
    (h : exec (.setPinState (pinOperand q) b) s = .next t) : levelOf t q ≠ .unset := by
  simp only [exec, execSetPinState] at h
  obtain ⟨-, -, p, hp, h⟩ := requirePort_eq_next.1 h
  obtain ⟨u, -, h⟩ := andThen_eq_next.1 h
  obtain rfl : q = p := Option.some.inj ((pinOf_pinOperand q).symm.trans hp)
  cases h
  exact levelOf_writeLevel_ne_unset q _ u

/-! ## No command faults where the model stops (R79, R129) -/

theorem requireLevel_eq_fault {α : Type} {p : Pin} {s : State} {k : Level → Result α} {fault : Fault} :
    requireLevel p s k = .fault fault ↔ ∃ l, levelOf s p = .commanded l ∧ k l = .fault fault := by
  unfold requireLevel
  cases levelOf s p <;> simp

theorem execToggle_ne_fault (pin : Byte) (s : State) (fault : Fault) : execToggle pin s ≠ .fault fault := by
  intro h
  unfold execToggle at h
  split at h
  · obtain ⟨bound, h⟩ := require_eq_fault.1 h
    obtain ⟨p, -, h⟩ := requirePin_eq_fault.1 h
    obtain ⟨l, -, h⟩ := requireLevel_eq_fault.1 h
    exact andThen_next_ne_fault (rmw_completes bound p _).2 _ h
  · obtain ⟨p, -, h⟩ := requirePin_eq_fault.1 h
    obtain ⟨l, -, h⟩ := requireLevel_eq_fault.1 h
    split at h
    · cases h
    · cases h

/-- No command accesses an unbound address. -/
theorem exec_ne_fault (i : Instr) (s : State) (fault : Fault) : exec i s ≠ .fault fault := by
  cases i with
  | construct d o n => exact execConstruct_ne_fault d o n s fault
  | setPinMode p b => exact (portCommandsRaiseNoFault _ s (.inr (.inl ⟨p, b, rfl⟩))).1 fault
  | setPinState p b => exact (portCommandsRaiseNoFault _ s (.inr (.inr (.inl ⟨p, b, rfl⟩)))).1 fault
  | readPin p => exact (portCommandsRaiseNoFault _ s (.inr (.inr (.inr ⟨p, rfl⟩)))).1 fault
  | delay n => exact fun h => nomatch (require_eq_fault.1 h).2
  | delayMs n => exact fun h => nomatch (require_eq_fault.1 h).2
  | toggle p => exact execToggle_ne_fault p s fault
  | jump n => nofun
  | halt => nofun

/-! ## On the path (R66) -/

section
variable {s t : State} {w : CmdWord} {i : Instr}

theorem State.OnPath.withEnv (h : s.OnPath) (e : Env) : (setEnv e s).OnPath :=
  ⟨h.wf, h.running, h.inside, h.bound, h.driven, h.level⟩

theorem State.OnPath.wellPlaced (h : s.OnPath) (hw : s.prog[s.pc.toNat]? = some w) (hd : decode w = .command i) :
    WellPlaced s.cfg s.prog s.pc.toNat i :=
  h.wf.wellPlaced hw hd

/-- Before `construct` the path is at it (`WF_CONSTRUCT_FIRST`). -/
theorem State.OnPath.isConstruct_of_unbound (h : s.OnPath) (port : s.cfg.binding = .port)
    (hw : s.prog[s.pc.toNat]? = some w) (hd : decode w = .command i) (unbound : s.bind.bound = false) :
    i.isConstruct = true := by
  refine ((h.wellPlaced hw hd).construct port).2 ?_
  by_contra started
  have bound := h.bound port fun zero => started (by rw [zero]; rfl)
  simp [unbound] at bound

/-- On the path a `toggle` finds its pin driven (`WF_TOGGLE_AFTER_DRIVE`). -/
theorem State.OnPath.driven_of_toggle (h : s.OnPath) {q : Pin} (hw : s.prog[s.pc.toNat]? = some w)
    (hd : decode w = .command (.toggle (pinOperand q))) : levelOf s q ≠ .unset := by
  cases binding : s.cfg.binding with
  | port =>
    obtain ⟨pins, set, passes⟩ := h.driven binding
    exact set q (togglesDriven_path (passes 1) Nat.zero_lt_one rfl hw hd)
  | capability =>
    have only := (h.wellPlaced hw hd).loopPin binding
    simp only [Instr.togglesOnly, toNat_pinOperand, decide_eq_true_eq] at only
    rw [Fin.ext only]
    exact h.level binding

/-- On the path the one condition of R124 that a command can meet is that of a second `construct`, at command 0. -/
theorem State.OnPath.broken_only_by_second_construct (h : s.OnPath) (hw : s.prog[s.pc.toNat]? = some w)
    (hd : decode w = .command i) {r : Refusal} (broken : contractBroken s i r) :
    r = .secondConstruct ∧ s.cfg.binding = .port ∧ s.pc = 0#32 ∧ s.bind.bound = true := by
  have placed := h.wellPlaced hw hd
  cases r with
  | notModelled => exact broken.elim
  | writeToInputRegister => exact broken.elim
  | pinOutOfRange => exact nomatch broken.symm.trans placed.pin
  | wrongBinding => exact nomatch broken.symm.trans placed.admitted
  | portNotConstructed =>
    obtain ⟨unbound, command⟩ := broken
    have port : s.cfg.binding = .port := by
      have admitted := placed.admitted
      rcases command with ⟨p, b, rfl⟩ | ⟨p, b, rfl⟩ | ⟨p, rfl⟩ | ⟨-, port⟩
      · simpa [Instr.admittedBy] using admitted
      · simpa [Instr.admittedBy] using admitted
      · simpa [Instr.admittedBy] using admitted
      · exact port
    have construct := h.isConstruct_of_unbound port hw hd unbound
    rcases command with ⟨p, b, rfl⟩ | ⟨p, b, rfl⟩ | ⟨p, rfl⟩ | ⟨⟨p, rfl⟩, -⟩ <;> cases construct
  | secondConstruct =>
    obtain ⟨bound, d, o, n, rfl⟩ := broken
    have port : s.cfg.binding = .port := by simpa [Instr.admittedBy] using placed.admitted
    exact ⟨rfl, port, BitVec.eq_of_toNat_eq ((placed.construct port).1 rfl), bound⟩
  | invalidAddress =>
    obtain ⟨d, o, n, rfl, invalid⟩ := broken
    have addr := placed.addr
    rcases invalid with invalid | invalid | invalid <;> simp [Instr.addrWf, invalid] at addr
  | overlappingAddresses =>
    obtain ⟨d, o, n, rfl, overlapping⟩ := broken
    have addr := placed.addr
    simp [Instr.addrWf, distinctAddrs_eq_false.2 overlapping] at addr
  | toggleBeforeDrive =>
    obtain ⟨pin, rfl, q, named, unset⟩ := broken
    obtain rfl := eq_pinOperand (pinOf_eq_some.2 named)
    exact absurd unset (h.driven_of_toggle hw hd)

theorem State.OnPath.toNat_pc_add_one (h : s.OnPath) (hw : s.prog[s.pc.toNat]? = some w) :
    s.pc.toNat < s.prog.length ∧ (s.pc + 1#32).toNat = s.pc.toNat + 1 := by
  have inside := (List.getElem?_eq_some_iff.1 hw).1
  have short := h.wf.short
  exact ⟨inside, BitVec.toNat_add_of_lt (by change s.pc.toNat + 1 < 2 ^ 32; omega)⟩

/-- After a command that completes the Port is constructed: it was before, or the command was the first `construct`. -/
theorem State.OnPath.bound_after (h : s.OnPath) (port : s.cfg.binding = .port) (hw : s.prog[s.pc.toNat]? = some w)
    (hd : decode w = .command i) (hx : exec i s = .next t) : t.bind.bound = true := by
  cases bound : s.bind.bound with
  | true =>
    obtain ⟨-, -, kept, -⟩ := exec_keeps hx
    rw [kept bound, bound]
  | false =>
    have construct := h.isConstruct_of_unbound port hw hd bound
    cases i with
    | construct d o n =>
      obtain ⟨-, -, -, -, rfl⟩ := execConstruct_eq_next.1 hx
      rfl
    | setPinMode | setPinState | readPin | delay | delayMs | toggle | jump | halt => cases construct

/-- A command of the path that completes leads to the next state of the path. -/
theorem State.OnPath.completes (h : s.OnPath) (hw : s.prog[s.pc.toNat]? = some w) (hd : decode w = .command i)
    (hx : exec i s = .next t) (done : CompletesIn i s t) : t.OnPath := by
  obtain ⟨cfg, prog, -⟩ := exec_keeps hx
  obtain ⟨inside, noWrap⟩ := h.toNat_pc_add_one hw
  obtain ⟨running, noCause⟩ := h.running
  have goesOn : i ≠ .halt := by
    rintro rfl
    cases execHalt_eq_next.1 hx
    simpa [running] using done.halted
  refine
    { wf := by rw [cfg, prog]; exact h.wf
      running := ⟨done.halted.trans running, done.cause.trans noCause⟩
      inside := ?_
      bound := fun port _ => h.bound_after (cfg ▸ port) hw hd hx
      driven := fun port => ?_
      level := fun capability => by rw [cfg]; exact exec_keeps_set hx (h.level (cfg ▸ capability)) }
  · rw [prog]
    rcases done.pc with rfl | ⟨-, next⟩
    · have target := (h.wellPlaced hw hd).target
      simp only [Instr.targetWf, decide_eq_true_eq] at target
      exact target.le
    · rw [next, noWrap]
      exact inside
  · obtain ⟨pins, set, passes⟩ := h.driven (cfg ▸ port)
    obtain ⟨added, next, drives⟩ := pathStep_of_completesIn hw hd done goesOn noWrap
    refine ⟨added ++ pins, fun p hp => ?_, by rw [prog]; exact togglesDriven_next passes (next pins)⟩
    rcases List.mem_append.1 hp with new | old
    · obtain ⟨b, rfl⟩ := drives _ new
      exact exec_setPinState_sets hx
    · exact exec_keeps_set hx (set p old)

/-- A command of the path leads to a state of the contract: further along the path, or halted by `halt` or by the
collaborator. -/
theorem State.OnPath.exec_inContract (h : s.OnPath) (hw : s.prog[s.pc.toNat]? = some w) (hd : decode w = .command i)
    (hx : exec i s = .next t) : t.InContract := by
  rcases exec_completes_or_faults hx with done | ⟨-, rfl⟩ | ⟨p, e, -, rfl⟩
  · exact .inl (h.completes hw hd hx done)
  · exact .inr ⟨rfl, nofun, nofun, nofun⟩
  · exact .inr ⟨rfl, nofun, nofun, nofun⟩

/-- A step on the path executes the command at `pc`, after at most one draw, or takes a fault of the boundary that the
contract allows. -/
theorem State.OnPath.step_executes_or_ends (h : s.OnPath) :
    (∃ t, step s = .next t ∧ t.InContract) ∨
      ∃ e w i, s.prog[s.pc.toNat]? = some w ∧ decode w = .command i ∧ step s = exec i (setEnv e s) := by
  rcases step_cases s with ⟨halted, -⟩ | ⟨-, -, -, hs⟩ |
    ⟨-, u, hu, ⟨past, hs⟩ | ⟨w, why, hw, hd, -⟩ | ⟨w, i, hw, hd, hs⟩⟩
  · simp [h.running.1] at halted
  · exact .inl ⟨_, hs, .inr ⟨rfl, nofun, nofun, nofun⟩⟩
  · refine .inl ⟨_, hs, .inr ⟨rfl, nofun, nofun, fun _ => ?_⟩⟩
    have atEnd := Nat.le_antisymm h.inside past
    rcases hu with ⟨-, -, rfl⟩ | ⟨-, rfl⟩
    · rw [drawFault_snd]
      exact atEnd
    · exact atEnd
  · obtain ⟨i, hi⟩ := h.wf.decodes (List.mem_of_getElem? hw)
    exact nomatch hd.symm.trans hi
  · refine .inr ⟨u.env, w, i, hw, hd, hs.trans ?_⟩
    rcases hu with ⟨-, -, rfl⟩ | ⟨-, rfl⟩
    · rw [← drawFault_snd]
    · rfl

end

/-! ## In the contract (R66, R124) -/

theorem inContract_launch {cfg : Launch} {prog : List CmdWord} (env : Env) (h : WellFormed cfg prog) :
    (State.launch cfg prog env).InContract :=
  .inl
    { wf := h
      running := ⟨rfl, rfl⟩
      inside := Nat.zero_le _
      bound := fun _ moved => absurd rfl moved
      driven := fun port => by
        have toggles := h.holds .toggleAfterDrive
        simp only [Check.holds, show cfg.binding = .port from port] at toggles
        exact ⟨[], nofun, togglesDriven_any_fuel toggles⟩
      level := fun capability => by
        rw [levelOf_launch_capability (cfg := cfg) capability]
        simp [State.launch] }

section
variable {s t : State}

theorem State.InContract.step_next_inContract (h : s.InContract) (hs : step s = .next t) : t.InContract := by
  rcases h with path | ended
  · rcases path.step_executes_or_ends with ⟨t', ht', next⟩ | ⟨e, w, i, hw, hd, he⟩
    · cases ht'.symm.trans hs
      exact next
    · exact (path.withEnv e).exec_inContract hw hd (he.symm.trans hs)
  · rw [step_of_halted ended.1] at hs
    cases hs
    exact .inr ended

theorem State.InContract.step_ne_fault (h : s.InContract) (fault : Fault) : step s ≠ .fault fault := by
  rcases h with path | ⟨halted, -⟩
  · rcases path.step_executes_or_ends with ⟨t, ht, -⟩ | ⟨e, w, i, -, -, he⟩
    · rw [ht]
      nofun
    · rw [he]
      exact exec_ne_fault i _ fault
  · rw [step_of_halted halted]
    nofun

theorem State.InContract.step_refused (h : s.InContract) {r : Refusal} (hs : step s = .refused r) :
    r = .secondConstruct ∧ s.cfg.binding = .port ∧ s.pc = 0#32 ∧ s.bind.bound = true := by
  rcases h with path | ⟨halted, -⟩
  · rcases path.step_executes_or_ends with ⟨t, ht, -⟩ | ⟨e, w, i, hw, hd, he⟩
    · exact nomatch ht.symm.trans hs
    · exact (path.withEnv e).broken_only_by_second_construct hw hd (contractBroken_of_exec (he.symm.trans hs))
  · exact nomatch (step_of_halted halted).symm.trans hs

end

/-! ## Runs (R66) -/

/-- What a property kept by every step says of a run of any length: the states it reaches, and where it stops. -/
theorem runFor_of_invariant {P : State → Prop} {R : Refusal → Prop} (keeps : ∀ s t, P s → step s = .next t → P t)
    (noFault : ∀ s f, P s → step s ≠ .fault f) (refuses : ∀ s r, P s → step s = .refused r → R r) :
    ∀ (k : Nat) (s : State), P s → (∀ f, runFor k s ≠ .fault f) ∧ (∀ r, runFor k s = .refused r → R r) ∧
      ∀ t, runFor k s = .next t → P t := by
  intro k
  induction k with
  | zero => exact fun s h => by simpa [runFor] using h
  | succ k ih =>
    intro s h
    rw [runFor]
    cases hs : step s with
    | next t => exact ih t (keeps s t h hs)
    | fault f => exact absurd hs (noFault s f h)
    | refused r => simpa using refuses s r h hs

/-- A state in a run of `prog`: in the contract, and back at command 0 with a constructed Port only by a `jump 0`. -/
structure State.InRunOf (s : State) (cfg : Launch) (prog : List CmdWord) : Prop where
  contract : s.InContract
  cfg_eq : s.cfg = cfg
  prog_eq : s.prog = prog
  back : s.bind.bound = true → s.pc = 0#32 → ∃ w ∈ prog, decode w = .command (.jump 0#32)

/-- The only way back to command 0 is a `jump` to it. -/
theorem State.OnPath.jump_of_back {s t : State} {w : CmdWord} {i : Instr} (h : s.OnPath)
    (hw : s.prog[s.pc.toNat]? = some w) (done : CompletesIn i s t) (back : t.pc = 0#32) : i = .jump 0#32 := by
  obtain ⟨-, noWrap⟩ := h.toNat_pc_add_one hw
  rcases done.pc with jumps | ⟨-, next⟩
  · rw [jumps, back]
  · rw [← next, back] at noWrap
    cases noWrap

theorem State.InRunOf.next {s t : State} {cfg : Launch} {prog : List CmdWord} (h : s.InRunOf cfg prog)
    (hs : step s = .next t) : t.InRunOf cfg prog := by
  obtain ⟨cfgKept, progKept, -⟩ := step_keeps hs
  refine ⟨h.contract.step_next_inContract hs, cfgKept.trans h.cfg_eq, progKept.trans h.prog_eq, fun bound back => ?_⟩
  rcases step_next hs with ⟨-, rfl⟩ | ⟨running, e, ⟨c, rfl, -⟩ | ⟨w, i, hw, hd, hx⟩⟩
  · exact h.back bound back
  · exact h.back bound back
  · rcases exec_completes_or_faults hx with done | ⟨-, rfl⟩ | ⟨p, e', -, rfl⟩
    · obtain path | ⟨halted, -⟩ := h.contract
      · obtain rfl := path.jump_of_back hw ⟨done.halted, done.cause, done.pc⟩ back
        exact ⟨w, h.prog_eq ▸ List.mem_of_getElem? hw, hd⟩
      · exact nomatch running.symm.trans halted
    · exact h.back bound back
    · exact h.back bound back

/-! ## The obligations -/

/-- Settles O59: the checks hold at the launch, and each command of the path keeps its place in them. -/
theorem wellFormedStepsStayInTheContract : Obligations.WellFormedStepsStayInTheContract :=
  ⟨fun _ _ env wf => inContract_launch env wf, fun _ h =>
    ⟨h.step_ne_fault, fun _ => h.step_refused, fun _ => h.step_next_inContract⟩⟩

/-- Settles O56: the contract along the run, with the `jump 0` that leads back to `construct`. -/
theorem wellFormedProgramsKeepTheContract : Obligations.WellFormedProgramsKeepTheContract := by
  intro cfg prog env k wf
  have start : (State.launch cfg prog env).InRunOf cfg prog := ⟨inContract_launch env wf, rfl, rfl, nofun⟩
  obtain ⟨noFault, refused, reached⟩ := runFor_of_invariant (P := fun s => s.InRunOf cfg prog)
    (R := fun r => r = .secondConstruct ∧ cfg.binding = .port ∧ ∃ w ∈ prog, decode w = .command (.jump 0#32))
    (fun s t h => h.next) (fun s f h => h.contract.step_ne_fault f)
    (fun s r h hs => by
      obtain ⟨second, port, atFirst, bound⟩ := h.contract.step_refused hs
      exact ⟨second, h.cfg_eq ▸ port, h.back bound atFirst⟩) k _ start
  refine ⟨noFault, refused, fun t ht => ?_⟩
  obtain ⟨path | ⟨-, -, legal, atEnd⟩, -, rfl, -⟩ := reached t ht
  · rw [path.running.2]
    exact ⟨nofun, nofun⟩
  · exact ⟨legal, atEnd⟩

end Sys2Proof.Machine
end

-- The family of 30_encoding.md, third part: byte streams (R36) and the words of V-ENC.
section
/-!
PROOFS. A word is made of its eight bytes, and the words of V-ENC are encoded commands; from these, the statements O5
and O6.
-/

namespace Sys2Proof

theorem wordBytes_eq_map (w : CmdWord) : wordBytes w = (List.range 8).map fun k => w.extractLsb' (8 * k) 8 := rfl

/-- A word is the join of its eight bytes, the least significant one first (R36). -/
theorem wordOfBytes_bytes (w : CmdWord) :
    wordOfBytes (w.extractLsb' 0 8) (w.extractLsb' 8 8) (w.extractLsb' 16 8) (w.extractLsb' 24 8)
      (w.extractLsb' 32 8) (w.extractLsb' 40 8) (w.extractLsb' 48 8) (w.extractLsb' 56 8) = w := by
  simp only [wordOfBytes, BitVec.extractLsb'_append_extractLsb'_eq_extractLsb']
  exact BitVec.extractLsb'_eq_self

/-- Reading one word off a stream (R36). -/
theorem programOfBytes_wordBytes_append (w : CmdWord) (rest : List Byte) :
    programOfBytes (wordBytes w ++ rest) = (programOfBytes rest).map (w :: ·) := by
  simp only [wordBytes, List.cons_append, List.nil_append, programOfBytes, wordOfBytes_bytes]

theorem programOfBytes_programBytes (ws : List CmdWord) : programOfBytes (programBytes ws) = some ws := by
  induction ws with
  | nil => rfl
  | cons w ws ih =>
    rw [programBytes, List.flatMap_cons, programOfBytes_wordBytes_append]
    exact congrArg (Option.map (w :: ·)) ih

/-- Settles O6: word by word, by the join of its bytes. -/
theorem byteStreamsGiveTheProgramBack : Obligations.ByteStreamsGiveTheProgramBack := by
  refine ⟨programOfBytes_programBytes, fun w k hk => ⟨w.extractLsb' (8 * k) 8, ?_, toNat_extractLsb' w (8 * k) 8⟩⟩
  rw [wordBytes_eq_map, List.getElem?_map, List.getElem?_range hk]
  rfl

/-- The word written out from a command's format is decoded to the command. -/
theorem decode_of_encode_eq {w : CmdWord} {i : Instr} (h : encode i = w) : decode w = .command i :=
  h ▸ decode_encode i

/-- Settles O5: each word is the one that encodes its command. -/
theorem specWordsDecode : Obligations.SpecWordsDecode :=
  ⟨decode_of_encode_eq rfl, decode_of_encode_eq rfl, decode_of_encode_eq rfl, decode_of_encode_eq rfl,
    decode_of_encode_eq rfl, decode_of_encode_eq rfl, decode_of_encode_eq rfl, decode_of_encode_eq rfl,
    decode_of_encode_eq rfl⟩

end Sys2Proof
end

-- What each command does, as a relation: who writes which register, the access table, the frames.
section
/-!
PROOFS. The relation `Executes`, one explicit next state per command, equal to `exec` where the bound addresses are
separate; the stored bytes that a register write leaves alone; from these, the statements O15 and O47 to O52.
-/

namespace Sys2Proof.Machine

/-! ## The explicit next states -/

/-- After `set_pin_mode` (R74). -/
def writeMode (p : Pin) (b : Bool) (s : State) : State :=
  { s with
    dir := withBit s.dir p b
    trace := s.trace ++ [.rd .dir s.bind.dirAddr s.dir, .wr .dir s.bind.dirAddr (withBit s.dir p b)]
    pc := s.pc + 1#32 }

/-- After `set_pin_state`, or a `toggle` of the Port, that commands the level `l` (R75, R95). -/
def driveLevel (p : Pin) (l : Level) (s : State) : State :=
  { s with
    out := withBit s.out p (bitOfLevel l)
    lvl := s.lvl.set p.val (.commanded l) p.isLt
    trace := s.trace ++
      [.rd .out s.bind.outAddr s.out, .wr .out s.bind.outAddr (withBit s.out p (bitOfLevel l))]
    pc := s.pc + 1#32 }

/-- After `read_pin`, where the environment answers `raw` and is left as `after` (R76). -/
def samplePin (p : Pin) (raw : Byte) (after : Env) (s : State) : State :=
  { s with
    env := after
    res := .written (testBit (inputShown s raw) p)
    trace := s.trace ++ [.rd .inp s.bind.inAddr (inputShown s raw)]
    pc := s.pc + 1#32 }

section
variable {s t : State} {i : Instr}

theorem setPinMode_eq_writeMode (ready : s.PortReady) (p : Pin) (b : Bool) :
    exec (.setPinMode (pinOperand p) b) s = .next (writeMode p b s) := by
  rw [setPinMode_ready ready, emit_wr_writeDir_emit_rd]
  rfl

theorem setPinState_eq_driveLevel (ready : s.PortReady) (p : Pin) (b : Bool) :
    exec (.setPinState (pinOperand p) b) s = .next (driveLevel p (levelOfBit b) s) := by
  rw [setPinState_ready ready, emit_wr_writeOut_emit_rd, driveLevel, bitOfLevel_levelOfBit]
  rfl

theorem toggle_eq_driveLevel (ready : s.PortReady) {p : Pin} {l : Level} (set : levelOf s p = .commanded l) :
    exec (.toggle (pinOperand p)) s = .next (driveLevel p (invert l) s) := by
  rw [toggle_ready ready p set, emit_wr_writeOut_emit_rd]
  rfl

theorem readPin_eq_samplePin (ready : s.PortReady) (p : Pin) {raw : Byte} {after : Env}
    (answer : AnswersInput s.env raw after) :
    exec (.readPin (pinOperand p)) s = .next (samplePin p raw after s) := by
  rw [readPin_ready ready, drawInput_of_answersInput answer]
  rfl

theorem exists_answersToggle (env : Env) : ∃ ok after, AnswersToggle env ok after := by
  cases h : env.toggles with
  | nil => exact ⟨_, _, .inr ⟨h, rfl, rfl⟩⟩
  | cons ok rest => exact ⟨ok, _, .inl ⟨rest, h, rfl⟩⟩

/-- What each command answers as its next state, where the Port's addresses are separate. -/
inductive Executes (s : State) : Instr → State → Prop where
  | construct {d o n : Addr} (port : s.cfg.binding = .port) (unbound : s.bind.bound = false)
      (valid : validAddress s.cfg d = true ∧ validAddress s.cfg o = true ∧ validAddress s.cfg n = true)
      (distinct : d ≠ o ∧ d ≠ n ∧ o ≠ n) : Executes s (.construct d o n) (advance (bindPort d o n s))
  | setPinMode {p : Pin} {b : Bool} (ready : s.PortReady) :
      Executes s (.setPinMode (pinOperand p) b) (writeMode p b s)
  | setPinState {p : Pin} {b : Bool} (ready : s.PortReady) :
      Executes s (.setPinState (pinOperand p) b) (driveLevel p (levelOfBit b) s)
  | readPin {p : Pin} {raw : Byte} {after : Env} (ready : s.PortReady) (answer : AnswersInput s.env raw after) :
      Executes s (.readPin (pinOperand p)) (samplePin p raw after s)
  | delay {n : Count} (port : s.cfg.binding = .port) : Executes s (.delay n) (advance (emit (.delay n) s))
  | delayMs {n : Count} (capability : s.cfg.binding = .capability) :
      Executes s (.delayMs n) (advance (emit (.delayMs n) s))
  | togglePort {p : Pin} {l : Level} (ready : s.PortReady) (set : levelOf s p = .commanded l) :
      Executes s (.toggle (pinOperand p)) (driveLevel p (invert l) s)
  | toggleCapability {p : Pin} {l : Level} {after : Env} (capability : s.cfg.binding = .capability)
      (set : levelOf s p = .commanded l) (answer : AnswersToggle s.env true after) :
      Executes s (.toggle (pinOperand p))
        (advance (writeLevel p (invert l) (emit (.capToggle p true) (setEnv after s))))
  | toggleFails {p : Pin} {l : Level} {after : Env} (capability : s.cfg.binding = .capability)
      (set : levelOf s p = .commanded l) (answer : AnswersToggle s.env false after) :
      Executes s (.toggle (pinOperand p))
        (raiseFault .toggleFailed (emit (.capToggle p false) (setEnv after s)))
  | jump {n : Pc} : Executes s (.jump n) (setPc n s)
  | halt : Executes s .halt (raiseFault .softwareHalt s)

theorem Executes.exec_eq (h : Executes s i t) : exec i s = .next t := by
  cases h with
  | construct port unbound valid distinct => exact execConstruct_eq_next.2 ⟨port, unbound, valid, distinct, rfl⟩
  | setPinMode ready => exact setPinMode_eq_writeMode ready _ _
  | setPinState ready => exact setPinState_eq_driveLevel ready _ _
  | readPin ready answer => exact readPin_eq_samplePin ready _ answer
  | delay port => exact execDelay_eq_next.2 ⟨port, rfl⟩
  | delayMs capability => exact execDelayMs_eq_next.2 ⟨capability, rfl⟩
  | togglePort ready set => exact toggle_eq_driveLevel ready set
  | toggleCapability capability set answer =>
    rw [exec_toggle_of_capability capability]
    exact toggleCapability_eq_next.2 ⟨_, pinOf_pinOperand _, _, set, .inl (by
      rw [drawToggle_of_answersToggle answer]; exact ⟨rfl, rfl⟩)⟩
  | toggleFails capability set answer =>
    rw [exec_toggle_of_capability capability]
    exact toggleCapability_eq_next.2 ⟨_, pinOf_pinOperand _, _, set, .inr (by
      rw [drawToggle_of_answersToggle answer]; exact ⟨rfl, rfl⟩)⟩
  | jump => rfl
  | halt => rfl

/-- A Port command that answers has found the Port ready, where bound addresses are separate (R72). -/
theorem portReady_of_requirePort {α : Type} {pin : Byte} {k : Pin → Result α} {a : α}
    (separate : s.bind.bound = true → s.bind.Separate) (h : requirePort pin s k = .next a) :
    s.PortReady ∧ ∃ p, pin = pinOperand p := by
  obtain ⟨port, bound, p, named, -⟩ := requirePort_eq_next.1 h
  exact ⟨⟨port, bound, separate bound⟩, p, eq_pinOperand named⟩

/-- Where the bound addresses are separate, `Executes` is everything a command answers. -/
theorem executes_of_exec (separate : s.bind.bound = true → s.bind.Separate) (h : exec i s = .next t) :
    Executes s i t := by
  cases i with
  | construct d o n =>
    obtain ⟨port, unbound, valid, distinct, rfl⟩ := execConstruct_eq_next.1 h
    exact .construct port unbound valid distinct
  | setPinMode pin b =>
    obtain ⟨ready, p, rfl⟩ := portReady_of_requirePort separate h
    cases (setPinMode_eq_writeMode ready p b).symm.trans h
    exact .setPinMode ready
  | setPinState pin b =>
    obtain ⟨ready, p, rfl⟩ := portReady_of_requirePort separate h
    cases (setPinState_eq_driveLevel ready p b).symm.trans h
    exact .setPinState ready
  | readPin pin =>
    obtain ⟨ready, p, rfl⟩ := portReady_of_requirePort separate h
    obtain ⟨raw, after, answer⟩ := exists_answersInput s.env
    cases (readPin_eq_samplePin ready p answer).symm.trans h
    exact .readPin ready answer
  | delay n =>
    obtain ⟨port, rfl⟩ := execDelay_eq_next.1 h
    exact .delay port
  | delayMs n =>
    obtain ⟨capability, rfl⟩ := execDelayMs_eq_next.1 h
    exact .delayMs capability
  | toggle pin =>
    cases binding : s.cfg.binding with
    | port =>
      rw [exec_toggle_of_port binding] at h
      obtain ⟨bound, inner⟩ := requireBound_eq_next.1 h
      obtain ⟨p, named, inner⟩ := requirePin_eq_next.1 inner
      obtain ⟨l, set, -⟩ := requireLevel_eq_next.1 inner
      obtain rfl := eq_pinOperand named
      have ready : s.PortReady := ⟨binding, bound, separate bound⟩
      rw [← exec_toggle_of_port binding, toggle_eq_driveLevel ready set] at h
      cases h
      exact .togglePort ready set
    | capability =>
      obtain ⟨ok, after, answer⟩ := exists_answersToggle s.env
      rw [exec_toggle_of_capability binding] at h
      obtain ⟨p, named, l, set, outcome⟩ := toggleCapability_eq_next.1 h
      obtain rfl := eq_pinOperand named
      rw [drawToggle_of_answersToggle answer] at outcome
      rcases outcome with ⟨rfl, rfl⟩ | ⟨rfl, rfl⟩
      · exact .toggleCapability binding set answer
      · exact .toggleFails binding set answer
  | jump n =>
    cases h
    exact .jump
  | halt =>
    cases h
    exact .halt

/-! ## `RES` is written, never read (R18) -/

/-- Another `RES` gives the same next state, but for `RES`. -/
theorem Executes.with_res (h : Executes s i t) (r : Res) :
    ∃ t', Executes { s with res := r } i t' ∧ { t' with res := t.res } = t := by
  cases h with
  | construct port unbound valid distinct => exact ⟨_, .construct port unbound valid distinct, rfl⟩
  | setPinMode ready => exact ⟨_, .setPinMode ready, rfl⟩
  | setPinState ready => exact ⟨_, .setPinState ready, rfl⟩
  | readPin ready answer => exact ⟨_, .readPin ready answer, rfl⟩
  | delay port => exact ⟨_, .delay port, rfl⟩
  | delayMs capability => exact ⟨_, .delayMs capability, rfl⟩
  | togglePort ready set => exact ⟨_, .togglePort ready set, rfl⟩
  | toggleCapability capability set answer => exact ⟨_, .toggleCapability capability set answer, rfl⟩
  | toggleFails capability set answer => exact ⟨_, .toggleFails capability set answer, rfl⟩
  | jump => exact ⟨_, .jump, rfl⟩
  | halt => exact ⟨_, .halt, rfl⟩

/-! ## The register accesses of a trace (R16) -/

theorem accesses_append (es fs : List Event) : accesses (es ++ fs) = accesses es ++ accesses fs :=
  List.filterMap_append

theorem accesses_writeMode (p : Pin) (b : Bool) (s : State) :
    accesses (writeMode p b s).trace = accesses s.trace ++ [(false, .dir), (true, .dir)] :=
  accesses_append _ _

theorem accesses_driveLevel (p : Pin) (l : Level) (s : State) :
    accesses (driveLevel p l s).trace = accesses s.trace ++ [(false, .out), (true, .out)] :=
  accesses_append _ _

/-- An event that is no access adds none. -/
theorem accesses_snoc_of_none {e : Event} (h : accessOf e = none) (es : List Event) :
    accesses (es ++ [e]) = accesses es := by
  rw [accesses_append]
  simp [accesses, h]

/-! ## Stored bytes (R14, R30) -/

theorem storedByte_congr (bind : t.bind = s.bind) (dir : t.dir = s.dir) (out : t.out = s.out) (a : Addr) :
    storedByte t a = storedByte s a := by
  simp only [storedByte, bind, dir, out]

theorem storedByte_of_ne_dirAddr (bind : t.bind = s.bind) (out : t.out = s.out) (a : Addr)
    (other : a ≠ s.bind.dirAddr) : storedByte t a = storedByte s a := by
  simp only [storedByte, bind, out, other, if_false]

theorem storedByte_of_ne_outAddr (bind : t.bind = s.bind) (dir : t.dir = s.dir) (a : Addr)
    (other : a ≠ s.bind.outAddr) : storedByte t a = storedByte s a := by
  simp only [storedByte, bind, dir, other, if_false]

/-! ## Frames -/

theorem levelOf_writeLevel_of_val_ne {p q : Pin} (other : q.val ≠ p.val) (l : Level) (s : State) :
    levelOf (writeLevel p l s) q = levelOf s q :=
  levelOf_writeLevel_of_ne (fun same => other (congrArg Fin.val same)) l s

theorem levelOf_driveLevel_of_ne {p q : Pin} (other : q.val ≠ p.val) (l : Level) (s : State) :
    levelOf (driveLevel p l s) q = levelOf s q :=
  (levelOf_congr (s := writeLevel p l s) rfl q).trans (levelOf_writeLevel_of_val_ne other l s)

theorem withBit_getLsbD_of_val_ne (old : Byte) {p : Pin} {q : Nat} (hq : q < 8) (other : q ≠ p.val) (b : Bool) :
    (withBit old p b).getLsbD q = old.getLsbD q := by
  rw [withBit_getLsbD _ _ _ hq, if_neg other]

/-- The two commands that store in `OUT` drive their pin (R75, R95). -/
theorem driveLevel_of_exec {pin : Byte} (separate : s.bind.Separate)
    (stores : (∃ b, i = .setPinState pin b) ∨ (i = .toggle pin ∧ s.cfg.binding = .port)) (h : exec i s = .next t) :
    ∃ p l, pin.toNat = p.val ∧ t = driveLevel p l s := by
  have executes := executes_of_exec (fun _ => separate) h
  rcases stores with ⟨b, rfl⟩ | ⟨rfl, port⟩
  · cases executes with
    | setPinState ready => exact ⟨_, _, toNat_pinOperand _, rfl⟩
  · cases executes with
    | togglePort ready set => exact ⟨_, _, toNat_pinOperand _, rfl⟩
    | toggleCapability capability set answer => exact nomatch port.symm.trans capability
    | toggleFails capability set answer => exact nomatch port.symm.trans capability

/-- `read_pin` changes `RES`, the environment's answers, the trace and `pc` at most, in any state. -/
theorem readPin_next {pin : Byte} (h : exec (.readPin pin) s = .next t) :
    ∃ b event after, t = advance (writeRes b (emit event (setEnv after s))) := by
  simp only [exec, execReadPin] at h
  obtain ⟨-, -, p, -, h⟩ := requirePort_eq_next.1 h
  obtain ⟨⟨v, u⟩, read, h⟩ := andThen_eq_next.1 h
  obtain ⟨-, r, after, -, rfl⟩ := memRead_eq_next read
  cases h
  exact ⟨_, _, after, rfl⟩

end

/-! ## The obligations -/

/-- Settles O15: command by command, on the explicit next states. -/
theorem eachRegisterHasItsWriters : Obligations.EachRegisterHasItsWriters := by
  intro i s t separate h
  have executes := executes_of_exec separate h
  refine ⟨fun noMode => ?_, fun noState noToggle => ?_, fun capability => ?_, fun noRead => ?_,
    fun noConstruct => ?_, fun r => ?_⟩
  · cases executes with
    | setPinMode ready => exact absurd rfl (noMode _ _)
    | _ => rfl
  · cases executes with
    | setPinState ready => exact absurd rfl (noState _ _)
    | togglePort | toggleCapability | toggleFails => exact absurd rfl (noToggle _)
    | _ => exact ⟨rfl, rfl⟩
  · cases executes with
    | setPinState ready => exact nomatch capability.symm.trans ready.1
    | togglePort ready set => exact nomatch capability.symm.trans ready.1
    | _ => rfl
  · cases executes with
    | readPin ready answer => exact absurd rfl (noRead _)
    | _ => rfl
  · cases executes with
    | construct port unbound valid distinct => exact absurd rfl (noConstruct _ _ _)
    | _ => rfl
  · obtain ⟨t', same, but⟩ := executes.with_res r
    exact ⟨t', same.exec_eq, but⟩

/-- Settles O52: the events of each explicit next state. -/
theorem accessTable : Obligations.AccessTable := by
  intro i s t separate h
  cases executes_of_exec separate h with
  | construct port unbound valid distinct => exact (List.append_nil _).symm
  | setPinMode ready => exact accesses_writeMode _ _ s
  | setPinState ready => exact accesses_driveLevel _ _ s
  | readPin ready answer => exact accesses_append s.trace [.rd .inp _ _]
  | delay port => simpa using accesses_snoc_of_none rfl s.trace
  | delayMs capability => simpa using accesses_snoc_of_none rfl s.trace
  | togglePort ready set =>
    simp only [ready.1]
    exact accesses_driveLevel _ _ s
  | toggleCapability capability set answer => simpa [capability] using accesses_snoc_of_none rfl s.trace
  | toggleFails capability set answer =>
    simp only [capability, raiseFault_trace, emit_trace, setEnv_trace, List.append_nil]
    rw [accesses_snoc_of_none rfl, accesses_snoc_of_none rfl]
  | jump => exact (List.append_nil _).symm
  | halt => simpa using accesses_snoc_of_none rfl s.trace

/-- Settles O47: one bit of `DIR` is written, in any state. -/
theorem frameOfSetPinMode : Obligations.FrameOfSetPinMode := by
  intro s t pin b h
  obtain ⟨-, -, p, named, rfl⟩ := execSetPinMode_eq_next.1 h
  rw [emit_wr_writeDir_emit_rd, pinOf_eq_some.1 named]
  exact ⟨rfl, rfl, rfl, rfl, rfl, rfl, rfl, rfl, rfl, fun q hq other => withBit_getLsbD_of_val_ne s.dir hq other b,
    storedByte_of_ne_dirAddr rfl rfl⟩

/-- Settles O48: one bit of `OUT` and one level are written. -/
theorem frameOfOutputStores : Obligations.FrameOfOutputStores := by
  intro s t pin i separate stores h
  obtain ⟨p, l, named, rfl⟩ := driveLevel_of_exec separate stores h
  rw [named]
  exact ⟨rfl, rfl, rfl, rfl, rfl, rfl, rfl, rfl, fun q other => levelOf_driveLevel_of_ne other l s,
    fun q hq other => withBit_getLsbD_of_val_ne s.out hq other _, storedByte_of_ne_outAddr rfl rfl⟩

/-- Settles O49: none of these commands writes a register but `RES`, and none but `read_pin` uses an answer. -/
theorem frameOfNonStoringCommands : Obligations.FrameOfNonStoringCommands := by
  intro s t i nonStoring h
  rcases nonStoring with ⟨pin, rfl⟩ | ⟨n, rfl⟩ | ⟨n, rfl⟩ | ⟨n, rfl⟩ | rfl
  · obtain ⟨b, event, after, rfl⟩ := readPin_next h
    exact ⟨rfl, rfl, rfl, rfl, rfl, rfl, fun noRead => absurd rfl (noRead pin), fun _ => ⟨rfl, rfl⟩,
      storedByte_congr rfl rfl rfl⟩
  · obtain ⟨-, rfl⟩ := execDelay_eq_next.1 h
    exact ⟨rfl, rfl, rfl, rfl, rfl, rfl, fun _ => ⟨rfl, rfl⟩, fun _ => ⟨rfl, rfl⟩, storedByte_congr rfl rfl rfl⟩
  · obtain ⟨-, rfl⟩ := execDelayMs_eq_next.1 h
    exact ⟨rfl, rfl, rfl, rfl, rfl, rfl, fun _ => ⟨rfl, rfl⟩, fun _ => ⟨rfl, rfl⟩, storedByte_congr rfl rfl rfl⟩
  · cases execJump_eq_next.1 h
    exact ⟨rfl, rfl, rfl, rfl, rfl, rfl, fun _ => ⟨rfl, rfl⟩, fun _ => ⟨rfl, rfl⟩, storedByte_congr rfl rfl rfl⟩
  · cases execHalt_eq_next.1 h
    exact ⟨rfl, rfl, rfl, rfl, rfl, rfl, fun _ => ⟨rfl, rfl⟩, fun noHalt => absurd rfl noHalt,
      storedByte_congr rfl rfl rfl⟩

/-- Settles O50: `construct` writes `BIND` and `pc`. -/
theorem frameOfConstruct : Obligations.FrameOfConstruct := by
  intro s t d o i h
  obtain ⟨-, -, -, -, rfl⟩ := execConstruct_eq_next.1 h
  exact ⟨rfl, rfl, rfl, rfl, rfl, rfl, rfl, rfl, rfl, rfl⟩

/-- Settles O51: success writes the pin's level and `pc`, failure is a fault entry. -/
theorem frameOfCapabilityToggle : Obligations.FrameOfCapabilityToggle := by
  intro s t pin capability h
  rw [exec_toggle_of_capability capability] at h
  obtain ⟨p, named, l, -, outcome⟩ := toggleCapability_eq_next.1 h
  rw [drawToggle_snd] at outcome
  rcases outcome with ⟨-, rfl⟩ | ⟨-, rfl⟩
  · exact ⟨rfl, rfl, rfl, rfl, rfl, rfl, fun q other => levelOf_writeLevel_of_val_ne (pinOf_eq_some.1 named ▸ other) _ _,
      .inl ⟨rfl, rfl⟩, storedByte_congr rfl rfl rfl⟩
  · exact ⟨rfl, rfl, rfl, rfl, rfl, rfl, fun _ _ => rfl, .inr ⟨rfl, rfl, rfl, rfl⟩, storedByte_congr rfl rfl rfl⟩

end Sys2Proof.Machine
end

-- The family of 40_port_ops.md, second part: orders of commands and hazards (R23, R75, R78, R149, R150).
section
/-!
PROOFS. Two commands on one pin, one after the other, and the bytes that `IN` can show; from these, the statements O23,
O25, O27 and O28.
-/

namespace Sys2Proof.Machine

/-! ## Two commands on one pin (R78, R149) -/

/-- The last level commanded to a pin wins (R78). -/
theorem driveLevel_driveLevel (p : Pin) (l l' : Level) (s : State) :
    (driveLevel p l' (driveLevel p l s)).out = (driveLevel p l' s).out ∧
      (driveLevel p l' (driveLevel p l s)).lvl = (driveLevel p l' s).lvl :=
  ⟨withBit_withBit s.out p _ _, Vector.set_set _ p.isLt⟩

theorem portReady_driveLevel {s : State} (ready : s.PortReady) (p : Pin) (l : Level) : (driveLevel p l s).PortReady :=
  ready

theorem portReady_writeMode {s : State} (ready : s.PortReady) (p : Pin) (b : Bool) : (writeMode p b s).PortReady :=
  ready

/-- The line of a pin that is an output (R17). -/
theorem pad_of_output {s : State} {p : Pin} (output : s.dir.getLsbD p.val = true) (outside : Byte) :
    pad s outside p = levelOfBit (s.out.getLsbD p.val) := by
  rw [pad_eq, if_pos output]

theorem driveLevel_out_getLsbD (p : Pin) (b : Bool) (s : State) :
    (driveLevel p (levelOfBit b) s).out.getLsbD p.val = b :=
  (withBit_getLsbD_self s.out p _).trans (bitOfLevel_levelOfBit b)

/-- Making a pin an output drives its `OUT` bit (R17, R74). -/
theorem pad_writeMode_true (p : Pin) (s : State) (outside : Byte) :
    pad (writeMode p true s) outside p = levelOfBit (s.out.getLsbD p.val) :=
  pad_of_output (withBit_getLsbD_self s.dir p true) outside

/-- A level commanded to an input pin moves no line (R17, R75). -/
theorem pad_driveLevel_of_input {s : State} {p : Pin} (input : s.dir.getLsbD p.val = false) (l : Level)
    (outside : Byte) (q : Pin) : pad (driveLevel p l s) outside q = pad s outside q :=
  pad_withBit_of_input (t := driveLevel p l s) input rfl rfl outside q

/-! ## The bytes that `IN` can show (R23) -/

/-- A byte is shown as it is exactly where it agrees with `OUT` on every output pin, or LOOPBACK is off. -/
theorem inputShown_eq_self_iff {s : State} {v : Byte} :
    inputShown s v = v ↔
      (s.cfg.loopback = true → ∀ q : Pin, s.dir.getLsbD q.val = true → v.getLsbD q.val = s.out.getLsbD q.val) := by
  cases looped : s.cfg.loopback with
  | false => simp [inputShown, looped]
  | true =>
    simp only [inputShown, looped, if_true, true_imp_iff]
    constructor
    · intro shown q output
      rw [← shown, padByte_getLsbD _ _ _ q.isLt, if_pos output]
    · intro agrees
      refine BitVec.eq_of_getLsbD_eq fun k hk => ?_
      rw [padByte_getLsbD _ _ _ hk]
      split
      next output => exact (agrees ⟨k, hk⟩ output).symm
      next => rfl

/-- What is shown is shown as it is. -/
theorem inputShown_inputShown (s : State) (raw : Byte) : inputShown s (inputShown s raw) = inputShown s raw := by
  refine inputShown_eq_self_iff.2 fun looped q output => ?_
  rw [inputShown, if_pos looped, padByte_getLsbD _ _ _ q.isLt, if_pos output]

/-! ## The obligations -/

/-- Settles O23: `driveLevel` twice on one pin. -/
theorem setPinStateIsIdempotent : Obligations.SetPinStateIsIdempotent := by
  intro s p b c ready
  have readyT := portReady_driveLevel ready p (levelOfBit b)
  obtain ⟨sameOut, sameLvl⟩ := driveLevel_driveLevel p (levelOfBit b) (levelOfBit b) s
  obtain ⟨lastOut, lastLvl⟩ := driveLevel_driveLevel p (levelOfBit b) (levelOfBit c) s
  refine ⟨_, _, _, setPinState_eq_driveLevel ready p b, setPinState_eq_driveLevel readyT p b, sameOut, sameLvl, ?_,
    setPinState_eq_driveLevel readyT p c, _, setPinState_eq_driveLevel ready p c, lastOut, lastLvl⟩
  rw [accesses_driveLevel, accesses_driveLevel, List.append_assoc]
  rfl

/-- Settles O25: what `read_pin` records is shown, and a byte that is shown as it is can be the answer. -/
theorem readsOfInAreFree : Obligations.ReadsOfInAreFree := by
  intro s p ready v
  rw [← inputShown_eq_self_iff]
  constructor
  · rintro ⟨e, t, read, trace⟩
    obtain ⟨raw, after, answer⟩ := exists_answersInput e
    cases (readPin_eq_samplePin (s := { s with env := e }) ready p answer).symm.trans read
    obtain rfl : inputShown s raw = v := by simpa [samplePin, inputShown] using trace
    exact inputShown_inputShown s raw
  · intro shown
    refine ⟨{ s.env with inputs := [v] }, _, readPin_eq_samplePin (s := { s with env := { s.env with inputs := [v] } })
      ready p (.inl ⟨[], rfl, rfl⟩), ?_⟩
    exact congrArg (fun byte => s.trace ++ [Event.rd .inp s.bind.inAddr byte]) shown

/-- Settles O27: the two explicit next states in both orders. -/
theorem directionBeforeLevelGlitch : Obligations.DirectionBeforeLevelGlitch := by
  intro s p b outside ready
  have output : (driveLevel p (levelOfBit b) (writeMode p true s)).dir.getLsbD p.val = true :=
    withBit_getLsbD_self s.dir p true
  refine ⟨_, _, _, _, setPinMode_eq_writeMode ready p true,
    setPinState_eq_driveLevel (portReady_writeMode ready p true) p b, setPinState_eq_driveLevel ready p b,
    setPinMode_eq_writeMode (portReady_driveLevel ready p _) p true, pad_writeMode_true p s outside, ?_,
    fun input => pad_driveLevel_of_input input _ outside p, ?_, rfl, rfl, rfl⟩
  · rw [pad_of_output output, driveLevel_out_getLsbD]
  · rw [pad_writeMode_true, driveLevel_out_getLsbD]

/-- Settles O28: the level reaches `OUT` and no line, and the mode command drives it. -/
theorem inputPinRemembersItsLevel : Obligations.InputPinRemembersItsLevel := by
  intro s p b ready input
  have stored := driveLevel_out_getLsbD p b s
  refine ⟨_, _, setPinState_eq_driveLevel ready p b, stored,
    fun outside q => pad_driveLevel_of_input input _ outside q,
    setPinMode_eq_writeMode (portReady_driveLevel ready p _) p true, stored, fun outside => ?_⟩
  rw [pad_writeMode_true, stored]

end Sys2Proof.Machine
end

-- The family of 42_toggle_loop.md, second part: the loop's command list, its start and its going on (R96, R102 to R104).
section
/-!
PROOFS. `toggle` as a `set_pin_state`, the commands of the loop pair by pair, its launch, and its steps where nothing
fails; from these, the statements O33, O35, O37, O40, O42 and O58.
-/

namespace Sys2Proof.Machine

/-! ## `toggle` and `set_pin_state` (R96) -/

/-- Under the port binding the two commands perform the same tests and the same access. -/
theorem toggle_eq_setPinState {s : State} (port : s.cfg.binding = .port) {p : Pin} {l : Level}
    (set : levelOf s p = .commanded l) :
    exec (.toggle (pinOperand p)) s = exec (.setPinState (pinOperand p) (bitOfLevel (invert l))) s := by
  rw [exec_toggle_of_port port]
  simp [exec, execSetPinState, togglePort, requirePort, requireBinding, require, requirePin, requireLevel, port, set,
    -bitOfLevel_invert]

/-! ## The commands of the loop, pair by pair (R102, R104) -/

/-- The body up to a pair, the pair, and the rest. -/
theorem loopBody_split (b : Binding) (p : Byte) {seq : LoopSeq} {n : Nat} {st : LoopStep}
    (h : seq.steps[n]? = some st) :
    ∃ rest, loopBody b p seq = (seq.steps.take n).flatMap (pairCommands b p) ++ (pairCommands b p st ++ rest) := by
  obtain ⟨inside, rfl⟩ := List.getElem?_eq_some_iff.1 h
  refine ⟨(seq.steps.drop (n + 1)).flatMap (pairCommands b p), ?_⟩
  rw [← List.flatMap_cons, List.getElem_cons_drop, ← List.flatMap_append, List.take_append_drop, loopBody]

/-- The command at offset `k` of pair `n`, wherever the body stands. -/
theorem getElem?_pairCommands {b : Binding} {p : Byte} {seq : LoopSeq} {n at_ : Nat} {st : LoopStep}
    {before after : List Instr} (h : seq.steps[n]? = some st)
    (place : at_ = before.length + n + ((seq.steps.take n).filter fun earlier => earlier.transition).length) {k : Nat}
    {c : Instr} (hc : (pairCommands b p st)[k]? = some c) :
    (before ++ (loopBody b p seq ++ after))[at_ + k]? = some c := by
  obtain ⟨rest, split⟩ := loopBody_split b p h
  obtain ⟨inside, -⟩ := List.getElem?_eq_some_iff.1 h
  obtain ⟨offset, -⟩ := List.getElem?_eq_some_iff.1 hc
  have earlier : ((seq.steps.take n).flatMap (pairCommands b p)).length =
      n + ((seq.steps.take n).filter fun earlier => earlier.transition).length := by
    rw [length_flatMap_pairCommands, List.length_take_of_le inside.le]
  rw [split, List.getElem?_append_right (by omega), List.append_assoc, List.getElem?_append_right (by omega),
    List.append_assoc, show at_ + k - before.length - _ = k by omega, List.getElem?_append_left offset, hc]

/-- Pair `n`: `toggle` when its transition bit is 1, then its hold. -/
theorem pair_in_place (b : Binding) (p : Byte) {seq : LoopSeq} {n at_ : Nat} {st : LoopStep}
    (before after : List Instr) (h : seq.steps[n]? = some st)
    (place : at_ = before.length + n + ((seq.steps.take n).filter fun earlier => earlier.transition).length) :
    (st.transition = true → (before ++ (loopBody b p seq ++ after))[at_]? = some (.toggle p) ∧
      (before ++ (loopBody b p seq ++ after))[at_ + 1]? = some (holdCommand b st.hold)) ∧
    (st.transition = false → (before ++ (loopBody b p seq ++ after))[at_]? = some (holdCommand b st.hold)) :=
  ⟨fun toggles => ⟨getElem?_pairCommands (k := 0) h place (by simp [pairCommands, toggles]),
      getElem?_pairCommands (k := 1) h place (by simp [pairCommands, toggles])⟩,
    fun holds => getElem?_pairCommands (k := 0) h place (by simp [pairCommands, holds])⟩

/-! ## Where nothing fails (R95, R142) -/

theorem NoToggleFailure.success {cfg : Launch} {env : Env} (h : NoToggleFailure cfg env)
    (capability : cfg.binding = .capability) : ∃ after, AnswersToggle env true after := by
  obtain ⟨scripted, free⟩ := h capability
  obtain ⟨ok, after, answer⟩ := exists_answersToggle env
  refine ⟨after, ?_⟩
  have succeeds : ok = true := by
    rcases answer with ⟨rest, script, -⟩ | ⟨-, rfl, -⟩
    · exact scripted ok (by rw [script]; exact List.mem_cons_self)
    · exact free env.draws le_rfl
  rwa [succeeds] at answer

theorem NoToggleFailure.after_draw {cfg : Launch} {env after : Env} {ok : Bool} (h : NoToggleFailure cfg env)
    (answer : AnswersToggle env ok after) : NoToggleFailure cfg after := by
  intro capability
  obtain ⟨scripted, free⟩ := h capability
  rcases answer with ⟨rest, script, rfl⟩ | ⟨script, -, rfl⟩
  · exact ⟨fun b hb => scripted b (by rw [script]; exact List.mem_cons_of_mem ok hb), free⟩
  · exact ⟨scripted, fun n hn => free n (Nat.le_of_succ_le hn)⟩

/-- Under the capability binding only a toggle uses an answer of the environment, its own. -/
theorem Executes.env_of_capability {s t : State} {i : Instr} (h : Executes s i t)
    (capability : s.cfg.binding = .capability) : t.env = s.env ∨ ∃ ok, AnswersToggle s.env ok t.env := by
  cases h with
  | readPin ready answer => exact nomatch capability.symm.trans ready.1
  | toggleCapability capability set answer => exact .inr ⟨true, answer⟩
  | toggleFails capability set answer => exact .inr ⟨false, answer⟩
  | construct | setPinMode | setPinState | delay | delayMs | togglePort | jump | halt => exact .inl rfl

section
variable {s t : State} {d o i : Addr}

/-- Without environment faults, and where the next toggle result is success, a step executes the loop's command at `pc`
and stays in the loop. -/
theorem State.InLoop.step_of_quiet (h : s.InLoop d o i) (quiet : NoEnvFaults s.cfg)
    (succeeds : s.cfg.binding = .capability → ∃ after, AnswersToggle s.env true after) :
    ∃ c t, exec c s = .next t ∧ step s = .next t ∧ t.InLoop d o i := by
  obtain ⟨c, command, word⟩ := h.fetched
  have executes : step s = exec c s := step_of_command_quiet h.running quiet word (decode_encode c)
  have next : ∃ t, exec c s = .next t ∧ t.InLoop d o i := by
    cases binding : s.cfg.binding with
    | port => exact h.exec_of_port binding command
    | capability =>
      obtain ⟨after, answer⟩ := succeeds binding
      rcases h.exec_of_capability binding command with next | ⟨fails, -⟩
      · exact next
      · rw [drawToggle_of_answersToggle answer] at fails
        cases fails
  obtain ⟨t, ht, inLoop⟩ := next
  exact ⟨c, t, ht, executes.trans ht, inLoop⟩

/-- Where nothing fails, a step stays in the loop, and nothing will fail. -/
theorem State.InLoop.step_of_noFailure (h : s.InLoop d o i) (quiet : NoEnvFaults s.cfg)
    (noFailure : NoToggleFailure s.cfg s.env) :
    ∃ t, step s = .next t ∧ t.InLoop d o i ∧ NoEnvFaults t.cfg ∧ NoToggleFailure t.cfg t.env := by
  obtain ⟨c, t, hx, hs, inLoop⟩ := h.step_of_quiet quiet noFailure.success
  obtain ⟨cfg, -⟩ := step_keeps hs
  refine ⟨t, hs, inLoop, cfg ▸ quiet, ?_⟩
  rw [cfg]
  intro capability
  have unbound := h.unbound fun port => nomatch capability.symm.trans port
  have executes := executes_of_exec (fun bound => nomatch unbound.symm.trans bound) hx
  rcases executes.env_of_capability capability with same | ⟨ok, answer⟩
  · rw [same]
    exact noFailure capability
  · exact noFailure.after_draw answer capability

theorem State.InLoop.runFor_of_noFailure (h : s.InLoop d o i) (quiet : NoEnvFaults s.cfg)
    (noFailure : NoToggleFailure s.cfg s.env) (k : Nat) : ∃ t, runFor k s = .next t ∧ t.InLoop d o i := by
  induction k generalizing s with
  | zero => exact ⟨s, rfl, h⟩
  | succ k ih =>
    obtain ⟨t, hs, inLoop, quietT, noFailureT⟩ := h.step_of_noFailure quiet noFailure
    rw [runFor, hs, andThen_next]
    exact ih inLoop quietT noFailureT

end

/-! ## The obligations -/

/-- Settles O33: the inversion of `delay_ms`, and its refusal of the port binding. -/
theorem delayMsRecords : Obligations.DelayMsRecords := fun s count =>
  ⟨fun capability => execDelayMs_eq_next.2 ⟨capability, rfl⟩,
    fun port => (exec_eq_wrongBinding_iff (.delayMs count) s).2 (by rw [port]; rfl)⟩

/-- Settles O35: the same tests and the same access, for either level. -/
theorem toggleIsSetPinStateNegated : Obligations.ToggleIsSetPinStateNegated := fun _ _ port =>
  ⟨toggle_eq_setPinState port, toggle_eq_setPinState port⟩

/-- Settles O40: the mode command writes `DIR` alone, and the toggle stores in the `OUT` bit of an input pin. -/
theorem toggleOnAnInputPinReachesNoLine : Obligations.ToggleOnAnInputPinReachesNoLine := by
  intro s p l outside ready set
  have input : (writeMode p false s).dir.getLsbD p.val = false := withBit_getLsbD_self s.dir p false
  refine ⟨_, _, setPinMode_eq_writeMode ready p false, rfl, rfl,
    toggle_eq_driveLevel (portReady_writeMode ready p false) set, ?_, ?_,
    fun q => pad_driveLevel_of_input input _ outside q⟩
  · rw [← invert_eq_ite]
    exact levelOf_writeLevel_self p _ s
  · refine (withBit_getLsbD_self s.out p _).trans ?_
    cases l <;> rfl

/-- Settles O37: the list under each binding, and its pairs in place. -/
theorem loopCommandsHaveTheRulesLength : Obligations.LoopCommandsHaveTheRulesLength := by
  refine fun cfg d o i => ⟨fun port => ?_, fun capability => ?_⟩
  · rw [loopCommands_of_port port]
    refine ⟨?_, rfl, fun n at_ st hst place => pair_in_place .port _ [_, _, _] _ hst place,
      by simp [List.getLast?_cons]⟩
    simp only [List.length_cons, List.length_append, length_loopBody, List.length_nil]
    omega
  · rw [loopCommands_of_capability capability]
    refine ⟨?_, fun n at_ st hst place => pair_in_place .capability _ [] _ hst (by simpa using place), fun c hc => ?_,
      by simp⟩
    · simp only [List.length_cons, List.length_append, length_loopBody, List.length_nil]
      omega
    · rcases List.mem_append.1 hc with body | last
      · obtain rfl | ⟨n, rfl⟩ := mem_loopBody body
        · rfl
        · rfl
      · rw [List.mem_singleton.1 last]
        rfl

/-- Settles O42: the launch stands at command 0, unbound, with `LOOP_PIN` set under the capability binding. -/
theorem loopStartsAtLaunch : Obligations.LoopStartsAtLaunch := by
  intro cfg env d o i valid short
  have nonempty : 0 < (loopCommands cfg d o i).length := by
    cases binding : cfg.binding with
    | port => simp [loopCommands_of_port binding]
    | capability => simp [loopCommands_of_capability binding]
  exact
    { running := rfl
      valid := valid
      prog := rfl
      short := by simpa [State.launch] using short
      inside := by simpa [State.launch] using nonempty
      unbound := fun _ => rfl
      bound := fun _ moved => absurd rfl moved
      driven := fun notPort => by
        cases binding : cfg.binding with
        | port => exact absurd (notPort binding) (by simp [State.launch])
        | capability =>
          rw [levelOf_launch_capability binding]
          simp [State.launch] }

/-- Settles O58: one step for the next toggle result, and any number of them by induction. -/
theorem loopKeepsRunning : Obligations.LoopKeepsRunning := by
  refine fun s d o i h quiet => ⟨fun result => ?_, fun noFailure k => h.runFor_of_noFailure quiet noFailure k⟩
  have succeeds : s.cfg.binding = .capability → ∃ after, AnswersToggle s.env true after := fun capability => by
    rcases result capability with ⟨rest, script⟩ | ⟨script, free⟩
    · exact ⟨_, .inl ⟨rest, script, rfl⟩⟩
    · exact ⟨_, .inr ⟨script, free.symm, rfl⟩⟩
  obtain ⟨c, t, -, hs, inLoop⟩ := h.step_of_quiet quiet succeeds
  exact ⟨t, hs, inLoop⟩

end Sys2Proof.Machine
end
